-- ==== Sys2Proof/Word.lean ====
section
/-! DEFINITION. The values that cross the block's interfaces: bytes, nibbles, byte strings (00_scope R13, R14, R17). -/

namespace Sys2Proof

/-- A bus value, a character or a command byte (00_scope R13: "a bus value is 8 bits", "a character is one byte"). -/
abbrev Byte := BitVec 8

/-- Half of a byte (00_scope glossary, "nibble"). -/
abbrev Nibble := BitVec 4

/-- A byte string of any length (00_scope R13, R17). -/
abbrev Str := List Byte

/-- The byte of `" "` (00_scope R17). -/
def space : Byte := 0x20#8

/-- The byte of `"<"` (00_scope R17). -/
def ltByte : Byte := 0x3C#8

/-- The byte of `">"` (00_scope R17). -/
def gtByte : Byte := 0x3E#8

end Sys2Proof
end

