-- ==== Sys2Proof/Config.lean ====
section
/-! DEFINITION. What is fixed for one block: its parameters (00_scope R10), the timing constants (00_scope R11), the
defaults of INIT's operands, and the free values (constants without a body). -/

namespace Sys2Proof

/-- The answer of the bus primitive to one write (00_scope R8). -/
inductive BusAnswer where
  /-- The bus took the byte. -/
  | ok
  /-- `BusError` (90_conflicts C11: the bus's answer; the block's error for it is `TransportError`). -/
  | busError
  deriving DecidableEq, Repr, Inhabited

/-- The implementation parameters that no operation writes (00_scope R10). The fields of CFG are INIT's operands and
stand in State; `LINES`, `LINE_LENGTH`, `I2C_ADDR` and the markers are those. -/
structure Params where
  /-- `BIT_RS` (30_encoding R102). -/
  bitRs : Byte
  /-- `BIT_RW` (30_encoding R102), set by no rule. -/
  bitRw : Byte
  /-- `BIT_EN` (30_encoding R102). -/
  bitEn : Byte
  /-- `BIT_BL` (30_encoding R102). -/
  bitBl : Byte
  /-- `NIBBLE_PREWRITE` (30_encoding R103, 40_transport R142). -/
  prewrite : Bool
  /-- `REQUESTERS` (60_exceptions R288). -/
  requesters : Nat
  /-- `BUS_PORT`, of the platform only (60_exceptions R287: "has no effect on any rule"). -/
  busPort : Int
  deriving DecidableEq, Repr

/-- The defaults of 00_scope R10; the bit positions are [from general knowledge, not in source] (30_encoding R102). -/
def Params.default : Params :=
  { bitRs := 0x01#8, bitRw := 0x02#8, bitEn := 0x04#8, bitBl := 0x08#8, prewrite := false, requesters := 1, busPort := 1 }

/-- The four values a flag may have: a single bit inside bits[3:0] (30_encoding R102). -/
def flagBits : List Byte := [0x01#8, 0x02#8, 0x04#8, 0x08#8]

/-- 30_encoding R102: the four flags are "distinct single bits inside bits[3:0]"; 00_scope R10: REQUESTERS ≥ 1. -/
def Params.wf (p : Params) : Bool :=
  flagBits.contains p.bitRs && flagBits.contains p.bitRw && flagBits.contains p.bitEn && flagBits.contains p.bitBl
    && decide ([p.bitRs, p.bitRw, p.bitEn, p.bitBl].Nodup) && decide (1 ≤ p.requesters)

namespace Config

/-- `T_SETTLE`, µs (00_scope R11). -/
def tSettle : Nat := 100

/-- `T_EN_HOLD`, µs (00_scope R11). -/
def tEnHold : Nat := 500

/-- `T_POST_HOLD`, µs (00_scope R11). -/
def tPostHold : Nat := 100

/-- `T_INIT`, µs (00_scope R11). -/
def tInit : Nat := 200000

/-- Default of INIT's `line_length` (00_scope R10). -/
def lineLength : Nat := 16

/-- Default of INIT's `addr` (00_scope R10). -/
def addr : Nat := 0x27

/-- Default of INIT's `begin` (00_scope R10, D6). -/
def beginMarker : Str := [ltByte]

/-- Default of INIT's `end` (00_scope R10, D6). -/
def endMarker : Str := [gtByte]

/-- FREE VALUE: the OPEN parameter `ROT_INTERVAL_US`, the default of INIT's `interval` (00_scope R10, D7; log 13). -/
opaque rotIntervalUs : Nat

/-- FREE VALUE: the bus's answer to the n-th write that `State.bus` gives no answer for (40_transport R140: "a model
draws it at every write"; log 2). -/
opaque busAnswer : Nat → BusAnswer

/-- FREE VALUE: what RENDER_LINE shows of a string longer than its line, which 44_render_policy R248 does not state (log
30). -/
opaque shownOfLong : Str → Nat → Str

/-- FREE VALUE: how much of the rotating string a frame shows on a line of fewer than two columns, which 44_render_policy
R245 refuses at the start and R246 does not state (00_scope R16; log 29). -/
opaque rotTextWidthBelowTwo : Nat → Nat

end Config

end Sys2Proof
end

