-- ==== Sys2Proof/Syntax.lean ====
section
/-! DEFINITION. The operations of the block: one constructor of `Instr` per row of spec/opcode_table.json, with its
operands as typed values (30_encoding R113, R114; the rows of layers L0 to L3: R101 to R111). -/

namespace Sys2Proof

/-- The mode operand `M` of a frame, one bit (30_encoding R105). -/
inductive RegSel where
  /-- `M = 0`, instruction mode. -/
  | instruction
  /-- `M = 1`, data mode. -/
  | data
  deriving DecidableEq, Repr

/-- The `align` operand, two bits (30_encoding R115). -/
inductive Align where
  /-- 0. -/
  | left
  /-- 1. -/
  | center
  /-- 2. -/
  | right
  /-- 3, the source's default arm: pads as left does. -/
  | leftDefault
  deriving DecidableEq, Repr

/-- The `overflow` operand, one byte (30_encoding R116). -/
inductive Overflow where
  /-- 0. -/
  | scroll
  /-- 1. -/
  | rotate
  /-- Any other value of the byte. -/
  | unknown (v : Byte)
  deriving DecidableEq, Repr

/-- Every row of spec/opcode_table.json. -/
inductive Instr where
  -- host operations (30_encoding R113, tags 0x01 to 0x0D)
  /-- WRITE_CMD, tag 0x01 (40_transport R143). -/
  | writeCmd (b : Byte) (m : RegSel)
  /-- INIT, tag 0x02 (41_display_controller R160 to R164). -/
  | init (lines lineLength addr : Nat) (beginM endM : Str) (interval : Nat)
  /-- CLEAR, tag 0x03 (41_display_controller R165). -/
  | clear
  /-- BACKLIGHT, tag 0x04 (41_display_controller R166). -/
  | backlight (on : Bool)
  /-- LOAD_CHARS, tag 0x05 (41_display_controller R167). -/
  | loadChars (glyphs : List Str)
  /-- POS_CURSOR, tag 0x06 (41_display_controller R168). -/
  | posCursor (line col : Nat)
  /-- WRITE_RAW, tag 0x07 (41_display_controller R169). -/
  | writeRaw (str : Str) (line pos : Nat)
  /-- PAD, tag 0x08 (42_text_layout R190). -/
  | pad (str : Str) (fullLen : Nat) (padChar : Str) (align : Align)
  /-- DISPLAY, tag 0x09 (44_render_policy R240). -/
  | display (str : Str) (line : Nat) (align : Align) (overflow : Overflow) (budget : Nat)
  /-- SCROLL_FWD, tag 0x0A (44_render_policy R249). -/
  | scrollFwd (n : Nat)
  /-- SCROLL_BWD, tag 0x0B (44_render_policy R250). -/
  | scrollBwd (n : Nat)
  /-- VIEW, tag 0x0C (44_render_policy R251). -/
  | view
  /-- CANCEL, tag 0x0D (44_render_policy R247). -/
  | cancel
  -- internal micro-operations (30_encoding R113, tags 0x81 to 0x89)
  /-- BUS_WRITE, tag 0x81 (40_transport R140). -/
  | busWrite (v : Byte)
  /-- WAIT, tag 0x82 (40_transport R141). -/
  | wait (t : Nat)
  /-- NIBBLE, tag 0x83 (40_transport R142); `m` is 0 or `BIT_RS`. -/
  | nibble (x : Byte) (m : RegSel)
  /-- WIN_CREATE, tag 0x84 (43_scroll_window R210). -/
  | winCreate (buf : Str) (lcdLen line : Nat) (beginM endM : Str)
  /-- WIN_VIEW, tag 0x85 (43_scroll_window R212). -/
  | winView
  /-- WIN_FWD, tag 0x86 (43_scroll_window R213). -/
  | winFwd (n : Nat)
  /-- WIN_BWD, tag 0x87 (43_scroll_window R214). -/
  | winBwd (n : Nat)
  /-- RENDER_LINE, tag 0x88 (44_render_policy R248). -/
  | renderLine (str : Str) (line : Nat)
  /-- ROT_STEP, tag 0x89 (44_render_policy R246). -/
  | rotStep
  -- L0 bus bytes and L2 frames (30_encoding R101, R103, R104, R106)
  /-- BUS_BYTE, `DDDDBERS`: any bus byte by its fields (30_encoding R101). -/
  | busByte (d : Nibble) (bl en rw rs : Bool)
  /-- NIBBLE_EN_SET, `DDDD110S` (30_encoding R103, byte A). -/
  | nibbleEnSet (d : Nibble) (m : RegSel)
  /-- NIBBLE_EN_CLEAR, `DDDD100S` (30_encoding R103, byte B). -/
  | nibbleEnClear (d : Nibble) (m : RegSel)
  /-- NIBBLE_PREWRITE, `DDDD100S` (30_encoding R103, byte P). -/
  | nibblePrewrite (d : Nibble) (m : RegSel)
  /-- COMMAND_FRAME (30_encoding R104): the two nibbles of one byte and its mode. -/
  | commandFrame (h l : Nibble) (m : RegSel)
  /-- BACKLIGHT_ON, the unframed byte `BIT_BL` (30_encoding R106). -/
  | backlightOn
  /-- BACKLIGHT_OFF, the unframed byte 0x00 (30_encoding R106). -/
  | backlightOff
  -- L3 LCD command bytes (30_encoding R107 to R111), each carried by a command frame
  /-- WAKE, 0x03. -/
  | wake
  /-- SET_4BIT, 0x02. -/
  | set4bit
  /-- FUNCTION_SET, 0x20 or 0x28 by the line-count bit N (30_encoding R108). -/
  | functionSet (n : Bool)
  /-- DISPLAY_ON, 0x0C. -/
  | displayOn
  /-- CLEAR_DISPLAY, 0x01. -/
  | clearDisplay
  /-- ENTRY_MODE_LEFT, 0x06. -/
  | entryModeLeft
  /-- RETURN_HOME, 0x02. -/
  | returnHome
  /-- SET_CGRAM, `01AAAAAA` (30_encoding R110). -/
  | setCgram (a : BitVec 6)
  /-- SET_DDRAM, `1AAAAAAA` (30_encoding R109). -/
  | setDdram (a : BitVec 7)
  /-- DATA, any byte in data mode (30_encoding R111). -/
  | data (d : Byte)
  deriving DecidableEq, Repr

end Sys2Proof
end

