-- ==== Sys2Proof/WellFormed.lean ====
section
/-! DEFINITION. Which instruction terms are operations of the spec: the operand conditions that the types do not carry
(30_encoding R101, R113, R114, R116; 40_transport R142; 43_scroll_window R210). The values an operation refuses itself
(INIT's geometry, LOAD_CHARS's glyph sizes, an address above 0x7F) are well-formed: refusing them is its meaning. -/

namespace Sys2Proof

/-- 30_encoding R116: the values 0 and 1 are the named policies, so `unknown` holds another value. -/
def Overflow.wf : Overflow → Bool
  | .scroll => true
  | .rotate => true
  | .unknown v => decide (2 ≤ v.toNat)

/-- 40_transport R142: `x` is "a byte with `x[3:0] = 0`". -/
def lowNibbleClear (x : Byte) : Bool := x &&& 0x0F#8 == 0#8

/-- The operand conditions of WIN_CREATE (43_scroll_window R210). -/
def winCreatePre (buf : Str) (lcdLen : Nat) (beginM endM : Str) : Bool :=
  decide (lcdLen < buf.length) && decide (1 ≤ lcdLen) && decide (beginM.length + endM.length + 1 ≤ lcdLen)

/-- The instruction is one the spec defines. -/
def Instr.wf : Instr → Bool
  | .display _ _ _ ov _ => ov.wf
  | .nibble x _ => lowNibbleClear x
  | .winCreate buf lcdLen _ b e => winCreatePre buf lcdLen b e
  | .busByte _ _ _ rw _ => !rw          -- 30_encoding R101: "read/write; always 0 (write)"
  | .writeCmd _ _ | .init _ _ _ _ _ _ | .clear | .backlight _ | .loadChars _ | .posCursor _ _ | .writeRaw _ _ _
  | .pad _ _ _ _ | .scrollFwd _ | .scrollBwd _ | .view | .cancel | .busWrite _ | .wait _ | .winView | .winFwd _
  | .winBwd _ | .renderLine _ _ | .rotStep | .nibbleEnSet _ _ | .nibbleEnClear _ _ | .nibblePrewrite _ _
  | .commandFrame _ _ _ | .backlightOn | .backlightOff | .wake | .set4bit | .functionSet _ | .displayOn
  | .clearDisplay | .entryModeLeft | .returnHome | .setCgram _ | .setDdram _ | .data _ => true

end Sys2Proof
end

