-- ==== Sys2Proof/Decode.lean ====
section
/-! DEFINITION. The decoders of the block's encoding layers (30_encoding R100) and, after them, the encoder written
from the same tables. A host request is a tag byte and a typed operand record (R113, R114; log 11); a frame, an LCD
command byte and a bus byte are bits (R101 to R111). -/

namespace Sys2Proof

/-- One operand of a request, a typed value (30_encoding R114: "a model carries operands as typed values"). -/
inductive Operand where
  /-- A byte, a bit, `align`, `overflow` or a natural. -/
  | num (n : Nat)
  /-- A byte string. -/
  | str (s : Str)
  /-- A list of byte strings (`glyphs`). -/
  | strs (l : List Str)
  deriving DecidableEq, Repr

/-- A request: "an 8-bit operation tag followed by its operand record" (30_encoding R113). -/
structure Request where
  tag : Byte
  args : List Operand
  deriving DecidableEq, Repr

/-- What a decoder is given, by layer (30_encoding R100). -/
inductive Code where
  /-- L4. -/
  | request (r : Request)
  /-- L2: the four bus bytes of a frame, the first in bits 31:24 as spec/opcode_table.json numbers them. -/
  | frame (w : BitVec 32)
  /-- L3: the byte a frame carries, and its mode. -/
  | lcd (m : RegSel) (b : Byte)
  /-- L0. -/
  | bus (b : Byte)
  deriving DecidableEq, Repr

/-- Why a decoder refuses. -/
inductive Reject where
  /-- The tag spells no operation (30_encoding R117). -/
  | unknownTag
  /-- The record is not of the tag's operand list (30_encoding R118; log 11). -/
  | malformedOperands
  /-- The four bytes are not of the form of 30_encoding R104. -/
  | notAFrame
  /-- An LCD command the block never emits by itself (30_encoding R112). -/
  | notEmitted
  /-- A bus byte with RW set (30_encoding R101: always 0). -/
  | rwSet
  deriving DecidableEq, Repr

/-! ### Operands -/

def byteOf (n : Nat) : Option Byte := if n < 256 then some (BitVec.ofNat 8 n) else none

/-- A bit operand (30_encoding R114). -/
def bitOf (n : Nat) : Option Bool := if n < 2 then some (n == 1) else none

/-- The mode operand of a frame (30_encoding R105). -/
def regSelOf (n : Nat) : Option RegSel := if n < 2 then some (if n = 1 then .data else .instruction) else none

/-- The `align` operand (30_encoding R115). -/
def alignOf (n : Nat) : Option Align :=
  if n = 0 then some .left else if n = 1 then some .center else if n = 2 then some .right
  else if n = 3 then some .leftDefault else none

/-- The `overflow` operand (30_encoding R116). -/
def overflowOf (n : Nat) : Option Overflow :=
  if n = 0 then some .scroll else if n = 1 then some .rotate else (byteOf n).map .unknown

/-- The tags of 30_encoding R113, one name for each. -/
inductive Op where
  | writeCmd | init | clear | backlight | loadChars | posCursor | writeRaw | pad | display | scrollFwd | scrollBwd
  | view | cancel | busWrite | wait | nibble | winCreate | winView | winFwd | winBwd | renderLine | rotStep
  deriving DecidableEq, Repr

/-- The tag column of the two tables of 30_encoding R113. -/
def tagTable : List (Byte × Op) :=
  [(0x01#8, .writeCmd), (0x02#8, .init), (0x03#8, .clear), (0x04#8, .backlight), (0x05#8, .loadChars),
   (0x06#8, .posCursor), (0x07#8, .writeRaw), (0x08#8, .pad), (0x09#8, .display), (0x0A#8, .scrollFwd),
   (0x0B#8, .scrollBwd), (0x0C#8, .view), (0x0D#8, .cancel)]
  ++ [(0x81#8, .busWrite), (0x82#8, .wait), (0x83#8, .nibble), (0x84#8, .winCreate), (0x85#8, .winView),
   (0x86#8, .winFwd), (0x87#8, .winBwd), (0x88#8, .renderLine), (0x89#8, .rotStep)]

/-- The operation a tag spells (30_encoding R113, R117). -/
def opOfTag (tag : Byte) : Option Op := (tagTable.find? (fun row => row.1 == tag)).map Prod.snd

/-- The tag may be issued by the host: 0x01 to 0x0D (30_encoding R113, R117). -/
def hostTag (tag : Byte) : Bool := decide (1 ≤ tag.toNat) && decide (tag.toNat ≤ 0x0D)

/-! ### L4: requests. Omitted trailing operands take the defaults of 30_encoding R113 (R118). -/

def decWriteCmd : List Operand → Option Instr
  | [.num b] => (byteOf b).map (fun b => .writeCmd b .instruction)
  | [.num b, .num m] => (byteOf b).bind fun b => (regSelOf m).map fun m => .writeCmd b m
  | _ => none

def decInit : List Operand → Option Instr
  | [.num l] => some (.init l Config.lineLength Config.addr Config.beginMarker Config.endMarker Config.rotIntervalUs)
  | [.num l, .num n] => some (.init l n Config.addr Config.beginMarker Config.endMarker Config.rotIntervalUs)
  | [.num l, .num n, .num a] => some (.init l n a Config.beginMarker Config.endMarker Config.rotIntervalUs)
  | [.num l, .num n, .num a, .str b] => some (.init l n a b Config.endMarker Config.rotIntervalUs)
  | [.num l, .num n, .num a, .str b, .str e] => some (.init l n a b e Config.rotIntervalUs)
  | [.num l, .num n, .num a, .str b, .str e, .num i] => some (.init l n a b e i)
  | _ => none

def decNoArgs (i : Instr) : List Operand → Option Instr
  | [] => some i
  | _ => none

def decBacklight : List Operand → Option Instr
  | [.num on] => (bitOf on).map .backlight
  | _ => none

def decLoadChars : List Operand → Option Instr
  | [.strs gs] => some (.loadChars gs)
  | _ => none

def decPosCursor : List Operand → Option Instr
  | [.num line, .num col] => some (.posCursor line col)
  | _ => none

def decWriteRaw : List Operand → Option Instr
  | [.str s, .num line, .num pos] => some (.writeRaw s line pos)
  | _ => none

def decPad : List Operand → Option Instr
  | [.str s, .num n] => some (.pad s n [space] .left)
  | [.str s, .num n, .str c] => some (.pad s n c .left)
  | [.str s, .num n, .str c, .num a] => (alignOf a).map fun a => .pad s n c a
  | _ => none

def decDisplay : List Operand → Option Instr
  | [.str s, .num line, .num a, .num ov] =>
      (alignOf a).bind fun a => (overflowOf ov).map fun ov => .display s line a ov 0
  | [.str s, .num line, .num a, .num ov, .num budget] =>
      (alignOf a).bind fun a => (overflowOf ov).map fun ov => .display s line a ov budget
  | _ => none

/-- A move count, default 1 (30_encoding R113; 43_scroll_window R213, R214). -/
def decCount (mk : Nat → Instr) : List Operand → Option Instr
  | [] => some (mk 1)
  | [.num n] => some (mk n)
  | _ => none

def decBusWrite : List Operand → Option Instr
  | [.num v] => (byteOf v).map .busWrite
  | _ => none

def decWait : List Operand → Option Instr
  | [.num t] => some (.wait t)
  | _ => none

def decNibble : List Operand → Option Instr
  | [.num x, .num m] =>
      (byteOf x).bind fun x => (regSelOf m).bind fun m => if lowNibbleClear x then some (.nibble x m) else none
  | _ => none

def decWinCreate : List Operand → Option Instr
  | [.str buf, .num n, .num line, .str b, .str e] =>
      if winCreatePre buf n b e then some (.winCreate buf n line b e) else none
  | _ => none

def decRenderLine : List Operand → Option Instr
  | [.str s, .num line] => some (.renderLine s line)
  | _ => none

/-- The operand list of each tag (30_encoding R113). -/
def decodeOp : Op → List Operand → Option Instr
  | .writeCmd => decWriteCmd
  | .init => decInit
  | .clear => decNoArgs .clear
  | .backlight => decBacklight
  | .loadChars => decLoadChars
  | .posCursor => decPosCursor
  | .writeRaw => decWriteRaw
  | .pad => decPad
  | .display => decDisplay
  | .scrollFwd => decCount .scrollFwd
  | .scrollBwd => decCount .scrollBwd
  | .view => decNoArgs .view
  | .cancel => decNoArgs .cancel
  | .busWrite => decBusWrite
  | .wait => decWait
  | .nibble => decNibble
  | .winCreate => decWinCreate
  | .winView => decNoArgs .winView
  | .winFwd => decCount .winFwd
  | .winBwd => decCount .winBwd
  | .renderLine => decRenderLine
  | .rotStep => decNoArgs .rotStep

/-- "a decoder reads the tag and then that list" (30_encoding R118). -/
def decodeRequest (r : Request) : Except Reject Instr :=
  match opOfTag r.tag with
  | none => .error .unknownTag
  | some o =>
    match decodeOp o r.args with
    | none => .error .malformedOperands
    | some i => .ok i

/-! ### L2, L3, L0 -/

/-- The mode a byte's RS bit gives, bit 0 as spec/opcode_table.json places it. -/
def rsOfByte (b : Byte) : RegSel := if b.getLsbD 0 then .data else .instruction

/-- bits[7:4] of a byte. -/
def hiNibble (b : Byte) : Nibble := b.extractLsb' 4 4

/-- bits[3:0] of a byte. -/
def loNibble (b : Byte) : Nibble := b.extractLsb' 0 4

/-- A nibble in bits[7:4], bits[3:0] zero (30_encoding R104: "moved to bits[7:4]"). -/
def nibbleByte (d : Nibble) : Byte := d.setWidth 8 <<< 4

/-- The i-th byte of a frame word, byte 0 the first sent. -/
def frameByte (w : BitVec 32) (i : Nat) : Byte := w.extractLsb' (24 - 8 * i) 8

/-- 30_encoding R104: `hi|m|0x0C, hi|m|0x08, lo|m|0x0C, lo|m|0x08`. -/
def decodeFrame (w : BitVec 32) : Except Reject Instr :=
  let a1 := frameByte w 0
  let b1 := frameByte w 1
  let a2 := frameByte w 2
  let b2 := frameByte w 3
  if a1 &&& 0x0E#8 = 0x0C#8 ∧ b1 = a1 &&& 0xFB#8 ∧ a2 &&& 0x0E#8 = 0x0C#8 ∧ b2 = a2 &&& 0xFB#8
      ∧ rsOfByte a1 = rsOfByte a2 then
    .ok (.commandFrame (hiNibble b1) (hiNibble b2) (rsOfByte b1))
  else .error .notAFrame

/-- 30_encoding R107 to R111. `SET_4BIT` and `RETURN_HOME` are the same byte (R107): this decoder answers
`returnHome` (log 20). -/
def decodeLcd (m : RegSel) (b : Byte) : Except Reject Instr :=
  match m with
  | .data => .ok (.data b)
  | .instruction =>
    if b.getLsbD 7 then .ok (.setDdram (b.setWidth 7))
    else if b.getLsbD 6 then .ok (.setCgram (b.setWidth 6))
    else if b = 0x28#8 then .ok (.functionSet true)
    else if b = 0x20#8 then .ok (.functionSet false)
    else if b = 0x0C#8 then .ok .displayOn
    else if b = 0x06#8 then .ok .entryModeLeft
    else if b = 0x03#8 then .ok .wake
    else if b = 0x02#8 then .ok .returnHome
    else if b = 0x01#8 then .ok .clearDisplay
    else .error .notEmitted

/-- 30_encoding R101, R103, R106, with the default flag positions. `NIBBLE_PREWRITE`, and `BACKLIGHT_ON`, are bytes
of the form of `NIBBLE_EN_CLEAR`: this decoder answers the latter (log 20). -/
def decodeBus (b : Byte) : Except Reject Instr :=
  if b.getLsbD 1 then .error .rwSet
  else if b = 0x00#8 then .ok .backlightOff
  else if b.getLsbD 3 then
    (if b.getLsbD 2 then .ok (.nibbleEnSet (hiNibble b) (rsOfByte b)) else .ok (.nibbleEnClear (hiNibble b) (rsOfByte b)))
  else .ok (.busByte (hiNibble b) false (b.getLsbD 2) false (b.getLsbD 0))

/-- The decoder of every layer, total, rejecting by name. -/
def decode : Code → Except Reject Instr
  | .request r => decodeRequest r
  | .frame w => decodeFrame w
  | .lcd m b => decodeLcd m b
  | .bus b => decodeBus b

/-! ### Words of the opcode table -/

/-- The operand record of zeros (and empty strings) of a tag's full list. -/
def zeroArgs : Op → List Operand
  | .writeCmd => [.num 0, .num 0]
  | .init => [.num 0, .num 0, .num 0, .str [], .str [], .num 0]
  | .backlight | .scrollFwd | .scrollBwd | .busWrite | .wait | .winFwd | .winBwd => [.num 0]
  | .loadChars => [.strs []]
  | .posCursor | .nibble => [.num 0, .num 0]
  | .writeRaw => [.str [], .num 0, .num 0]
  | .pad => [.str [], .num 0, .str [], .num 0]
  | .display => [.str [], .num 0, .num 0, .num 0, .num 0]
  | .winCreate => [.str [0#8, 0#8], .num 1, .num 0, .str [], .str []]     -- the least record its precondition admits
  | .renderLine => [.str [], .num 0]
  | .clear | .view | .cancel | .winView | .rotStep => []

/-- A byte of no tag, read as an LCD command and, where the block emits no such command, as a bus byte (log 12). -/
def decodeLowByte (b : Byte) : Option Instr :=
  match decode (.lcd .instruction b) with
  | .ok i => some i
  | .error _ => (decode (.bus b)).toOption

/-- The code a word of the opcode table stands for, or none (log 12): a tag first, since a byte given to the block
from outside is a tag (30_encoding R113). -/
def codeOfTableWord (nbits w : Nat) : Option Code :=
  if nbits = 32 then (if w < 2 ^ 32 then some (.frame (BitVec.ofNat 32 w)) else none)
  else if nbits = 8 ∧ w < 256 then
    (opOfTag (BitVec.ofNat 8 w)).map fun o => .request { tag := BitVec.ofNat 8 w, args := zeroArgs o }
  else none

/-- The instruction the decoder reads from a word of spec/opcode_table.json. -/
def decodeTableWord (nbits w : Nat) : Option Instr :=
  match codeOfTableWord nbits w with
  | some c => (decode c).toOption
  | none => if nbits = 8 ∧ w < 256 then decodeLowByte (BitVec.ofNat 8 w) else none

/-! ### The encoder -/

def bitNum (b : Bool) : Nat := if b then 1 else 0

def RegSel.num : RegSel → Nat
  | .instruction => 0
  | .data => 1

def Align.num : Align → Nat
  | .left => 0
  | .center => 1
  | .right => 2
  | .leftDefault => 3

def Overflow.num : Overflow → Nat
  | .scroll => 0
  | .rotate => 1
  | .unknown v => v.toNat

/-- A bus byte of the layout of 30_encoding R101 with the default flag positions. -/
def tableByte (d : Nibble) (bl en rw rs : Bool) : Byte :=
  d ++ (BitVec.ofBool bl ++ BitVec.ofBool en ++ BitVec.ofBool rw ++ BitVec.ofBool rs)

def RegSel.isData : RegSel → Bool
  | .instruction => false
  | .data => true

/-- The frame word of 30_encoding R104, first byte in bits 31:24. -/
def frameWord (h l : Nibble) (m : RegSel) : BitVec 32 :=
  tableByte h true true false m.isData ++ tableByte h true false false m.isData
    ++ tableByte l true true false m.isData ++ tableByte l true false false m.isData

/-- The code of an instruction, from the tables of 30_encoding R101 to R113. -/
def encode : Instr → Code
  | .writeCmd b m => .request { tag := 0x01#8, args := [.num b.toNat, .num m.num] }
  | .init l n a b e i => .request { tag := 0x02#8, args := [.num l, .num n, .num a, .str b, .str e, .num i] }
  | .clear => .request { tag := 0x03#8, args := [] }
  | .backlight on => .request { tag := 0x04#8, args := [.num (bitNum on)] }
  | .loadChars gs => .request { tag := 0x05#8, args := [.strs gs] }
  | .posCursor line col => .request { tag := 0x06#8, args := [.num line, .num col] }
  | .writeRaw s line pos => .request { tag := 0x07#8, args := [.str s, .num line, .num pos] }
  | .pad s n c a => .request { tag := 0x08#8, args := [.str s, .num n, .str c, .num a.num] }
  | .display s line a ov budget =>
      .request { tag := 0x09#8, args := [.str s, .num line, .num a.num, .num ov.num, .num budget] }
  | .scrollFwd n => .request { tag := 0x0A#8, args := [.num n] }
  | .scrollBwd n => .request { tag := 0x0B#8, args := [.num n] }
  | .view => .request { tag := 0x0C#8, args := [] }
  | .cancel => .request { tag := 0x0D#8, args := [] }
  | .busWrite v => .request { tag := 0x81#8, args := [.num v.toNat] }
  | .wait t => .request { tag := 0x82#8, args := [.num t] }
  | .nibble x m => .request { tag := 0x83#8, args := [.num x.toNat, .num m.num] }
  | .winCreate buf n line b e => .request { tag := 0x84#8, args := [.str buf, .num n, .num line, .str b, .str e] }
  | .winView => .request { tag := 0x85#8, args := [] }
  | .winFwd n => .request { tag := 0x86#8, args := [.num n] }
  | .winBwd n => .request { tag := 0x87#8, args := [.num n] }
  | .renderLine s line => .request { tag := 0x88#8, args := [.str s, .num line] }
  | .rotStep => .request { tag := 0x89#8, args := [] }
  | .busByte d bl en rw rs => .bus (tableByte d bl en rw rs)
  | .nibbleEnSet d m => .bus (tableByte d true true false m.isData)
  | .nibbleEnClear d m => .bus (tableByte d true false false m.isData)
  | .nibblePrewrite d m => .bus (tableByte d true false false m.isData)
  | .commandFrame h l m => .frame (frameWord h l m)
  | .backlightOn => .bus 0x08#8
  | .backlightOff => .bus 0x00#8
  | .wake => .lcd .instruction 0x03#8
  | .set4bit => .lcd .instruction 0x02#8
  | .functionSet n => .lcd .instruction (if n then 0x28#8 else 0x20#8)
  | .displayOn => .lcd .instruction 0x0C#8
  | .clearDisplay => .lcd .instruction 0x01#8
  | .entryModeLeft => .lcd .instruction 0x06#8
  | .returnHome => .lcd .instruction 0x02#8
  | .setCgram a => .lcd .instruction (0x40#8 ||| a.setWidth 8)
  | .setDdram a => .lcd .instruction (0x80#8 ||| a.setWidth 8)
  | .data d => .lcd .data d

/-- CANCEL's request (30_encoding R113, tag 0x0D, no operands). -/
def Request.cancel : Request := { tag := 0x0D#8, args := [] }

end Sys2Proof
end

