-- ==== Sys2Proof/Machine/State.lean ====
section
/-! DEFINITION. The state of the block (10_state R30 to R50), its inputs and outputs as plain data, the reasons a step
can stop, and the state right after reset. "No value" (10_state R49, R50) is `none`: it is the spec's own reset value of
those elements (log 3). -/

namespace Sys2Proof.Machine

/-- `MODE` (10_state R36). -/
inductive Mode where
  | uninit | idle | busy | rotating
  deriving DecidableEq, Repr

/-- `CFG`, written only by INIT (10_state R31 to R35). -/
structure Cfg where
  lines : Nat
  lineLength : Nat
  addr : BitVec 7
  beginM : Str
  endM : Str
  rotInterval : Nat
  deriving DecidableEq, Repr

/-- `WIN` while `WIN.valid = 1` (10_state R38). -/
structure Window where
  buf : Str
  /-- `WIN.ws`, offset of the first visible byte. -/
  ws : Nat
  /-- `WIN.wl`, number of bytes shown. -/
  wl : Nat
  line : Nat
  beginM : Str
  endM : Str
  lcdLen : Nat
  deriving DecidableEq, Repr

/-- `ROT` but for `ROT.cancel`, which always holds a value (10_state R42). -/
structure Rot where
  s : Str
  line : Nat
  iter : Nat
  elapsed : Nat
  /-- 0 = unbounded. -/
  budget : Nat
  deriving DecidableEq, Repr

/-- `TX.byte`, `TX.mode`, `TX.phase` of the frame in flight (10_state R43). -/
structure TxFrame where
  byte : Byte
  mode : RegSel
  /-- The index of the frame's next bus write (log 10). -/
  phase : Nat
  deriving DecidableEq, Repr

/-- The success statuses (60_exceptions R271). -/
inductive Status where
  | done | initialized | padded | cleared | static | scrolling | rotated | notDisplayed | viewed
  deriving DecidableEq, Repr

/-- The value of an `Ok` (60_exceptions R271). -/
inductive Value where
  | none
  | str (s : Str)
  | count (n : Nat)
  deriving DecidableEq, Repr

/-- The source's errors (60_exceptions R271). -/
inductive ErrCode where
  | transportError | invalidLineError | tooLongError | invalidPadCharError | boundaryError
  deriving DecidableEq, Repr

/-- The refusal reasons (60_exceptions R271, R278). -/
inductive Reason where
  | unknownOp | badConfig | glyphCount | glyphSize | ddramRange | noWindow | rotateWidth | notInit
  deriving DecidableEq, Repr

/-- The result of a host operation: "exactly one of" the three (00_scope R19). -/
inductive Result where
  | ok (st : Status) (v : Value)
  | err (e : ErrCode)
  | refused (r : Reason)
  deriving DecidableEq, Repr

/-- One event of the trace (00_scope R7, R18). The bus's answer stands beside the write it answers (40_transport R140,
R145: the latch observer is undefined after a `BusError`). -/
inductive Event where
  | busWrite (addr : BitVec 7) (v : Byte) (answer : BusAnswer)
  | wait (t : Nat)
  deriving DecidableEq, Repr

/-- A statement of a procedure still to run (00_scope R20; 44_render_policy R252 (e)). -/
inductive Stmt where
  /-- A call of an operation or micro-operation. -/
  | call (i : Instr)
  /-- `release transport lock` (40_transport R143, R144). -/
  | release
  /-- INIT's state change, of the configuration it was given, while another requester's frame is under way
  (41_display_controller R161, 20_memory R81; log 32). -/
  | configure (c : Cfg)
  /-- `WRITE_CMD(FUNCTION_SET, 0)` of INIT, its line-count bit read from CFG.lines as the frame starts (41_display_controller
  R163, 10_state R31). -/
  | functionSet
  /-- `Wait(CFG.rot_interval)` of ROT_STEP (44_render_policy R246). -/
  | rotWait
  /-- The counter updates at the end of ROT_STEP (44_render_policy R246). -/
  | rotCount
  deriving DecidableEq, Repr

/-- What stands at the end of a host operation's procedure. -/
inductive Ret where
  /-- `return (status, value)`. -/
  | done (st : Status) (v : Value)
  /-- The check of the rotate loop (44_render_policy R245). -/
  | rotate
  deriving DecidableEq, Repr

/-- `SEQ` while an operation is in progress (10_state R44; log 6). -/
structure Seq where
  /-- `SEQ.op`. -/
  op : Instr
  /-- `SEQ.pos`: events emitted so far by the operation. -/
  pos : Nat
  /-- The rest of the procedure, innermost call first. -/
  todo : List Stmt
  ret : Ret
  /-- The value the last called procedure returned (log 15). -/
  val : Value
  deriving DecidableEq, Repr

/-- A request at the port; it has not arrived before event `notBefore` of the trace (log 7). -/
structure Arrival where
  req : Request
  notBefore : Nat
  deriving DecidableEq, Repr

/-- Another requester's own registers and port (60_exceptions R288; log 9). -/
structure Requester where
  id : Nat
  mode : Mode
  seq : Option Seq
  status : Option Result
  port : List Arrival
  deriving DecidableEq, Repr

/-- The state of the block, and of its inputs and outputs. -/
structure State where
  /-- The parameters of 00_scope R10 (log 4). -/
  par : Params
  /-- `CFG`. -/
  cfg : Option Cfg
  /-- `MODE`. -/
  mode : Mode
  /-- `WIN`; `none` is `WIN.valid = 0`. -/
  win : Option Window
  /-- `ROT` but for `ROT.cancel`. -/
  rot : Option Rot
  /-- `ROT.cancel`. -/
  cancel : Bool
  /-- `TX.byte`, `TX.mode`, `TX.phase`. -/
  tx : Option TxFrame
  /-- `TX.owner`: the requester that holds the transport lock. -/
  lock : Option Nat
  /-- `SEQ`; `none` is `SEQ.op = none`. -/
  seq : Option Seq
  /-- `STATUS`. -/
  status : Option Result
  /-- OUTPUT: the event trace, oldest first (00_scope R7, R9). -/
  trace : List Event
  /-- OUTPUT: the results returned, oldest first, each with its requester (00_scope R9). -/
  results : List (Nat × Result)
  /-- INPUT: the requests at the port (60_exceptions R285). -/
  port : List Arrival
  /-- INPUT: the bus's coming answers (40_transport R140; log 2). -/
  bus : List BusAnswer
  /-- How many answers were drawn from `Config.busAnswer` (log 2). -/
  draws : Nat
  /-- The requester whose MODE, SEQ, STATUS and port stand in this record (60_exceptions R288; log 9). -/
  cur : Nat
  /-- The other requesters. -/
  parked : List Requester
  /-- INPUT: which requester moves at each coming step (20_memory R85; log 9). -/
  turns : List Nat
  deriving DecidableEq, Repr

/-- A state element that may hold no value (10_state R50). -/
inductive Elem where
  | cfg | win | rot
  deriving DecidableEq, Repr

/-- Why the machine stops with a fault. -/
inductive Fault where
  /-- Raised by every read of a state element that holds no value (10_state R49: "A model faults on a read of such an
  element"). Safe: no claim about such a read can be proved. -/
  | noValue (e : Elem)
  deriving DecidableEq, Repr

/-- Why the model gives no meaning. -/
inductive Refusal where
  /-- Raised by an arm of `exec` that has no meaning yet. Safe. -/
  | notModelled (mnemonic : String)
  /-- Raised by the fetch of a request whose record is not of its tag's typed operand list (30_encoding R114, R118:
  operands are typed values, so such a record is no request of the spec; log 11). Safe. -/
  | malformedOperands
  /-- Raised by WIN_CREATE outside its precondition (43_scroll_window R210; 93 U15: "A model may treat WIN_CREATE
  outside that precondition as `refuse`"; log 14). Safe. -/
  | winCreatePrecondition
  deriving DecidableEq, Repr

/-- The answer of a meaning. -/
abbrev Outc := Host.Outcome State Fault Refusal

/-- A requester that has issued nothing (10_state R50 for its own elements). -/
def Requester.fresh (id : Nat) : Requester := { id := id, mode := .uninit, seq := none, status := none, port := [] }

/-- Reset with given parameters (10_state R50, 70_reset R310): requester 0 in place, the others parked. -/
def State.resetWith (p : Params) : State :=
  { par := p, cfg := none, mode := .uninit, win := none, rot := none, cancel := false, tx := none, lock := none,
    seq := none, status := none, trace := [], results := [], port := [], bus := [], draws := 0, cur := 0,
    parked := (List.range (p.requesters - 1)).map (fun k => Requester.fresh (k + 1)), turns := [] }

/-- The machine right after reset, with the default parameters of 00_scope R10. -/
def State.reset : State := State.resetWith Params.default

end Sys2Proof.Machine
end

