-- ==== Sys2Proof/Machine/Flags.lean ====
section
/-! DEFINITION. Every flag the spec names: the four flags of a bus byte, composed and never stored (10_state R46,
30_encoding R101 to R106), and the derived flags of a window (10_state R41). -/

namespace Sys2Proof.Machine

/-- A flag bit, or nothing (30_encoding R121: `(EN ? BIT_EN : 0)`). -/
def flagIf (on : Bool) (bit : Byte) : Byte := if on then bit else 0#8

/-- `m` of a frame: 0 or `BIT_RS` (30_encoding R105). -/
def modeFlag (p : Params) (m : RegSel) : Byte := flagIf m.isData p.bitRs

/-- A bus byte of its fields (30_encoding R101, R121: `nibble | m | BIT_BL | (EN ? BIT_EN : 0)`). -/
def busByteOf (p : Params) (d : Nibble) (bl en rw rs : Bool) : Byte :=
  nibbleByte d ||| flagIf rs p.bitRs ||| flagIf rw p.bitRw ||| flagIf bl p.bitBl ||| flagIf en p.bitEn

/-- Byte A of a nibble frame: EN set (30_encoding R103). -/
def enSetByte (p : Params) (d : Nibble) (m : RegSel) : Byte := busByteOf p d true true false m.isData

/-- Byte B of a nibble frame: EN clear (30_encoding R103). -/
def enClearByte (p : Params) (d : Nibble) (m : RegSel) : Byte := busByteOf p d true false false m.isData

/-- Byte P, written before A when `NIBBLE_PREWRITE` is true (30_encoding R103). -/
def prewriteByte (p : Params) (d : Nibble) (m : RegSel) : Byte := busByteOf p d true false false m.isData

/-- The unframed BACKLIGHT byte: `BIT_BL` for on, 0x00 for off (30_encoding R106). -/
def backlightByte (p : Params) (on : Bool) : Byte := flagIf on p.bitBl

/-- EN of a bus byte. -/
def enOf (p : Params) (v : Byte) : Bool := v &&& p.bitEn != 0#8

/-- RS of a bus byte, as the mode it selects (30_encoding R104: `m = B1 & BIT_RS`). -/
def rsOf (p : Params) (v : Byte) : RegSel := if v &&& p.bitRs != 0#8 then .data else .instruction

/-- RW of a bus byte. -/
def rwOf (p : Params) (v : Byte) : Bool := v &&& p.bitRw != 0#8

/-- BL of a bus byte. -/
def blOf (p : Params) (v : Byte) : Bool := v &&& p.bitBl != 0#8

/-- "left marker shown iff `window_start > 0`" (10_state R41). -/
def Window.leftVisible (w : Window) : Bool := decide (0 < w.ws)

/-- "right marker shown iff the window's right edge is before the buffer end" (10_state R41). -/
def Window.rightVisible (w : Window) : Bool := decide (w.ws + w.wl < w.buf.length)

end Sys2Proof.Machine
end

