-- ==== Sys2Proof/Machine/Operands.lean ====
section
/-! DEFINITION. Every operand form and every computed value of the operations: LCD command bytes (30_encoding R107 to
R110, R121), DDRAM addressing (42_text_layout R196, R197), `pad` (R190 to R195), the string operators (00_scope R17),
the width and view of a window (43_scroll_window R211, R212), the rotate frame (44_render_policy R246), and the numeric
codes of results (60_exceptions R271). -/

namespace Sys2Proof.Machine

/-! ### LCD command bytes (30_encoding R107) -/

def wakeByte : Byte := 0x03#8
def set4bitByte : Byte := 0x02#8
def displayOnByte : Byte := 0x0C#8
def clearDisplayByte : Byte := 0x01#8
def entryModeLeftByte : Byte := 0x06#8
def returnHomeByte : Byte := 0x02#8

/-- `0x20 | (N << 3)` (30_encoding R108). -/
def functionSetByte (n : Bool) : Byte := 0x20#8 ||| (BitVec.ofNat 8 (bitNum n) <<< 3)

/-- `N = 1` if `CFG.lines ≥ 2` (30_encoding R108). -/
def lineCountBit (lines : Nat) : Bool := decide (2 ≤ lines)

/-- `0x40 | a` (30_encoding R110). -/
def setCgramByte (a : BitVec 6) : Byte := 0x40#8 ||| a.setWidth 8

/-- `0x80 | a` (30_encoding R109). -/
def setDdramByte (a : BitVec 7) : Byte := 0x80#8 ||| a.setWidth 8

/-! ### Nibbles (30_encoding R104) -/

/-- The nibbles of a byte, high first (20_memory R76), each in its place in the frame (30_encoding R104). -/
def highOf (b : Byte) : Nibble := hiNibble (b &&& 0xF0#8)

def lowOf (b : Byte) : Nibble := hiNibble ((b <<< 4) &&& 0xF0#8)

/-- How many bus writes a frame has: 4, or 6 with `NIBBLE_PREWRITE` (30_encoding R104). -/
def frameWrites (p : Params) : Nat := if p.prewrite then 6 else 4

/-! ### DDRAM addressing -/

/-- `LINE_BASE` (42_text_layout R196); no entry for another line. -/
def lineBase : Nat → Option Nat
  | 1 => some 0x00
  | 2 => some 0x40
  | 3 => some 0x14
  | 4 => some 0x54
  | _ => none

/-- `DDRAM_ADDR(line, col) = LINE_BASE(line) + col`, "with no wrap" (42_text_layout R197). -/
def ddramAddr (line col : Nat) : Option Nat := (lineBase line).map (· + col)

/-- The three ends of an operation's checks. -/
inductive Check (α : Type) where
  | pass (a : α)
  | raise (e : ErrCode)
  | refuse (r : Reason)
  deriving DecidableEq, Repr

/-- POS_CURSOR's checks, in their order (41_display_controller R168). -/
def cursorCheck (lines line col : Nat) : Check (BitVec 7) :=
  if line < 1 ∨ lines < line then .raise .invalidLineError
  else
    match ddramAddr line col with
    | none => .raise .invalidLineError       -- "or the implied address table index is out of range"
    | some a => if 0x7F < a then .refuse .ddramRange else .pass (BitVec.ofNat 7 a)

/-! ### Strings (00_scope R17) -/

/-- `s[i:j]`, clamped. -/
def slice (s : Str) (i j : Nat) : Str := (s.take j).drop i

/-- `c * k` for a one-byte string, `k` copies of any string. -/
def rep (c : Str) (k : Nat) : Str := (List.replicate k c).flatten

/-- `rotl1(s) = s[1:len s] ++ s[0:1]`. -/
def rotl1 (s : Str) : Str := slice s 1 s.length ++ slice s 0 1

/-! ### pad (42_text_layout R190 to R195) -/

/-- Center alignment, `p ≥ 1` pad units (42_text_layout R195): "the appended byte is a space even when `pad_char` is
not a space". -/
def padCenter (s : Str) (p : Nat) (c : Str) : Str :=
  let h := p / 2
  if p % 2 = 1 then rep c h ++ (s ++ [space]) ++ rep c h else rep c h ++ s ++ rep c h

/-- The arms of `pad` past its checks (42_text_layout R192 to R195). -/
def padArms (s : Str) (fullLen : Nat) (c : Str) (a : Align) : Str :=
  if s.length = fullLen then s
  else
    let p := fullLen - s.length
    match a with
    | .right => rep c p ++ s
    | .center => padCenter s p c
    | .left | .leftDefault => s ++ rep c p

/-- `pad`, its checks in the order of 42_text_layout R191. -/
def padStr (s : Str) (fullLen : Nat) (c : Str) (a : Align) : Except ErrCode Str :=
  if fullLen < s.length then .error .tooLongError
  else if c.length ≠ 1 then .error .invalidPadCharError
  else .ok (padArms s fullLen c a)

/-- What a line of `n` bytes can show of a string (44_render_policy R248): all of a string that fits; of a longer one at
most the line's width, unstated otherwise (log 30). -/
def shownPart (s : Str) (n : Nat) : Str := if s.length ≤ n then s else (Config.shownOfLong s n).take n

/-! ### Scroll window (43_scroll_window) -/

/-- The window WIN_CREATE makes (43_scroll_window R210). -/
def newWindow (buf : Str) (lcdLen line : Nat) (beginM endM : Str) : Window :=
  { buf := buf, ws := 0, wl := lcdLen - endM.length, line := line, beginM := beginM, endM := endM, lcdLen := lcdLen }

/-- `bw`: the width the begin marker takes (43_scroll_window R211). -/
def Window.beginWidth (w : Window) : Nat := if 0 < w.ws then w.beginM.length else 0

/-- `recompute` (43_scroll_window R211): "recomputed from `lcd_len` fresh each time". -/
def Window.recompute (w : Window) : Window :=
  let bw := w.beginWidth
  if w.ws + (w.lcdLen - bw) < w.buf.length then { w with wl := w.lcdLen - bw - w.endM.length }
  else { w with wl := w.lcdLen - bw }

/-- `view` (43_scroll_window R212). -/
def Window.view (w : Window) : Str :=
  (if w.leftVisible then w.beginM else []) ++ slice w.buf w.ws (w.ws + w.wl)
    ++ (if w.rightVisible then w.endM else [])

/-- WIN_FWD (43_scroll_window R213); `none` is `BoundaryError`. -/
def Window.fwd (w : Window) (n : Nat) : Option Window :=
  if w.buf.length < w.ws + w.wl + n then none else some ({ w with ws := w.ws + n } : Window).recompute

/-- WIN_BWD (43_scroll_window R214); `none` is `BoundaryError`. -/
def Window.bwd (w : Window) (n : Nat) : Option Window :=
  if w.ws < n then none else some ({ w with ws := w.ws - n } : Window).recompute

/-- The states of 43_scroll_window R219. -/
inductive WinPhase where
  | start | middle | finish | overshoot
  deriving DecidableEq, Repr

/-- 43_scroll_window R219. -/
def Window.phase (w : Window) : WinPhase :=
  if w.ws = 0 then .start
  else if w.rightVisible then .middle
  else if w.ws + w.wl = w.buf.length then .finish
  else .overshoot

/-! ### Rotate frame (44_render_policy R245, R246) -/

/-- `N - 2` of the rotate frame. The rule subtracts only where `N ≥ 2` was checked (00_scope R16, 44_render_policy R245);
below it, which takes another requester's INIT during the loop, the spec states no value: a free one (log 29). -/
def rotTextWidth (n : Nat) : Nat := if 2 ≤ n then n - 2 else Config.rotTextWidthBelowTwo n

/-- `"<" ++ ROT.s[0 : N - 2] ++ ">"`: the literal markers (90_conflicts C12). -/
def rotFrame (s : Str) (n : Nat) : Str := [ltByte] ++ slice s 0 (rotTextWidth n) ++ [gtByte]

/-- "append two spaces to `s` as an end-of-cycle spacer" (44_render_policy R245). -/
def rotString (s : Str) : Str := s ++ [space, space]

/-! ### INIT's checks (41_display_controller R160) -/

/-- `BAD_CONFIG` when false. -/
def goodConfig (lines lineLength addr : Nat) (beginM endM : Str) : Bool :=
  (lines == 1 || lines == 2 || lines == 4) && decide (1 ≤ lineLength) && decide (addr ≤ 0x7F)
    && decide (beginM.length + endM.length + 1 ≤ lineLength)

/-! ### Numeric codes (60_exceptions R271) -/

def Status.code : Status → Nat
  | .done => 0
  | .initialized => 1
  | .padded => 2
  | .cleared => 3
  | .static => 4
  | .scrolling => 5
  | .rotated => 6
  | .notDisplayed => 7
  | .viewed => 8

def ErrCode.code : ErrCode → Nat
  | .transportError => 1
  | .invalidLineError => 2
  | .tooLongError => 3
  | .invalidPadCharError => 4
  | .boundaryError => 5

def Reason.code : Reason → Nat
  | .unknownOp => 1
  | .badConfig => 2
  | .glyphCount => 3
  | .glyphSize => 4
  | .ddramRange => 5
  | .noWindow => 6
  | .rotateWidth => 7
  | .notInit => 8

end Sys2Proof.Machine
end

