-- ==== Sys2Proof/Machine/Ops.lean ====
section
/-! DEFINITION. The named operations over the state that the meanings share: emitting an event and drawing the bus's
answer, the sequencer's statement list, the transport lock, the start of a host operation, and its three ends (`finish`,
`raise`, `refuse`: 60_exceptions R270, R278, R280, R291). `State.raise` is the block's one way of taking an error, and
there is no return from it (60_exceptions R282). -/

namespace Sys2Proof.Machine

/-! ### The sequencer (10_state R44) -/

/-- `SEQ` with its statement list replaced. -/
def State.setTodo (l : List Stmt) (s : State) : State :=
  { s with seq := s.seq.map (fun q => { q with todo := l }) }

/-- Calls `l` next: its statements run before the caller's next statement (00_scope R20). -/
def State.push (l : List Stmt) (s : State) : State :=
  { s with seq := s.seq.map (fun q => { q with todo := l ++ q.todo }) }

/-- The value a called procedure returns to its caller (log 15). -/
def State.giveVal (v : Value) (s : State) : State :=
  { s with seq := s.seq.map (fun q => { q with val := v }) }

/-- One event: appended to the trace, and `SEQ.pos` "advances by exactly one at each emitted event" (10_state R44,
20_memory R84). -/
def State.emit (e : Event) (s : State) : State :=
  { s with trace := s.trace ++ [e], seq := s.seq.map (fun q => { q with pos := q.pos + 1 }) }

/-! ### The bus (40_transport R140) -/

/-- The bus's answer to a write: the next of the coming answers, else a free draw (log 2). -/
def State.answer (s : State) : BusAnswer :=
  match s.bus with
  | a :: _ => a
  | [] => Config.busAnswer s.draws

/-- The answer is used up. -/
def State.drawn (s : State) : State :=
  match s.bus with
  | _ :: rest => { s with bus := rest }
  | [] => { s with draws := s.draws + 1 }

/-- `TX.phase` moves to the frame's next bus write; at the last one it stays (10_state R43; log 10). -/
def State.nextPhase (s : State) : State :=
  { s with tx := s.tx.map (fun t =>
      if t.phase + 1 < frameWrites s.par then { t with phase := t.phase + 1 } else t) }

/-! ### The transport lock (40_transport R144) -/

/-- `release transport lock`, by its holder; `TX` holds "no value between frames" (10_state R43). -/
def State.releaseLock (s : State) : State :=
  if s.lock = some s.cur then { s with lock := none, tx := none } else s

/-! ### Results (10_state R45, 60_exceptions R270) -/

/-- The result "is written to `STATUS` … and returned to the host" (60_exceptions R270). -/
def State.report (r : Result) (s : State) : State :=
  { s with status := some r, results := s.results ++ [(s.cur, r)] }

/-- Another requester rotates. `ROT` is shared (60_exceptions R288) and "holds the rotate loop's state while `MODE =
ROTATING`" (10_state R42), so it keeps its values until the last rotate ends (log 25). -/
def State.othersRotate (s : State) : Bool := s.parked.any (fun r => decide (r.mode = .rotating))

/-- What every end of an operation does besides its result (60_exceptions R280 (b), (d), R291): lock released, SEQ and
TX cleared, MODE set, and, at the end of a rotate, ROT.cancel cleared and ROT too if no other requester rotates (10_state R42;
log 25). -/
def State.closeOp (m : Mode) (s : State) : State :=
  { s.releaseLock with
    seq := none
    mode := m
    rot := if s.mode = .rotating ∧ s.othersRotate = false then none else s.rot
    cancel := if s.mode = .rotating then false else s.cancel }

/-- The operation is INIT. -/
def isInitOp : Instr → Bool
  | .init _ _ _ _ _ _ => true
  | _ => false

/-- An INIT is in progress. -/
def State.inInit (s : State) : Bool :=
  match s.seq with
  | some q => isInitOp q.op
  | none => false

/-- How an ended INIT moves another requester's MODE between UNINIT and IDLE (60_exceptions R288; log 9). -/
def Requester.afterInit (ok : Bool) (r : Requester) : Requester :=
  if ok then (if r.mode = .uninit then { r with mode := .idle } else r)
  else (if r.mode = .idle then { r with mode := .uninit } else r)

/-- The other requesters learn that an INIT ended. -/
def State.tellOthers (ok : Bool) (s : State) : State :=
  if s.inInit then { s with parked := s.parked.map (Requester.afterInit ok) } else s

/-- `return (status, value)`: the operation ends with `Ok` (10_state R37: `BUSY` → `IDLE`). -/
def State.finish (st : Status) (v : Value) (s : State) : State :=
  ((s.tellOthers true).closeOp .idle).report (.ok st v)

/-- `raise E`: THE EXCEPTION. The operation ends at once with `Err(code)`; events emitted and state written stay, MODE
goes to IDLE "except after a failed INIT, where it goes to `UNINIT`" (60_exceptions R280). No address, cause or saved
state is kept (R270, R280). -/
def State.raise (e : ErrCode) (s : State) : State :=
  ((s.tellOthers false).closeOp (if s.inInit then .uninit else .idle)).report (.err e)

/-- `refuse Q`: the request ends with `Refused(reason)`; "it leaves the block exactly as it was, `STATUS` aside"
(60_exceptions R278; log 1). That of such a request nothing can be claimed (R278's last sentence) is `State.mayStep`. A refusal
met inside an operation already started closes it (10_state R37). -/
def State.refuse (r : Reason) (s : State) : State :=
  match s.seq with
  | none => s.report (.refused r)
  | some _ => (s.closeOp .idle).report (.refused r)

/-! ### Starting a host operation -/

/-- `IDLE` → `BUSY` (10_state R37); `SEQ.op` is set and no event is emitted yet (10_state R44). -/
def State.startOp (op : Instr) (ret : Ret) (s : State) : State :=
  { s with mode := .busy, seq := some { op := op, pos := 0, todo := [], ret := ret, val := .none } }

/-- The second check of every request but INIT and CANCEL (60_exceptions R279, 70_reset R311): `NOT_INIT`. -/
def whenInit (s : State) (k : Outc) : Outc :=
  if s.mode = .uninit then .next (s.refuse .notInit) else k

/-- A read of `CFG`: "A model faults on a read of such an element" (10_state R49, R50; 92 D34; 93 U13). -/
def withCfg (s : State) (k : Cfg → Outc) : Outc :=
  match s.cfg with
  | none => .fault (.noValue .cfg)
  | some c => k c

/-- A read of `WIN` by a micro-operation; the fault is that of 10_state R49, R50, 92 D34, 93 U13. -/
def withWin (s : State) (k : Window → Outc) : Outc :=
  match s.win with
  | none => .fault (.noValue .win)
  | some w => k w

/-- A read of `ROT`; the fault is that of 10_state R49, R50, 92 D34, 93 U13. -/
def withRot (s : State) (k : Rot → Outc) : Outc :=
  match s.rot with
  | none => .fault (.noValue .rot)
  | some r => k r

/-- A micro-operation, or a form of the lower layers, runs inside a host operation; as a request of the host it is
`Refused(UNKNOWN_OP)` (30_encoding R113, R117; log 23). -/
def inOp (s : State) (k : Outc) : Outc :=
  match s.seq with
  | none => .next (s.refuse .unknownOp)
  | some _ => k

/-- A host operation that no rule calls from inside another one: while an operation executes the request is held
(60_exceptions R285; log 8). -/
def heldWhenBusy (i : Instr) (s : State) (k : Outc) : Outc :=
  match s.seq with
  | none => k
  | some _ =>
    match encode i with
    | .request r => .next { s with port := { req := r, notBefore := 0 } :: s.port }
    | _ => .next s

/-! ### The transport's shared procedures -/

/-- BUS_WRITE's body (40_transport R140): the write to `CFG.addr`, its answer, then `Wait(T_SETTLE)`, or
`TransportError` with "no settle delay, no retry". -/
def busWriteOp (v : Byte) (s : State) : Outc :=
  withCfg s fun c =>
    let s1 := s.drawn.emit (.busWrite c.addr v s.answer)
    .next (match s.answer with
      | .ok => s1.nextPhase.push [.call (.wait Config.tSettle)]
      | .busError => s1.raise .transportError)

/-- The start of a command frame (40_transport R143, R144): take the lock and load TX, or, finding the lock held, make
no step. -/
def enterFrame (b : Byte) (m : RegSel) (s : State) : State :=
  match s.lock with
  | some _ => s.push [.call (.writeCmd b m)]
  | none =>
    ({ s with lock := some s.cur, tx := some { byte := b, mode := m, phase := 0 } } : State).push
      [.call (.commandFrame (highOf b) (lowOf b) m), .release]

/-- The start of the one BACKLIGHT write, under the lock (41_display_controller R166, 40_transport R144). -/
def enterBacklight (on : Bool) (s : State) : State :=
  match s.lock with
  | some _ => s.push [.call (.backlight on)]
  | none => ({ s with lock := some s.cur } : State).push [.call (if on then .backlightOn else .backlightOff), .release]

/-- The body of WRITE_RAW (41_display_controller R169): POS_CURSOR, then every byte as a data command. POS_CURSOR's
checks come first, before any event (60_exceptions R273, R278). -/
def writeRawBody (str : Str) (line pos : Nat) (s : State) : Outc :=
  withCfg s fun c =>
    match cursorCheck c.lines line pos with
    | .raise e => .next (s.raise e)
    | .refuse r => .next (s.refuse r)
    | .pass _ => .next (s.push (.call (.posCursor line pos) :: str.map (fun b => .call (.data b))))

/-- The body of RENDER_LINE (44_render_policy R248): its `pad` "cannot raise" (60_exceptions R274), so it is `pad` past its
checks. Every caller passes a string that fits; another one, which only another requester's INIT during a rotate frame brings
about, is shown as a free value (log 30). -/
def renderBody (str : Str) (line : Nat) (s : State) : Outc :=
  withCfg s fun c => writeRawBody (padArms (shownPart str c.lineLength) c.lineLength [space] .left) line 0 s

/-- The end of a scroll move (44_render_policy R249, R250): store the moved window, render its view, return it. -/
def renderMoved (op : Instr) (w : Window) (s : State) : Outc :=
  renderBody w.view w.line (({ s with win := some w } : State).startOp op (.done .scrolling (.str w.view)))

end Sys2Proof.Machine
end

