-- ==== Sys2Proof/Machine/Forms.lean ====
section
/-! DEFINITION. The meanings of the rows of layers L0 to L3 (30_encoding R101 to R111): a bus byte is one bus write of
it, COMMAND_FRAME is the two nibble frames, an LCD command or data byte is one command frame of it. -/

namespace Sys2Proof.Machine

/-- BUS_BYTE (30_encoding R101). -/
def execBusByte (d : Nibble) (bl en rw rs : Bool) (s : State) : Outc :=
  inOp s (busWriteOp (busByteOf s.par d bl en rw rs) s)

/-- NIBBLE_EN_SET, "write nibble-with-enable-bit-set" (30_encoding R103). -/
def execNibbleEnSet (d : Nibble) (m : RegSel) (s : State) : Outc := inOp s (busWriteOp (enSetByte s.par d m) s)

/-- NIBBLE_EN_CLEAR, "write nibble-with-enable-bit-cleared" (30_encoding R103). -/
def execNibbleEnClear (d : Nibble) (m : RegSel) (s : State) : Outc := inOp s (busWriteOp (enClearByte s.par d m) s)

/-- NIBBLE_PREWRITE (30_encoding R103). -/
def execNibblePrewrite (d : Nibble) (m : RegSel) (s : State) : Outc := inOp s (busWriteOp (prewriteByte s.par d m) s)

/-- COMMAND_FRAME: "the nibble frame of `hi` followed by the nibble frame of `lo`" (30_encoding R104). The lock is its
caller's, WRITE_CMD's (40_transport R143, R144); a row placed to run by itself takes none (log 26). -/
def execCommandFrame (h l : Nibble) (m : RegSel) (s : State) : Outc :=
  inOp s (.next (s.push [.call (.nibble (nibbleByte h) m), .call (.nibble (nibbleByte l) m)]))

/-- BACKLIGHT_ON (30_encoding R106). The lock is its caller's, BACKLIGHT's (40_transport R144; log 26). -/
def execBacklightOn (s : State) : Outc := inOp s (busWriteOp (backlightByte s.par true) s)

/-- BACKLIGHT_OFF (30_encoding R106). The lock is its caller's, BACKLIGHT's (40_transport R144; log 26). -/
def execBacklightOff (s : State) : Outc := inOp s (busWriteOp (backlightByte s.par false) s)

/-- WAKE (30_encoding R107, 41_display_controller R162). -/
def execWake (s : State) : Outc := inOp s (.next (enterFrame wakeByte .instruction s))

/-- SET_4BIT (30_encoding R107, 41_display_controller R162). -/
def execSet4bit (s : State) : Outc := inOp s (.next (enterFrame set4bitByte .instruction s))

/-- FUNCTION_SET (30_encoding R108). -/
def execFunctionSet (n : Bool) (s : State) : Outc := inOp s (.next (enterFrame (functionSetByte n) .instruction s))

/-- DISPLAY_ON (30_encoding R107). -/
def execDisplayOn (s : State) : Outc := inOp s (.next (enterFrame displayOnByte .instruction s))

/-- CLEAR_DISPLAY (30_encoding R107). -/
def execClearDisplay (s : State) : Outc := inOp s (.next (enterFrame clearDisplayByte .instruction s))

/-- ENTRY_MODE_LEFT (30_encoding R107). -/
def execEntryModeLeft (s : State) : Outc := inOp s (.next (enterFrame entryModeLeftByte .instruction s))

/-- RETURN_HOME (30_encoding R107). -/
def execReturnHome (s : State) : Outc := inOp s (.next (enterFrame returnHomeByte .instruction s))

/-- SET_CGRAM (30_encoding R110). -/
def execSetCgram (a : BitVec 6) (s : State) : Outc := inOp s (.next (enterFrame (setCgramByte a) .instruction s))

/-- SET_DDRAM (30_encoding R109). -/
def execSetDdram (a : BitVec 7) (s : State) : Outc := inOp s (.next (enterFrame (setDdramByte a) .instruction s))

/-- DATA: "any byte 0x00..0xFF in data mode", unchanged (30_encoding R111). -/
def execData (d : Byte) (s : State) : Outc := inOp s (.next (enterFrame d .data s))

end Sys2Proof.Machine
end

