-- ==== Sys2Proof/Machine/Display.lean ====
section
/-! DEFINITION. The meanings of DisplayController (41_display_controller R160 to R169): INIT, CLEAR, BACKLIGHT,
LOAD_CHARS, POS_CURSOR, WRITE_RAW. -/

namespace Sys2Proof.Machine

/-- The function-set frame of INIT: its line-count bit is read from CFG.lines as the frame starts (41_display_controller
R163, 30_encoding R108, 10_state R31). A requester that finds the lock held makes no step (40_transport R144), so the byte is
of the CFG it finds once the lock is free (log 29). -/
def functionSetOp (s : State) : Outc :=
  match s.lock with
  | some _ => .next (s.push [.functionSet])
  | none => withCfg s fun c => execFunctionSet (lineCountBit c.lines) s

/-- INIT's procedure after its state change: wake-up (41_display_controller R162), configuration in the source's order
(R163), the settle delay (R164). -/
def initCalls : List Stmt :=
  [.call .wake, .call .wake, .call .wake, .call .set4bit, .functionSet, .call .displayOn, .call .clearDisplay,
   .call .entryModeLeft, .call (.wait Config.tInit)]

/-- INIT's state change (41_display_controller R161) and its calls. It rewrites CFG.addr, and every bus write goes to
CFG.addr (20_memory R71), so it holds while another requester's frame is under way: a frame is atomic (20_memory R81; log
32). -/
def configureOp (c : Cfg) (s : State) : State :=
  match s.lock with
  | some _ => s.push [.configure c]
  | none => ({ s with cfg := some c, win := none, cancel := false } : State).push initCalls

/-- INIT (41_display_controller R160 to R164). -/
def execInit (lines lineLength addr : Nat) (beginM endM : Str) (interval : Nat) (s : State) : Outc :=
  heldWhenBusy (.init lines lineLength addr beginM endM interval) s
    (if goodConfig lines lineLength addr beginM endM then
      .next (configureOp { lines := lines, lineLength := lineLength, addr := BitVec.ofNat 7 addr, beginM := beginM,
                           endM := endM, rotInterval := interval }
        (s.startOp (.init lines lineLength addr beginM endM interval) (.done .initialized .none)))
    else .next (s.refuse .badConfig))

/-- CLEAR (41_display_controller R165): clear-display, then return-home. -/
def execClear (s : State) : Outc :=
  heldWhenBusy .clear s
    (whenInit s (.next ((s.startOp .clear (.done .done .none)).push [.call .clearDisplay, .call .returnHome])))

/-- BACKLIGHT (41_display_controller R166): one unframed write under the lock. -/
def execBacklight (on : Bool) (s : State) : Outc :=
  match s.seq with
  | some _ => .next (enterBacklight on s)
  | none => whenInit s (.next (enterBacklight on (s.startOp (.backlight on) (.done .done .none))))

/-- LOAD_CHARS (41_display_controller R167): the count is checked before the sizes (60_exceptions R279). -/
def execLoadChars (glyphs : List Str) (s : State) : Outc :=
  heldWhenBusy (.loadChars glyphs) s
    (whenInit s
      (if 8 < glyphs.length then .next (s.refuse .glyphCount)
       else if glyphs.any (fun g => g.length != 8) then .next (s.refuse .glyphSize)
       else .next ((s.startOp (.loadChars glyphs) (.done .done .none)).push
              (.call (.setCgram 0#6) :: glyphs.flatten.map (fun b => .call (.data b))))))

/-- POS_CURSOR (41_display_controller R168): as a host operation, and as called by WRITE_RAW. -/
def execPosCursor (line col : Nat) (s : State) : Outc :=
  match s.seq with
  | some _ =>
    withCfg s fun c =>
      match cursorCheck c.lines line col with
      | .raise e => .next (s.raise e)
      | .refuse r => .next (s.refuse r)
      | .pass a => .next (s.push [.call (.setDdram a)])
  | none =>
    whenInit s (withCfg s fun c =>
      match cursorCheck c.lines line col with
      | .raise e => .next ((s.startOp (.posCursor line col) (.done .done .none)).raise e)
      | .refuse r => .next (s.refuse r)
      | .pass a => .next ((s.startOp (.posCursor line col) (.done .done .none)).push [.call (.setDdram a)]))

/-- WRITE_RAW (41_display_controller R169): as a host operation, and as called by the render policy. -/
def execWriteRaw (str : Str) (line pos : Nat) (s : State) : Outc :=
  match s.seq with
  | some _ => writeRawBody str line pos s
  | none => whenInit s (writeRawBody str line pos (s.startOp (.writeRaw str line pos) (.done .done .none)))

end Sys2Proof.Machine
end

