-- ==== Sys2Proof/Machine/Layout.lean ====
section
/-! DEFINITION. The meaning of TextLayout's host operation PAD (42_text_layout R190 to R195). -/

namespace Sys2Proof.Machine

/-- PAD (42_text_layout R190): "State written: none; no bus event"; refused before INIT like every other operation
(70_reset R311). -/
def execPad (str : Str) (fullLen : Nat) (padChar : Str) (align : Align) (s : State) : Outc :=
  heldWhenBusy (.pad str fullLen padChar align) s
    (whenInit s
      (match padStr str fullLen padChar align with
       | .error e => .next (s.report (.err e))
       | .ok t => .next (s.report (.ok .padded (.str t)))))

end Sys2Proof.Machine
end

