-- ==== Sys2Proof/Machine/Render.lean ====
section
/-! DEFINITION. The meanings of RenderPolicy (44_render_policy R240 to R253): DISPLAY and its paths, SCROLL_FWD,
SCROLL_BWD, VIEW, CANCEL, and the micro-operations RENDER_LINE and ROT_STEP, with the rotate loop's check. -/

namespace Sys2Proof.Machine

/-- RENDER_LINE (44_render_policy R248). -/
def execRenderLine (str : Str) (line : Nat) (s : State) : Outc := inOp s (renderBody str line s)

/-- ROT_STEP (44_render_policy R246): rotate, render the frame, wait, count; CFG is read where the rule reads it, for the
frame here, for the wait and the count when they come (log 29). -/
def execRotStep (s : State) : Outc :=
  inOp s (withRot s fun r => withCfg s fun c =>
    let str := rotl1 r.s
    .next (({ s with rot := some { r with s := str } } : State).push
      [.call (.renderLine (rotFrame str c.lineLength) r.line), .rotWait, .rotCount]))

/-- The wait of ROT_STEP (44_render_policy R246), of the interval CFG holds after the frame. It takes no lock, so it may stand
inside another requester's frame (log 31). -/
def rotWaitOp (s : State) : Outc := withCfg s fun c => .next (s.emit (.wait c.rotInterval))

/-- The counter updates of ROT_STEP (44_render_policy R246). -/
def rotCountOp (s : State) : Outc :=
  withRot s fun r => withCfg s fun c =>
    .next { s with rot := some { r with elapsed := r.elapsed + c.rotInterval, iter := r.iter + 1 } }

/-- The end of one turn of the rotate loop (44_render_policy R245): leave it with `(ROTATED, k)`, or go round. -/
def rotCheck (s : State) : Outc :=
  withRot s fun r =>
    if s.cancel ∨ (0 < r.budget ∧ r.iter = r.budget) then .next (s.finish .rotated (.count r.iter))
    else .next (s.push [.call .rotStep])

/-- The cleared path (44_render_policy R241). -/
def clearedPath (op : Instr) (s : State) : Outc :=
  .next ((({ s with win := none } : State).startOp op (.done .cleared .none)).push
    [.call .clearDisplay, .call .returnHome])

/-- The static path (44_render_policy R242), of a string that fits: its `pad` is past its checks (60_exceptions R274,
R275). -/
def staticPath (op : Instr) (str : Str) (line : Nat) (align : Align) (c : Cfg) (s : State) : Outc :=
  writeRawBody (padArms str c.lineLength [space] align) line 0
    (({ s with win := none } : State).startOp op (.done .static .none))

/-- The scroll path (44_render_policy R244): the window is created before the render. -/
def scrollPath (op : Instr) (str : Str) (line : Nat) (c : Cfg) (s : State) : Outc :=
  renderMoved op (newWindow str c.lineLength line c.beginM c.endM) s

/-- The rotate path up to its loop (44_render_policy R245); `ROTATE_WIDTH` "before any state change". -/
def rotatePath (op : Instr) (str : Str) (line budget : Nat) (c : Cfg) (s : State) : Outc :=
  if c.lineLength < 2 then .next (s.refuse .rotateWidth)
  else
    .next { (({ s with
        win := none
        rot := some { s := rotString str, line := line, iter := 0, elapsed := 0, budget := budget }
        cancel := false } : State).startOp op .rotate).push [.call .rotStep] with mode := .rotating }

/-- The overflow path (44_render_policy R243): an unknown policy "emits no event and changes no state". -/
def overflowPath (op : Instr) (str : Str) (line : Nat) (ov : Overflow) (budget : Nat) (c : Cfg) (s : State) : Outc :=
  match ov with
  | .scroll => scrollPath op str line c s
  | .rotate => rotatePath op str line budget c s
  | .unknown _ => .next (s.report (.ok .notDisplayed .none))

/-- DISPLAY's three-way dispatch on `len(s)` (44_render_policy R240). -/
def execDisplay (str : Str) (line : Nat) (align : Align) (ov : Overflow) (budget : Nat) (s : State) : Outc :=
  let op := Instr.display str line align ov budget
  heldWhenBusy op s (whenInit s (withCfg s fun c =>
    if str.length = 0 then clearedPath op s
    else if str.length ≤ c.lineLength then staticPath op str line align c s
    else overflowPath op str line ov budget c s))

/-- SCROLL_FWD (44_render_policy R249): `NO_WINDOW`, then `BoundaryError` (60_exceptions R279). -/
def execScrollFwd (n : Nat) (s : State) : Outc :=
  heldWhenBusy (.scrollFwd n) s (whenInit s
    (match s.win with
     | none => .next (s.refuse .noWindow)
     | some w =>
       match w.fwd n with
       | none => .next ((s.startOp (.scrollFwd n) (.done .done .none)).raise .boundaryError)
       | some w' => renderMoved (.scrollFwd n) w' s))

/-- SCROLL_BWD (44_render_policy R250). -/
def execScrollBwd (n : Nat) (s : State) : Outc :=
  heldWhenBusy (.scrollBwd n) s (whenInit s
    (match s.win with
     | none => .next (s.refuse .noWindow)
     | some w =>
       match w.bwd n with
       | none => .next ((s.startOp (.scrollBwd n) (.done .done .none)).raise .boundaryError)
       | some w' => renderMoved (.scrollBwd n) w' s))

/-- VIEW (44_render_policy R251): "State written: none; no bus event". -/
def execView (s : State) : Outc :=
  heldWhenBusy .view s (whenInit s
    (match s.win with
     | none => .next (s.refuse .noWindow)
     | some w => .next (s.report (.ok .viewed (.str w.view)))))

/-- CANCEL (44_render_policy R247): accepted in every mode; latched in ROTATING, no effect elsewhere. Its own result is
returned at once, and the operation in progress goes on (log 16). -/
def execCancel (s : State) : Outc :=
  .next (({ s with cancel := if s.mode = .rotating then true else s.cancel } : State).report (.ok .done .none))

end Sys2Proof.Machine
end

