-- ==== Sys2Proof/Machine/Scroll.lean ====
section
/-! DEFINITION. The meanings of ScrollWindow's micro-operations (43_scroll_window R210 to R214). None emits an event. -/

namespace Sys2Proof.Machine

/-- WIN_CREATE (43_scroll_window R210): replaces any earlier window. Outside its precondition the spec lets a model
refuse (93 U15; log 14). -/
def execWinCreate (buf : Str) (lcdLen line : Nat) (beginM endM : Str) (s : State) : Outc :=
  inOp s
    (if winCreatePre buf lcdLen beginM endM then .next { s with win := some (newWindow buf lcdLen line beginM endM) }
     else .refused .winCreatePrecondition)

/-- WIN_VIEW (43_scroll_window R212): "Pure, no mutation"; the view is the value returned to the caller (log 15). -/
def execWinView (s : State) : Outc := inOp s (withWin s fun w => .next (s.giveVal (.str w.view)))

/-- WIN_FWD (43_scroll_window R213). -/
def execWinFwd (n : Nat) (s : State) : Outc :=
  inOp s (withWin s fun w =>
    match w.fwd n with
    | none => .next (s.raise .boundaryError)
    | some w' => .next { s with win := some w' })

/-- WIN_BWD (43_scroll_window R214). -/
def execWinBwd (n : Nat) (s : State) : Outc :=
  inOp s (withWin s fun w =>
    match w.bwd n with
    | none => .next (s.raise .boundaryError)
    | some w' => .next { s with win := some w' })

end Sys2Proof.Machine
end

