-- ==== Sys2Proof/Machine/Transport.lean ====
section
/-! DEFINITION. The meanings of NibbleTransport (40_transport R140 to R148): BUS_WRITE, WAIT, NIBBLE, WRITE_CMD. -/

namespace Sys2Proof.Machine

/-- BUS_WRITE (40_transport R140). -/
def execBusWrite (v : Byte) (s : State) : Outc := inOp s (busWriteOp v s)

/-- WAIT (40_transport R141): one event, also for `t = 0`. It takes no lock: outside a frame (INIT's last wait) it may stand
inside another requester's frame (log 31). -/
def execWait (t : Nat) (s : State) : Outc := inOp s (.next (s.emit (.wait t)))

/-- NIBBLE (40_transport R142): the enable strobe. The operand's bits[3:0] are 0 (R142; log 27). -/
def execNibble (x : Byte) (m : RegSel) (s : State) : Outc :=
  inOp s (.next (s.push
    ((if s.par.prewrite then [.call (.nibblePrewrite (hiNibble x) m)] else [])
      ++ [.call (.nibbleEnSet (hiNibble x) m), .call (.wait Config.tEnHold),
          .call (.nibbleEnClear (hiNibble x) m), .call (.wait Config.tPostHold)])))

/-- WRITE_CMD (40_transport R143): as a host operation it returns `(DONE, none)`; called by a rule it is one frame. -/
def execWriteCmd (b : Byte) (m : RegSel) (s : State) : Outc :=
  match s.seq with
  | some _ => .next (enterFrame b m s)
  | none => whenInit s (.next (enterFrame b m (s.startOp (.writeCmd b m) (.done .done .none))))

end Sys2Proof.Machine
end

