-- ==== Sys2Proof/Machine/Dispatch.lean ====
section
/-! DEFINITION. One arm per instruction: the meaning it calls. -/

namespace Sys2Proof.Machine

def exec (i : Instr) (s : State) : Host.Outcome State Fault Refusal :=
  match i with
  | .writeCmd b m => Sys2Proof.Machine.execWriteCmd b m s
  | .init lines lineLength addr beginM endM interval => Sys2Proof.Machine.execInit lines lineLength addr beginM endM interval s
  | .clear => Sys2Proof.Machine.execClear s
  | .backlight on => Sys2Proof.Machine.execBacklight on s
  | .loadChars glyphs => Sys2Proof.Machine.execLoadChars glyphs s
  | .posCursor line col => Sys2Proof.Machine.execPosCursor line col s
  | .writeRaw str line pos => Sys2Proof.Machine.execWriteRaw str line pos s
  | .pad str fullLen padChar align => Sys2Proof.Machine.execPad str fullLen padChar align s
  | .display str line align overflow budget => Sys2Proof.Machine.execDisplay str line align overflow budget s
  | .scrollFwd n => Sys2Proof.Machine.execScrollFwd n s
  | .scrollBwd n => Sys2Proof.Machine.execScrollBwd n s
  | .view => Sys2Proof.Machine.execView s
  | .cancel => Sys2Proof.Machine.execCancel s
  | .busWrite v => Sys2Proof.Machine.execBusWrite v s
  | .wait t => Sys2Proof.Machine.execWait t s
  | .nibble x m => Sys2Proof.Machine.execNibble x m s
  | .winCreate buf lcdLen line beginM endM => Sys2Proof.Machine.execWinCreate buf lcdLen line beginM endM s
  | .winView => Sys2Proof.Machine.execWinView s
  | .winFwd n => Sys2Proof.Machine.execWinFwd n s
  | .winBwd n => Sys2Proof.Machine.execWinBwd n s
  | .renderLine str line => Sys2Proof.Machine.execRenderLine str line s
  | .rotStep => Sys2Proof.Machine.execRotStep s
  | .busByte d bl en rw rs => Sys2Proof.Machine.execBusByte d bl en rw rs s
  | .nibbleEnSet d m => Sys2Proof.Machine.execNibbleEnSet d m s
  | .nibbleEnClear d m => Sys2Proof.Machine.execNibbleEnClear d m s
  | .nibblePrewrite d m => Sys2Proof.Machine.execNibblePrewrite d m s
  | .commandFrame h l m => Sys2Proof.Machine.execCommandFrame h l m s
  | .backlightOn => Sys2Proof.Machine.execBacklightOn s
  | .backlightOff => Sys2Proof.Machine.execBacklightOff s
  | .wake => Sys2Proof.Machine.execWake s
  | .set4bit => Sys2Proof.Machine.execSet4bit s
  | .functionSet n => Sys2Proof.Machine.execFunctionSet n s
  | .displayOn => Sys2Proof.Machine.execDisplayOn s
  | .clearDisplay => Sys2Proof.Machine.execClearDisplay s
  | .entryModeLeft => Sys2Proof.Machine.execEntryModeLeft s
  | .returnHome => Sys2Proof.Machine.execReturnHome s
  | .setCgram a => Sys2Proof.Machine.execSetCgram a s
  | .setDdram a => Sys2Proof.Machine.execSetDdram a s
  | .data d => Sys2Proof.Machine.execData d s

end Sys2Proof.Machine
end

