-- ==== Sys2Proof/Machine/Sequencer.lean ====
section
/-! DEFINITION. How the block moves between instructions: whose turn it is (60_exceptions R288), the request port
(R285), the next statement of the operation in progress (00_scope R20, 10_state R44), and where a word of the opcode
table is put to run next. -/

namespace Sys2Proof.Machine

/-! ### Requesters (20_memory R85, 60_exceptions R288; log 9) -/

/-- The current requester's own registers, as a parked record. -/
def State.park (s : State) : Requester :=
  { id := s.cur, mode := s.mode, seq := s.seq, status := s.status, port := s.port }

/-- Requester `k` comes to move; no other requester of that number, no change. -/
def State.switchTo (k : Nat) (s : State) : State :=
  match s.parked.find? (fun r => r.id == k) with
  | none => s
  | some r =>
    { s with cur := r.id, mode := r.mode, seq := r.seq, status := r.status, port := r.port,
             parked := s.park :: s.parked.filter (fun r => r.id != k) }

/-- The requester that moves at this step: the next of `turns`, else the current one. -/
def State.takeTurn (s : State) : State :=
  match s.turns with
  | [] => s
  | k :: rest => ({ s with turns := rest } : State).switchTo k

/-! ### The request port (60_exceptions R285) -/

/-- The first CANCEL that has arrived by event number `n`, taken out of the port (log 7). -/
def dueCancel (n : Nat) : List Arrival → Option (List Arrival)
  | [] => none
  | a :: rest =>
    if a.req = Request.cancel ∧ a.notBefore ≤ n then some rest
    else (dueCancel n rest).map (fun l => a :: l)

/-- With no operation in progress: the port's first request, or, with none, the block waits (70_reset R310; log 17).
A tag that is not host-issuable is `Refused(UNKNOWN_OP)` whatever its operands (30_encoding R117). -/
def fetchRequest (s : State) : Outc :=
  match s.port with
  | [] => .next s
  | a :: rest =>
    let s1 : State := { s with port := rest }
    match decode (.request a.req) with
    | .ok i => exec i s1
    | .error _ => if hostTag a.req.tag then .refused .malformedOperands else .next (s1.refuse .unknownOp)

/-- One statement of a procedure (00_scope R20). -/
def execStmt (st : Stmt) (s : State) : Outc :=
  match st with
  | .call i => exec i s
  | .release => .next s.releaseLock
  | .configure c => .next (configureOp c s)
  | .functionSet => functionSetOp s
  | .rotWait => rotWaitOp s
  | .rotCount => rotCountOp s

/-- The next statement of the operation in progress, or its end. -/
def runNext (q : Seq) (s : State) : Outc :=
  match q.todo with
  | st :: rest => execStmt st (s.setTodo rest)
  | [] =>
    match q.ret with
    | .done st v => .next (s.finish st v)
    | .rotate => rotCheck s

/-- One move of the requester whose registers are in place: CANCEL "is taken at once in every mode" (60_exceptions
R285), else the operation in progress goes on, else the next request starts. -/
def stepCur (s : State) : Outc :=
  match s.seq with
  | none => fetchRequest s
  | some q =>
    match dueCancel s.trace.length s.port with
    | some rest => exec .cancel { s with port := rest }
    | none => runNext q s

/-! ### A word of the opcode table placed to run next (log 12) -/

/-- A request at the front of the port, with no operation in progress. -/
def State.placeRequest (r : Request) (s : State) : State :=
  { s with turns := [], seq := none, port := { req := r, notBefore := 0 } :: s.port }

/-- CFG where no INIT has written one: INIT's defaults (30_encoding R113), two lines as in the source's tests (00_scope
R10). -/
def placedCfg : Cfg :=
  { lines := 2, lineLength := Config.lineLength, addr := BitVec.ofNat 7 Config.addr, beginM := Config.beginMarker,
    endM := Config.endMarker, rotInterval := Config.rotIntervalUs }

/-- A form of the lower layers as the next statement of an operation in progress; such an operation has a CFG (10_state
R37). -/
def State.placeForm (i : Instr) (s : State) : State :=
  { s with
    cfg := some (s.cfg.getD placedCfg)
    turns := []
    port := s.port.filter (fun a => a.req != Request.cancel)
    mode := .busy
    seq := some { op := i, pos := 0, todo := [.call i], ret := .done .done .none, val := .none } }

/-- A word of the opcode table, put where the next step fetches. -/
def State.placeWord (nbits w : Nat) (s : State) : State :=
  match codeOfTableWord nbits w with
  | some (.request r) => s.placeRequest r
  | _ =>
    match decodeTableWord nbits w with
    | some i => s.placeForm i
    | none => s.placeRequest { tag := BitVec.ofNat 8 w, args := [] }

end Sys2Proof.Machine
end

