-- ==== Sys2Proof/Machine/Step.lean ====
section
/-! DEFINITION. One step of the machine: whose turn it is, then that requester's move. -/

namespace Sys2Proof.Machine

/-- One move of the block (00_scope R20, 20_memory R84; log 6). -/
def step (s : State) : Host.Outcome State Fault Refusal := stepCur s.takeTurn

/-- `s` with a word of spec/opcode_table.json where `step` fetches its next instruction (log 12). -/
def State.withFetchWord (s : State) (nbits w : Nat) : State := s.placeWord nbits w

end Sys2Proof.Machine
end

