-- ==== Sys2Proof/Machine/Observer.lean ====
section
/-! DEFINITION. Views of the event trace; none of them is state of the block and no meaning reads one: the traces the
rules list for a nibble, a frame and an operation (40_transport R142, R143; 30_encoding R120), the latch observer and the
decoded command stream (40_transport R145, R146), and the sum of the waits (70_reset R324). -/

namespace Sys2Proof.Machine

/-! ### Traces of complete procedures (every write answered ok) -/

/-- `BUS_WRITE v` (40_transport R140). -/
def writeEvents (addr : BitVec 7) (v : Byte) : List Event := [.busWrite addr v .ok, .wait Config.tSettle]

/-- `NIBBLE` (40_transport R142). -/
def nibbleEvents (p : Params) (addr : BitVec 7) (m : RegSel) (d : Nibble) : List Event :=
  (if p.prewrite then writeEvents addr (prewriteByte p d m) else [])
    ++ (writeEvents addr (enSetByte p d m) ++ [.wait Config.tEnHold])
    ++ (writeEvents addr (enClearByte p d m) ++ [.wait Config.tPostHold])

/-- `WRITE_CMD b, M` (40_transport R143), high nibble first (20_memory R76). -/
def frameEvents (p : Params) (addr : BitVec 7) (m : RegSel) (b : Byte) : List Event :=
  nibbleEvents p addr m (hiNibble b) ++ nibbleEvents p addr m (loNibble b)

/-- The frames of a list of `(M, b)`, in order. -/
def streamEvents (p : Params) (addr : BitVec 7) : List (RegSel × Byte) → List Event
  | [] => []
  | c :: rest => frameEvents p addr c.1 c.2 ++ streamEvents p addr rest

/-- The data frames of a string (20_memory R77). -/
def dataStream (str : Str) : List (RegSel × Byte) := str.map (fun b => (.data, b))

/-- INIT's command stream (41_display_controller R162, R163). -/
def initStream (lines : Nat) : List (RegSel × Byte) :=
  [0x03#8, 0x03#8, 0x03#8, 0x02#8, if 2 ≤ lines then 0x28#8 else 0x20#8, 0x0C#8, 0x01#8, 0x06#8].map
    (fun b => (.instruction, b))

/-- CLEAR's command stream (30_encoding R120). -/
def clearStream : List (RegSel × Byte) := [(.instruction, 0x01#8), (.instruction, 0x02#8)]

/-- POS_CURSOR's command stream for DDRAM address `a` (30_encoding R120). -/
def cursorStream (a : Nat) : List (RegSel × Byte) := [(.instruction, 0x80#8 ||| BitVec.ofNat 8 a)]

/-! ### The latch observer (40_transport R145) -/

/-- What the observer has seen: the latched nibbles with their RS, in order, and whether it is still defined (it is not
after a write that answered `BusError`). -/
structure LatchView where
  latches : List (Nibble × RegSel)
  defined : Bool
  deriving DecidableEq, Repr

/-- The latches of the bus writes to `addr`, the EN of the write before them being `prevEn`. One fixed address is followed,
also over an INIT that changes CFG.addr, and writes to others are skipped with their answers (log 33). -/
def latchFrom (p : Params) (addr : BitVec 7) (prevEn : Bool) : List Event → LatchView
  | [] => { latches := [], defined := true }
  | .wait _ :: rest => latchFrom p addr prevEn rest
  | .busWrite a v ans :: rest =>
    if a = addr then
      match ans with
      | .busError => { latches := [], defined := false }
      | .ok =>
        let tail := latchFrom p addr (enOf p v) rest
        if prevEn && !enOf p v then { tail with latches := (hiNibble v, rsOf p v) :: tail.latches } else tail
    else latchFrom p addr prevEn rest

/-- The latch observer from reset: "the observer treats it as 0" (40_transport R145, 93 U19). -/
def latched (p : Params) (addr : BitVec 7) (trace : List Event) : LatchView := latchFrom p addr false trace

/-- Latched nibbles paired in order (40_transport R146): `h · 16 + l`, instruction mode if `rs = 0`. -/
def pairNibbles : List (Nibble × RegSel) → List (RegSel × Byte)
  | (h, m) :: (l, _) :: rest => (m, h ++ l) :: pairNibbles rest
  | [_] => []
  | [] => []

/-- The decoded command stream (40_transport R146); `none` once the observer is undefined. -/
def decodedStream (p : Params) (addr : BitVec 7) (trace : List Event) : Option (List (RegSel × Byte)) :=
  let v := latched p addr trace
  if v.defined then some (pairNibbles v.latches) else none

/-- INIT's whole trace (41_display_controller R162 to R164). -/
def initEvents (p : Params) (addr : BitVec 7) (lines : Nat) : List Event :=
  streamEvents p addr (initStream lines) ++ [.wait Config.tInit]

/-- The trace after its last complete INIT to `addr`, recognized by INIT's own events in one piece; `none` where it has none
(log 19). -/
def sinceInit (p : Params) (addr : BitVec 7) : List Event → Option (List Event)
  | [] => none
  | e :: rest =>
    match sinceInit p addr rest with
    | some t => some t
    | none =>
      if (initEvents p addr 1).isPrefixOf (e :: rest) || (initEvents p addr 2).isPrefixOf (e :: rest) then
        some ((e :: rest).drop (initEvents p addr 2).length)
      else none

/-- The command stream since the last complete INIT: what a claim about the LCD after an error may speak of
(70_reset_and_hazards R313, R318; log 19). -/
def streamSinceInit (p : Params) (addr : BitVec 7) (trace : List Event) : Option (List (RegSel × Byte)) :=
  (sinceInit p addr trace).bind (decodedStream p addr)

/-- The LCD's nibble phase (20_memory R79): a first nibble is latched and its second is not. `none` where the LCD is in an
unknown state: from reset (70_reset_and_hazards R310, 93 U2) and after a write that answered `BusError` (40_transport R145, 93
U3), until a complete INIT (70_reset_and_hazards R313, R318; log 19). Every nibble latched since counts as taken, also one that
arrives while the LCD may still execute clear or home (93 U4, 70_reset_and_hazards R319; log 34). -/
def halfByte (p : Params) (addr : BitVec 7) (trace : List Event) : Option Bool :=
  (sinceInit p addr trace).bind fun t =>
    let v := latched p addr t
    if v.defined then some (v.latches.length % 2 == 1) else none

/-- The last byte the bus took for `addr`, what the backpack's output latch holds (10_state R48 (a)); `none` when it is
unknown: no write yet, or the last one failed (20_memory R80). -/
def backpackLatch (addr : BitVec 7) : List Event → Option Byte
  | [] => none
  | .wait _ :: rest => backpackLatch addr rest
  | .busWrite a v ans :: rest =>
    if rest.any (fun e => match e with | .busWrite a' _ _ => decide (a' = addr) | .wait _ => false) then
      backpackLatch addr rest
    else if a = addr ∧ ans = .ok then some v else none

/-! ### Time (70_reset R324) -/

/-- The least time of one event, µs. -/
def Event.minTime : Event → Nat
  | .busWrite _ _ _ => 0
  | .wait t => t

/-- The sum of the waits of a trace: a lower bound of its duration (70_reset R314, R324). -/
def minTime (trace : List Event) : Nat := (trace.map Event.minTime).sum

/-- How many bus writes a trace has. -/
def busWrites (trace : List Event) : Nat :=
  trace.countP (fun e => match e with | .busWrite _ _ _ => true | .wait _ => false)

/-- The bytes written, in order. -/
def busBytes (trace : List Event) : List Byte :=
  trace.filterMap (fun e => match e with | .busWrite _ v _ => some v | .wait _ => none)

end Sys2Proof.Machine
end

