-- ==== Sys2Proof/Safety.lean ====
section
/-! DEFINITION. The terms claims use: runs, what it is for a run to be free of refused requests (60_exceptions R278),
the premises "every write answers ok" (40_transport R140) and "no CANCEL arrives", the states an operation starts from and
ends in, and the invariants of the machine with one requester and with any number of them. -/

namespace Sys2Proof

/-! ### Kinds of instructions -/

/-- The host may issue it (30_encoding R113, the first table). -/
def Instr.hostOp : Instr → Bool
  | .writeCmd _ _ | .init _ _ _ _ _ _ | .clear | .backlight _ | .loadChars _ | .posCursor _ _ | .writeRaw _ _ _
  | .pad _ _ _ _ | .display _ _ _ _ _ | .scrollFwd _ | .scrollBwd _ | .view | .cancel => true
  | .busWrite _ | .wait _ | .nibble _ _ | .winCreate _ _ _ _ _ | .winView | .winFwd _ | .winBwd _ | .renderLine _ _
  | .rotStep | .busByte _ _ _ _ _ | .nibbleEnSet _ _ | .nibbleEnClear _ _ | .nibblePrewrite _ _ | .commandFrame _ _ _
  | .backlightOn | .backlightOff | .wake | .set4bit | .functionSet _ | .displayOn | .clearDisplay | .entryModeLeft
  | .returnHome | .setCgram _ | .setDdram _ | .data _ => false

/-- It takes the transport lock at its start: a command frame or a BACKLIGHT write (40_transport R144). -/
def Instr.takesLock : Instr → Bool
  | .writeCmd _ _ | .backlight _ | .wake | .set4bit | .functionSet _ | .displayOn | .clearDisplay | .entryModeLeft
  | .returnHome | .setCgram _ | .setDdram _ | .data _ => true
  | .init _ _ _ _ _ _ | .clear | .loadChars _ | .posCursor _ _ | .writeRaw _ _ _ | .pad _ _ _ _ | .display _ _ _ _ _
  | .scrollFwd _ | .scrollBwd _ | .view | .cancel | .busWrite _ | .wait _ | .nibble _ _ | .winCreate _ _ _ _ _
  | .winView | .winFwd _ | .winBwd _ | .renderLine _ _ | .rotStep | .busByte _ _ _ _ _ | .nibbleEnSet _ _
  | .nibbleEnClear _ _ | .nibblePrewrite _ _ | .commandFrame _ _ _ | .backlightOn | .backlightOff => false

/-- It writes the bus without taking the transport lock itself: its caller holds it (40_transport R142 to R144). -/
def Instr.underLock : Instr → Bool
  | .busWrite _ | .nibble _ _ | .busByte _ _ _ _ _ | .nibbleEnSet _ _ | .nibbleEnClear _ _ | .nibblePrewrite _ _
  | .commandFrame _ _ _ | .backlightOn | .backlightOff => true
  | .writeCmd _ _ | .init _ _ _ _ _ _ | .clear | .backlight _ | .loadChars _ | .posCursor _ _ | .writeRaw _ _ _
  | .pad _ _ _ _ | .display _ _ _ _ _ | .scrollFwd _ | .scrollBwd _ | .view | .cancel | .wait _ | .winCreate _ _ _ _ _
  | .winView | .winFwd _ | .winBwd _ | .renderLine _ _ | .rotStep | .wake | .set4bit | .functionSet _ | .displayOn
  | .clearDisplay | .entryModeLeft | .returnHome | .setCgram _ | .setDdram _ | .data _ => false

/-- Its code is also that of another instruction, which `decode` may answer (30_encoding R101, R103, R106, R107; log
20). -/
def Instr.sharesCode : Instr → Bool
  | .set4bit | .nibblePrewrite _ _ | .backlightOn => true
  | .busByte d bl en _ rs => bl || (d == 0#4 && !en && !rs)
  | .writeCmd _ _ | .init _ _ _ _ _ _ | .clear | .backlight _ | .loadChars _ | .posCursor _ _ | .writeRaw _ _ _
  | .pad _ _ _ _ | .display _ _ _ _ _ | .scrollFwd _ | .scrollBwd _ | .view | .cancel | .busWrite _ | .wait _
  | .nibble _ _ | .winCreate _ _ _ _ _ | .winView | .winFwd _ | .winBwd _ | .renderLine _ _ | .rotStep
  | .nibbleEnSet _ _ | .nibbleEnClear _ _ | .commandFrame _ _ _ | .backlightOff | .wake | .functionSet _ | .displayOn
  | .clearDisplay | .entryModeLeft | .returnHome | .setCgram _ | .setDdram _ | .data _ => false

end Sys2Proof

namespace Sys2Proof.Machine

/-! ### Runs -/

/-- `k` steps, stopping at the first fault or refusal. -/
def run : Nat → State → Outc
  | 0, s => .next s
  | k + 1, s =>
    match step s with
    | .next t => run k t
    | .fault f => .fault f
    | .refused r => .refused r

/-- Some number of steps leads from `s` to `t`. -/
def Reaches (s t : State) : Prop := ∃ k, run k s = .next t

/-- `exec i s` answers a next state, from which the steps of the procedure lead to `t`. -/
def CompletesWith (i : Instr) (s t : State) : Prop := ∃ u, exec i s = .next u ∧ Reaches u t

/-- No request of the run was refused: "a claim about a refused request is unprovable" (60_exceptions R278), so a claim
about what the block does for a program is a claim about such runs (log 1). -/
def State.nothingRefused (s : State) : Prop := ∀ r ∈ s.results, ∀ q, r.2 ≠ .refused q

/-- The step answers `Refused`: its request has no meaning (60_exceptions R278). -/
def State.refusesNow (s : State) : Prop := ∃ t i r, step s = .next t ∧ t.results = s.results ++ [(i, .refused r)]

/-- The states a claim must reckon with after `s`. "A model treats a refusal as "no behaviour defined"" (60_exceptions R278,
93 U12): where the request is refused that is every state, and `step` is the one of them in which the block answers; else it
is the step's own next state. So a claim about a refused request is unprovable over this relation (log 1). -/
def State.mayStep (s t : State) : Prop := step s = .next t ∨ s.refusesNow

/-- The same in some number of steps. -/
inductive MayRun : State → State → Prop where
  | refl (s : State) : MayRun s s
  | cons {s t u : State} (h : s.mayStep t) (r : MayRun t u) : MayRun s u

/-! ### Premises -/

/-- The next `n` writes answer ok (40_transport R140: "a claim that needs no error takes "every write answers ok" as a
premise"). -/
def State.answersOk (n : Nat) (s : State) : Prop := s.bus.take n = List.replicate n .ok

/-- No CANCEL waits at the port. -/
def State.noCancel (s : State) : Prop := ∀ a ∈ s.port, a.req ≠ Request.cancel

/-- The requester in place makes the coming steps, and no CANCEL arrives in them. -/
def State.undisturbed (s : State) : Prop := s.turns = [] ∧ s.noCancel

/-- The block is initialized with `c`, no operation executes, and the transport is free (10_state R36 `IDLE`). -/
structure State.Ready (c : Cfg) (s : State) : Prop where
  mode : s.mode = .idle
  seq : s.seq = none
  cfg : s.cfg = some c
  lock : s.lock = none
  tx : s.tx = none
  undisturbed : s.undisturbed

/-- Operation `q` is in progress, and the lock is its own or free (40_transport R144). -/
structure State.InOp (c : Cfg) (q : Seq) (s : State) : Prop where
  seq : s.seq = some q
  cfg : s.cfg = some c
  lock : s.lock = some s.cur ∨ (s.lock = none ∧ s.tx = none)
  undisturbed : s.undisturbed

/-- Operation `q` is in progress, between two frames: the transport is free. -/
structure State.InCall (c : Cfg) (q : Seq) (s : State) : Prop where
  seq : s.seq = some q
  cfg : s.cfg = some c
  lock : s.lock = none
  tx : s.tx = none
  undisturbed : s.undisturbed

/-- The line is one of the geometry, and `a` is the DDRAM address of its column `col` (42_text_layout R196, R197;
41_display_controller R168: 7 bits). -/
def Cfg.reaches (c : Cfg) (line col : Nat) (a : Nat) : Prop :=
  1 ≤ line ∧ line ≤ c.lines ∧ ddramAddr line col = some a ∧ a ≤ 0x7F

/-- POS_CURSOR raises `InvalidLineError` for this line (60_exceptions R273). -/
def Cfg.badLine (c : Cfg) (line : Nat) : Prop := line < 1 ∨ c.lines < line

/-! ### Ends -/

/-- `s` after `n` answered writes and the events `evs`, nothing else changed. -/
def State.emitted (evs : List Event) (n : Nat) (s : State) : State :=
  { s with trace := s.trace ++ evs, bus := s.bus.drop n }

/-- `s` after a procedure called from the operation in progress has run: its events, and `SEQ.pos` counting them. -/
def State.afterCall (evs : List Event) (n : Nat) (s : State) : State :=
  { s.emitted evs n with seq := s.seq.map (fun q => { q with pos := q.pos + evs.length }) }

/-- `s` after a whole host operation: its events and its result, every other element as before. -/
def State.afterOp (evs : List Event) (n : Nat) (r : Result) (s : State) : State :=
  { s.emitted evs n with status := some r, results := s.results ++ [(s.cur, r)] }

/-- `s` after the operation in progress was ended by error `e`, its last events being `evs` (60_exceptions R280). The
other requesters' modes after a failed INIT: log 9; ROT while another requester rotates, where R280 (d) clears it: log 25. -/
def State.failedOp (e : ErrCode) (evs : List Event) (n : Nat) (s : State) : State :=
  { s.emitted evs n with
    lock := none
    tx := none
    seq := none
    mode := if s.inInit then .uninit else .idle
    rot := if s.mode = .rotating ∧ s.othersRotate = false then none else s.rot
    cancel := if s.mode = .rotating then false else s.cancel
    status := some (.err e)
    results := s.results ++ [(s.cur, .err e)]
    parked := if s.inInit then s.parked.map (Requester.afterInit false) else s.parked }

/-- The `k`-th write from here is the first that answers `BusError`. -/
def State.failsAt (k : Nat) (s : State) : Prop := s.bus.take (k + 1) = List.replicate k .ok ++ [.busError]

/-- A trace cut at its `k`-th write, which answered `BusError`: "the trace ends with the failing `BusWrite` event, with
no `Wait` after it" (60_exceptions R281). -/
def cutAt : Nat → List Event → List Event
  | _, [] => []
  | k, .wait t :: rest => .wait t :: cutAt k rest
  | 0, .busWrite a v _ :: _ => [.busWrite a v .busError]
  | k + 1, .busWrite a v ans :: rest => .busWrite a v ans :: cutAt k rest

/-- A host operation runs as `evs` and returns `r`, the block then being `tOk` but for its trace and result; and when a
write fails it ends there with `TransportError`, the block then being `tErr` (60_exceptions R279 (4), R280, R281). -/
def Performs (i : Instr) (s tOk tErr : State) (evs : List Event) (r : Result) : Prop :=
  (s.answersOk (busWrites evs) → CompletesWith i s (tOk.afterOp evs (busWrites evs) r))
    ∧ ∀ k, k < busWrites evs → s.failsAt k →
        CompletesWith i s (tErr.afterOp (cutAt k evs) (k + 1) (.err .transportError))

/-- A procedure called inside an operation runs as `evs` and changes nothing else but `TX.phase`; and when a write fails
the operation ends there with `TransportError`, as `State.failedOp` says (log 9, log 25). -/
def CallRuns (i : Instr) (s : State) (evs : List Event) : Prop :=
  (s.answersOk (busWrites evs) →
      ∃ t, CompletesWith i s t ∧ { t with tx := s.tx } = s.afterCall evs (busWrites evs)
        ∧ t.tx.map (fun f => (f.byte, f.mode)) = s.tx.map (fun f => (f.byte, f.mode)))
    ∧ ∀ k, k < busWrites evs → s.failsAt k →
        CompletesWith i s (s.failedOp .transportError (cutAt k evs) (k + 1))

/-- A window moved to offset `ws'`, its width computed afresh (43_scroll_window R211, R213, R214). -/
def Window.movedTo (w : Window) (ws' : Nat) : Window :=
  let bw := if 0 < ws' then w.beginM.length else 0
  { w with
    ws := ws'
    wl := if ws' + (w.lcdLen - bw) < w.buf.length then w.lcdLen - bw - w.endM.length else w.lcdLen - bw }

/-! ### Invariants -/

/-- CFG as INIT accepts it (41_display_controller R160). -/
def Cfg.legal (c : Cfg) : Bool :=
  (c.lines == 1 || c.lines == 2 || c.lines == 4) && decide (1 ≤ c.lineLength)
    && decide (c.beginM.length + c.endM.length + 1 ≤ c.lineLength)

/-- The invariants of a window (43_scroll_window R215 (a), (b)), its precondition (R210), and a width that is what
`recompute` gives (10_state R40). -/
def Window.legal (w : Window) : Bool :=
  winCreatePre w.buf w.lcdLen w.beginM w.endM && decide (w.ws ≤ w.buf.length) && decide (w.recompute = w)

/-- The address of POS_CURSOR fits DDRAM's 7 bits, on any line of the table (41_display_controller R168). -/
def cursorFits (line col : Nat) : Bool :=
  match ddramAddr line col with
  | some a => decide (a ≤ 0x7F)
  | none => true

/-- A statement that some rule puts into a procedure while MODE is `m`: no operation that only the host issues, no raw
bus byte, no window micro-operation (their callers do them in one move, log 6), a cursor address checked before
(60_exceptions R278), and the rotate loop's statements in ROTATING only (44_render_policy R245). -/
def Stmt.clean (m : Mode) : Stmt → Bool
  | .call i =>
    match i with
    | .posCursor line col => cursorFits line col
    | .writeRaw _ line pos => cursorFits line pos
    | .rotStep => decide (m = .rotating)
    | .init _ _ _ _ _ _ | .clear | .loadChars _ | .pad _ _ _ _ | .display _ _ _ _ _ | .scrollFwd _ | .scrollBwd _
    | .view | .cancel => false
    | .busWrite _ | .busByte _ _ _ _ _ | .winCreate _ _ _ _ _ | .winView | .winFwd _ | .winBwd _ => false
    | .writeCmd _ _ | .backlight _ | .wait _ | .nibble _ _ | .renderLine _ _ | .nibbleEnSet _ _ | .nibbleEnClear _ _
    | .nibblePrewrite _ _ | .commandFrame _ _ _ | .backlightOn | .backlightOff | .wake | .set4bit | .functionSet _
    | .displayOn | .clearDisplay | .entryModeLeft | .returnHome | .setCgram _ | .setDdram _ | .data _ => true
  | .release | .functionSet => true
  | .configure _ => false
  | .rotWait | .rotCount => decide (m = .rotating)

/-- What holds of SEQ while an operation is in progress. -/
def State.seqOk (s : State) : Prop :=
  match s.seq with
  | none => s.mode = .uninit ∨ s.mode = .idle
  | some q =>
    (s.mode = .busy ∨ s.mode = .rotating) ∧ (q.ret = .rotate ↔ s.mode = .rotating)
      ∧ (∀ st ∈ q.todo, st.clean s.mode) ∧ (isInitOp q.op = true → s.mode = .busy)

/-- The lock and TX: held only by the operation in progress, TX only under the lock, its phase inside the frame
(10_state R43). -/
def State.lockOk (s : State) : Prop :=
  (∀ r, s.lock = some r → r = s.cur ∧ s.seq.isSome) ∧ (s.lock = none → s.tx = none)
    ∧ (∀ t, s.tx = some t → t.phase < frameWrites s.par)

/-- The invariant of the machine with one requester: the modes of 10_state R36 and R37 agree with SEQ and ROT (R42,
R44), an initialized block has a configuration INIT accepts, a window is as 43_scroll_window R215 says and as wide as CFG's
line (44_render_policy R244), and the lock is as 40_transport R144 says. -/
structure State.Inv (s : State) : Prop where
  solo : s.parked = []
  seqOk : s.seqOk
  rot : s.rot.isSome ↔ s.mode = .rotating
  cancel : s.cancel = true → s.mode = .rotating
  cfg : s.mode ≠ .uninit → s.cfg.isSome
  cfgLegal : ∀ c, s.cfg = some c → c.legal
  window : ∀ w, s.win = some w → w.legal
  winWidth : ∀ w c, s.win = some w → s.cfg = some c → w.lcdLen = c.lineLength
  lockOk : s.lockOk

/-- A statement that writes the bus under a lock its caller took. -/
def Stmt.underLock : Stmt → Bool
  | .call i => i.underLock
  | .release | .configure _ | .functionSet | .rotWait | .rotCount => false

/-- A statement that can stand inside a frame: a part of it, or one of its waits (40_transport R142). -/
def Stmt.inFrame : Stmt → Bool
  | .call (.wait _) => true
  | st => st.underLock

/-- No statement of the list writes the bus but by taking the lock. -/
def outsideFrames (l : List Stmt) : Bool := l.all (fun st => !st.underLock)

/-- The list is the rest of one frame, the release of its lock, and then statements outside frames. -/
def insideFrame : List Stmt → Bool
  | [] => false
  | .release :: rest => outsideFrames rest
  | st :: rest => st.inFrame && insideFrame rest

/-- The statements a requester has left. -/
def stmtsLeft (q : Option Seq) : List Stmt :=
  match q with
  | none => []
  | some q => q.todo

/-- A requester with a frame under way holds the lock (40_transport R144). -/
def framesLocked (lock : Option Nat) (id : Nat) (q : Option Seq) : Prop :=
  outsideFrames (stmtsLeft q) = true ∨ (lock = some id ∧ insideFrame (stmtsLeft q) = true)

/-- The invariant of the transport lock, for any number of requesters: of the requesters, each with a number of its own,
only the lock's holder has a frame under way (20_memory R81, R87, 40_transport R144, 60_exceptions R288; log 9). -/
structure State.Exclusive (s : State) : Prop where
  ids : (s.cur :: s.parked.map (fun r => r.id)).Nodup
  mine : framesLocked s.lock s.cur s.seq
  others : ∀ r ∈ s.parked, framesLocked s.lock r.id r.seq

/-- A requester's MODE and SEQ agree (10_state R36, R37, R44), and CFG holds a value (`cfg`) wherever the requester may
read it: once it is initialized, and in every operation but an INIT that still waits to make its state change (log 32). -/
def regsOk (cfg : Bool) (mode : Mode) (q : Option Seq) : Prop :=
  match q with
  | none => mode = .uninit ∨ (mode = .idle ∧ cfg = true)
  | some q =>
    (mode = .busy ∨ mode = .rotating) ∧ (q.ret = .rotate ↔ mode = .rotating) ∧ (isInitOp q.op = true → mode = .busy)
      ∧ ((cfg = true ∧ ∀ st ∈ q.todo, st.clean mode = true) ∨ (isInitOp q.op = true ∧ ∃ c, q.todo = [.configure c]))

/-- The invariant of what the requesters share, for any number of them, each with a number of its own (60_exceptions R288):
ROT holds values just while some requester rotates, and ROT.cancel is latched only then (10_state R42; log 25), CFG is there
for whoever reads it, and TX is empty between frames (R43). Under it no element is read without a value (R49). -/
structure State.Shared (s : State) : Prop where
  ids : (s.cur :: s.parked.map (fun r => r.id)).Nodup
  mine : regsOk s.cfg.isSome s.mode s.seq
  others : ∀ r ∈ s.parked, regsOk s.cfg.isSome r.mode r.seq
  rot : s.rot.isSome = true ↔ (s.mode = .rotating ∨ s.othersRotate = true)
  cancel : s.cancel = true → (s.mode = .rotating ∨ s.othersRotate = true)
  tx : s.lock = none → s.tx = none

/-- Every byte the block wrote has RW clear (30_encoding R101). -/
def State.rwClear (s : State) : Prop :=
  ∀ e ∈ s.trace, ∀ a v ans, e = .busWrite a v ans → rwOf s.par v = false

/-- The moves of MODE that 10_state R37 lists, one step at a time; a step that leaves MODE as it is is always allowed. -/
def modeMove (inInit : Bool) : Mode → Mode → Bool
  | .uninit, .uninit | .uninit, .busy => true
  | .idle, .idle | .idle, .busy | .idle, .rotating => true
  | .busy, .busy | .busy, .idle => true
  | .busy, .uninit => inInit
  | .rotating, .rotating | .rotating, .idle => true
  | _, _ => false

end Sys2Proof.Machine
end

