-- ==== Sys2Proof/Certificates/Slice0/Obligations.lean ====
section
/-! DEFINITION. The statements for the provers: the numbered rules of spec/ that say what an instruction or the block does,
over all states and operands, and the invariants of the step. A procedure's frame is said by equality of states: what the
statement does not name is as before. -/

open Sys2Proof Sys2Proof.Machine

/-! ### Encoding -/

/-- Words written out from 30_encoding R101 to R113 decode to the instructions they stand for. Of the bus bytes 0x4D, 0x88
and 0x00, which the spec gives to more than one row (R101, R103, R106), the row named is the decoder's choice (log 20). -/
def Obligations.SampleWordsDecode : Prop :=
  decodeTableWord 32 0x4D498D89 = some (.commandFrame 0x4#4 0x8#4 .data)
    ∧ decodeTableWord 32 0x0C083C38 = some (.commandFrame 0x0#4 0x3#4 .instruction)
    ∧ decode (.bus 0x4D#8) = .ok (.nibbleEnSet 0x4#4 .data)
    ∧ decode (.bus 0x88#8) = .ok (.nibbleEnClear 0x8#4 .instruction)
    ∧ decode (.bus 0x00#8) = .ok .backlightOff
    ∧ decode (.lcd .instruction 0xC0#8) = .ok (.setDdram 0x40#7)
    ∧ decode (.lcd .instruction 0x40#8) = .ok (.setCgram 0#6)
    ∧ decode (.lcd .instruction 0x28#8) = .ok (.functionSet true)
    ∧ decode (.lcd .data 0x48#8) = .ok (.data 0x48#8)
    ∧ decode (.request { tag := 0x01#8, args := [.num 0x48, .num 1] }) = .ok (.writeCmd 0x48#8 .data)
    ∧ decode (.request { tag := 0x0A#8, args := [] }) = .ok (.scrollFwd 1)
    ∧ decode (.request { tag := 0x82#8, args := [.num 500] }) = .ok (.wait 500)

/-- 30_encoding R117: "The block answers every one of them `Refused(UNKNOWN_OP)` with no event and no state change",
before any other check (60_exceptions R279 (1)). STATUS takes the answer (60_exceptions R278). That the refused request has
this next state under `step` is the model's choice (log 1). And R278's last sentence, "a claim about a refused request is
unprovable": over `State.mayStep` any state may follow such a request, and any other that an instruction refuses; and a run over
it is a run of the block, unless a state the block reaches refuses a request. -/
def Obligations.UnknownTagsAreRefused : Prop :=
  (∀ (s : State) (a : Arrival) (rest : List Arrival), s.seq = none → s.turns = [] → s.port = a :: rest →
      a.req.tag = 0x00#8 ∨ 0x0E ≤ a.req.tag.toNat →
      step s = .next { s with
        port := rest
        status := some (.refused .unknownOp)
        results := s.results ++ [(s.cur, .refused .unknownOp)] }
      ∧ ∀ u, s.mayStep u)
    ∧ (∀ (s : State) (a : Arrival) (rest : List Arrival) (i : Instr) (r : Reason), s.seq = none → s.turns = [] →
        s.port = a :: rest → decode (.request a.req) = .ok i →
        (let t : State := { s with port := rest }
         exec i t = .next (t.afterOp [] 0 (.refused r))) →
        ∀ u, s.mayStep u)
    ∧ (∀ s t : State, Reaches s t → MayRun s t)
    ∧ ∀ s t : State, MayRun s t → Reaches s t ∨ ∃ u, Reaches s u ∧ u.refusesNow

/-- Every instruction's code decodes to an instruction of the same code, and to the instruction itself unless the spec
gives two rows one byte; that RETURN_HOME, NIBBLE_EN_SET, NIBBLE_EN_CLEAR and BACKLIGHT_OFF decode to themselves is the
decoder's choice among such rows (log 20). And of the bus bytes, the frames and the LCD bytes the decoder accepts no code but
those of a row, each rejected one by name (30_encoding R101, R104, R107, R112). -/
def Obligations.EncodedInstructionsDecodeBack : Prop :=
  (∀ i : Instr, i.wf = true →
    ∃ j, decode (encode i) = .ok j ∧ encode j = encode i ∧ (i.sharesCode = false → j = i))
    ∧ (∀ (b : Byte), (∀ i, decode (.bus b) = .ok i → encode i = .bus b ∧ i.wf = true)
        ∧ ∀ e, decode (.bus b) = .error e → e = .rwSet ∧ b &&& 0x02#8 = 0x02#8)
    ∧ (∀ (w : BitVec 32), (∀ i, decode (.frame w) = .ok i → encode i = .frame w ∧ i.wf = true)
        ∧ ∀ e, decode (.frame w) = .error e → e = .notAFrame)
    ∧ ∀ (m : RegSel) (b : Byte), (∀ i, decode (.lcd m b) = .ok i → encode i = .lcd m b ∧ i.wf = true)
        ∧ ∀ e, decode (.lcd m b) = .error e → e = .notEmitted

/-- 30_encoding R113, R118: omitted trailing operands take the defaults, at every number of operands an operation with
defaults may be given; the codes of `align` and `overflow` are those of R115 and R116. The default interval is a free value
(log 13). -/
def Obligations.OmittedOperandsTakeDefaults : Prop :=
  (∀ b : Byte, decode (.request { tag := 0x01#8, args := [.num b.toNat] }) = .ok (.writeCmd b .instruction))
    ∧ (∀ l, decode (.request { tag := 0x02#8, args := [.num l] })
          = .ok (.init l 16 0x27 [0x3C#8] [0x3E#8] Config.rotIntervalUs))
    ∧ (∀ l n, decode (.request { tag := 0x02#8, args := [.num l, .num n] })
          = .ok (.init l n 0x27 [0x3C#8] [0x3E#8] Config.rotIntervalUs))
    ∧ (∀ l n a, decode (.request { tag := 0x02#8, args := [.num l, .num n, .num a] })
          = .ok (.init l n a [0x3C#8] [0x3E#8] Config.rotIntervalUs))
    ∧ (∀ l n a b, decode (.request { tag := 0x02#8, args := [.num l, .num n, .num a, .str b] })
          = .ok (.init l n a b [0x3E#8] Config.rotIntervalUs))
    ∧ (∀ l n a b e, decode (.request { tag := 0x02#8, args := [.num l, .num n, .num a, .str b, .str e] })
          = .ok (.init l n a b e Config.rotIntervalUs))
    ∧ (∀ s n, decode (.request { tag := 0x08#8, args := [.str s, .num n] }) = .ok (.pad s n [0x20#8] .left))
    ∧ (∀ s n c, decode (.request { tag := 0x08#8, args := [.str s, .num n, .str c] }) = .ok (.pad s n c .left))
    ∧ (∀ s line code align, (code, align) ∈ [(0, Align.left), (1, .center), (2, .right), (3, .leftDefault)] →
        ∀ ov : Byte, decode (.request { tag := 0x09#8, args := [.str s, .num line, .num code, .num ov.toNat] })
          = .ok (.display s line align (if ov = 0#8 then .scroll else if ov = 1#8 then .rotate else .unknown ov) 0))
    ∧ decode (.request { tag := 0x0A#8, args := [] }) = .ok (.scrollFwd 1)
    ∧ decode (.request { tag := 0x0B#8, args := [] }) = .ok (.scrollBwd 1)

/-- 30_encoding R104: "A decoder of a frame recovers `b = B1[7:4] · 16 + B2[7:4]`", and `m = B1 & BIT_RS`; with the
default constants and no pre-write the four bus bytes are those listed. -/
def Obligations.FrameBytesCarryByteAndMode : Prop :=
  (∀ (p : Params) (b : Byte) (m : RegSel), p.wf = true →
      hiNibble (enClearByte p (hiNibble b) m) ++ hiNibble (enClearByte p (loNibble b) m) = b
        ∧ rsOf p (enClearByte p (hiNibble b) m) = m ∧ rsOf p (enClearByte p (loNibble b) m) = m)
    ∧ ∀ (addr : BitVec 7) (b : Byte) (m : RegSel),
        busBytes (frameEvents Params.default addr m b)
          = [(b &&& 0xF0#8) ||| flagIf m.isData 0x01#8 ||| 0x0C#8, (b &&& 0xF0#8) ||| flagIf m.isData 0x01#8 ||| 0x08#8,
             ((b <<< 4) &&& 0xF0#8) ||| flagIf m.isData 0x01#8 ||| 0x0C#8,
             ((b <<< 4) &&& 0xF0#8) ||| flagIf m.isData 0x01#8 ||| 0x08#8]

/-- 10_state R46, 30_encoding R103, R106: EN, BL, RW, RS and the nibble of every framed byte and of the BACKLIGHT byte,
whatever the legal bit positions. -/
def Obligations.BusByteFlags : Prop :=
  ∀ (p : Params) (d : Nibble) (m : RegSel), p.wf = true →
    (enOf p (enSetByte p d m) = true ∧ blOf p (enSetByte p d m) = true ∧ rwOf p (enSetByte p d m) = false
        ∧ rsOf p (enSetByte p d m) = m ∧ hiNibble (enSetByte p d m) = d)
      ∧ (enOf p (enClearByte p d m) = false ∧ blOf p (enClearByte p d m) = true ∧ rwOf p (enClearByte p d m) = false
        ∧ rsOf p (enClearByte p d m) = m ∧ hiNibble (enClearByte p d m) = d)
      ∧ prewriteByte p d m = enClearByte p d m
      ∧ ∀ on, enOf p (backlightByte p on) = false ∧ rwOf p (backlightByte p on) = false
          ∧ blOf p (backlightByte p on) = on

/-! ### The transport -/

/-- 40_transport R140: the write to CFG.addr and its settle delay, or `TransportError` with "no settle delay, no retry". An
answered write moves `TX.phase` to the frame's next bus write (10_state R43); that it stays at the last one is the model's
choice (log 10). At a failing end, what becomes of the shared ROT while another requester rotates, kept where 60_exceptions
R280 (d) clears it (log 25), and of the other requesters' modes where the operation is INIT (log 9) is the model's choice.
-/
def Obligations.BusWriteSettlesOrEnds : Prop :=
  ∀ (c : Cfg) (q : Seq) (s : State) (v : Byte), s.InOp c q →
    CallRuns (.busWrite v) s [.busWrite c.addr v .ok, .wait 100]
      ∧ (s.answersOk 1 → ∃ t, exec (.busWrite v) s = .next t ∧ t.tx = s.tx.map (fun f =>
          { f with phase := if f.phase + 1 < (if s.par.prewrite then 6 else 4) then f.phase + 1 else f.phase }))

/-- 30_encoding R101, R103, R106: each bus-byte row is one bus write of its byte, of the parameters' flags. At a failing
end, what becomes of the shared ROT while another requester rotates, kept where 60_exceptions R280 (d) clears it (log 25),
and of the other requesters' modes where the operation is INIT (log 9) is the model's choice. -/
def Obligations.BusByteRowsAreBusWrites : Prop :=
  ∀ (c : Cfg) (q : Seq) (s : State), s.InOp c q →
    (∀ (d : Nibble) (bl en rw rs : Bool),
        CallRuns (.busByte d bl en rw rs) s
          [.busWrite c.addr (nibbleByte d ||| flagIf rs s.par.bitRs ||| flagIf rw s.par.bitRw ||| flagIf bl s.par.bitBl
              ||| flagIf en s.par.bitEn) .ok, .wait 100])
      ∧ (∀ (d : Nibble) (m : RegSel),
          CallRuns (.nibbleEnSet d m) s
            [.busWrite c.addr (nibbleByte d ||| flagIf m.isData s.par.bitRs ||| s.par.bitBl ||| s.par.bitEn) .ok, .wait 100]
          ∧ CallRuns (.nibbleEnClear d m) s
              [.busWrite c.addr (nibbleByte d ||| flagIf m.isData s.par.bitRs ||| s.par.bitBl) .ok, .wait 100]
          ∧ CallRuns (.nibblePrewrite d m) s
              [.busWrite c.addr (nibbleByte d ||| flagIf m.isData s.par.bitRs ||| s.par.bitBl) .ok, .wait 100])
      ∧ CallRuns .backlightOn s [.busWrite c.addr s.par.bitBl .ok, .wait 100]
      ∧ CallRuns .backlightOff s [.busWrite c.addr 0x00#8 .ok, .wait 100]

/-- 40_transport R141: one event, `Wait(0)` too, and nothing else changes. -/
def Obligations.WaitIsOneEvent : Prop :=
  ∀ (q : Seq) (s : State) (t : Nat), s.seq = some q →
    exec (.wait t) s = .next { s with trace := s.trace ++ [.wait t], seq := some { q with pos := q.pos + 1 } }

/-- 40_transport R142: the enable strobe, with its waits, and the pre-write where the parameter asks for it. At a failing
end, what becomes of the shared ROT while another requester rotates, kept where 60_exceptions R280 (d) clears it (log 25),
and of the other requesters' modes where the operation is INIT (log 9) is the model's choice. -/
def Obligations.NibbleIsOneEnableStrobe : Prop :=
  ∀ (c : Cfg) (q : Seq) (s : State) (x : Byte) (m : RegSel), s.par.wf = true → s.InOp c q → lowNibbleClear x = true →
    let b := x ||| flagIf m.isData s.par.bitRs ||| s.par.bitBl
    CallRuns (.nibble x m) s
      ((if s.par.prewrite then [.busWrite c.addr b .ok, .wait 100] else [])
        ++ [.busWrite c.addr (b ||| s.par.bitEn) .ok, .wait 100, .wait 500,
            .busWrite c.addr ((b ||| s.par.bitEn) &&& ~~~s.par.bitEn) .ok, .wait 100, .wait 100])

/-- 30_encoding R104: "The frame is the nibble frame of `hi` followed by the nibble frame of `lo`, both in mode `m`". At a
failing end, what becomes of the shared ROT while another requester rotates, kept where 60_exceptions R280 (d) clears it
(log 25), and of the other requesters' modes where the operation is INIT (log 9) is the model's choice. -/
def Obligations.CommandFrameIsTwoNibbleFrames : Prop :=
  ∀ (c : Cfg) (q : Seq) (s : State) (h l : Nibble) (m : RegSel), s.InOp c q →
    CallRuns (.commandFrame h l m) s (nibbleEvents s.par c.addr m h ++ nibbleEvents s.par c.addr m l)

/-- 30_encoding R107 to R111, 40_transport R143: each LCD command or data byte, and WRITE_CMD called by a rule, is one
command frame of its byte, which takes the lock and loads `TX.byte` and `TX.mode` first, `TX.phase` being 0 (10_state R43).
At a failing end, what becomes of the shared ROT while another requester rotates, kept where 60_exceptions R280 (d) clears
it (log 25), and of the other requesters' modes where the operation is INIT (log 9) is the model's choice. -/
def Obligations.LcdBytesAreCommandFrames : Prop :=
  ∀ (c : Cfg) (q : Seq) (s : State), s.InCall c q →
    let frame := fun (i : Instr) (m : RegSel) (b : Byte) => CallRuns i s (frameEvents s.par c.addr m b)
      ∧ ∃ t, exec i s = .next t ∧ t.lock = some s.cur ∧ t.tx = some { byte := b, mode := m, phase := 0 }
    frame .wake .instruction 0x03#8 ∧ frame .set4bit .instruction 0x02#8 ∧ frame .displayOn .instruction 0x0C#8
      ∧ frame .clearDisplay .instruction 0x01#8 ∧ frame .entryModeLeft .instruction 0x06#8
      ∧ frame .returnHome .instruction 0x02#8
      ∧ (∀ n, frame (.functionSet n) .instruction (if n then 0x28#8 else 0x20#8))
      ∧ (∀ a, frame (.setCgram a) .instruction (0x40#8 ||| a.setWidth 8))
      ∧ (∀ a, frame (.setDdram a) .instruction (0x80#8 ||| a.setWidth 8))
      ∧ (∀ d, frame (.data d) .data d)
      ∧ (∀ b m, frame (.writeCmd b m) m b)

/-- 40_transport R143: one command frame of the byte as it is, `(DONE, none)`, and at a failing write `TransportError`
with the rest of the frame not sent; "As a host operation WRITE_CMD changes no block state except `STATUS`", TX being
loaded while it runs. -/
def Obligations.WriteCmdSendsOneFrame : Prop :=
  ∀ (c : Cfg) (s : State) (b : Byte) (m : RegSel), s.Ready c →
    Performs (.writeCmd b m) s s s (frameEvents s.par c.addr m b) (.ok .done .none)
      ∧ ∃ t, exec (.writeCmd b m) s = .next t ∧ t.lock = some s.cur ∧ t.tx = some { byte := b, mode := m, phase := 0 }

/-- 40_transport R144: a requester that finds the lock held "holds (makes no step) until the holder releases it"; one
that finds it free takes it before its first write, a command frame loading TX (R143), a BACKLIGHT write leaving it. And 20_memory R81, R85, R87, 60_exceptions R288, with any number of
requesters and whichever of them moves: only the lock's holder writes the bus, no other one releases the lock or touches
TX, no move touches another's procedure, and CFG stays as it is while the lock is held, so a frame reaches the bus whole and
at one address (20_memory R71; that an INIT waits for this is the model's choice, log 32). That every requester has its own SEQ
and that the input `turns` says who moves is the model's (log 9). -/
def Obligations.HeldLockHoldsRequester : Prop :=
  (∀ (i : Instr) (q : Seq) (s : State), i.takesLock = true → s.seq = some q →
      (∀ r, s.lock = some r → ∃ j : Instr, (∀ u : State, u.seq.isSome = true → exec j u = exec i u)
          ∧ exec i s = .next { s with seq := some { q with todo := .call j :: q.todo } })
        ∧ (s.lock = none → ∃ t, exec i s = .next t ∧ t.lock = some s.cur ∧ t.trace = s.trace ∧ t.cfg = s.cfg
            ∧ t.win = s.win ∧ t.rot = s.rot ∧ t.mode = s.mode
            ∧ ((∀ on, i ≠ .backlight on) → ∃ b m, t.tx = some { byte := b, mode := m, phase := 0 })
            ∧ ((∃ on, i = .backlight on) → t.tx = s.tx)))
    ∧ ∀ s t : State, s.Exclusive → step s = .next t →
        t.Exclusive
          ∧ (∃ evs, t.trace = s.trace ++ evs
              ∧ ((∃ a v ans, Event.busWrite a v ans ∈ evs) → s.lock = some s.takeTurn.cur))
          ∧ (∀ r, s.lock = some r → s.takeTurn.cur ≠ r → t.lock = some r ∧ t.tx = s.tx)
          ∧ (s.lock.isSome = true → t.cfg = s.cfg)
          ∧ t.parked.map (fun r => (r.id, r.seq)) = s.takeTurn.parked.map (fun r => (r.id, r.seq))

/-- 40_transport R146: when every frame completed, "the decoded stream is exactly the list of `(M, b)` of the
`WRITE_CMD`s in trace order", for every legal choice of the flag bits and with or without the pre-write. -/
def Obligations.DecodedStreamIsTheCommandList : Prop :=
  ∀ (p : Params) (addr : BitVec 7) (l : List (RegSel × Byte)), p.wf = true →
    decodedStream p addr (streamEvents p addr l) = some l

/-- 40_transport R145: "a BACKLIGHT byte never does": between frames it latches nothing and shifts no pairing. -/
def Obligations.BacklightLatchesNothing : Prop :=
  ∀ (p : Params) (addr : BitVec 7) (l l' : List (RegSel × Byte)) (on : Bool), p.wf = true →
    decodedStream p addr
        (streamEvents p addr l ++ (writeEvents addr (backlightByte p on) ++ streamEvents p addr l')) = some (l ++ l')

/-- 70_reset R324, R314: the sums of the waits, and the bus writes, of a bus write, a nibble frame and a sequence of
command frames. -/
def Obligations.FramesKeepTheirMinimumTimes : Prop :=
  ∀ (p : Params) (addr : BitVec 7) (v : Byte) (d : Nibble) (m : RegSel) (l : List (RegSel × Byte)),
    minTime (writeEvents addr v) = 100 ∧ busWrites (writeEvents addr v) = 1
      ∧ minTime (nibbleEvents p addr m d) = (if p.prewrite then 900 else 800)
      ∧ busWrites (nibbleEvents p addr m d) = (if p.prewrite then 3 else 2)
      ∧ minTime (streamEvents p addr l) = (if p.prewrite then 1800 else 1600) * l.length
      ∧ busWrites (streamEvents p addr l) = (if p.prewrite then 6 else 4) * l.length

/-! ### The display controller -/

/-- 41_display_controller R160, R161: INIT's checks, and, when they pass, the state it leaves before any bus write. That a
refused INIT has the next state of the first clause is the model's choice (log 1), and so is that the state change waits, in
the statement `configure`, for the end of a frame under way (20_memory R71, R81; log 32). -/
def Obligations.InitChecksAndConfigures : Prop :=
  (∀ (s : State) (lines lineLength addr : Nat) (b e : Str) (interval : Nat), s.seq = none →
    let c : Cfg := { lines := lines, lineLength := lineLength, addr := BitVec.ofNat 7 addr, beginM := b, endM := e,
                     rotInterval := interval }
    ((¬ (lines = 1 ∨ lines = 2 ∨ lines = 4) ∨ lineLength < 1 ∨ 0x7F < addr ∨ lineLength < b.length + e.length + 1) →
        exec (.init lines lineLength addr b e interval) s = .next (s.afterOp [] 0 (.refused .badConfig)))
      ∧ ((lines = 1 ∨ lines = 2 ∨ lines = 4) → 1 ≤ lineLength → addr ≤ 0x7F → b.length + e.length + 1 ≤ lineLength →
        (s.lock = none → ∃ t, exec (.init lines lineLength addr b e interval) s = .next t ∧ t.mode = .busy
            ∧ t.cfg = some c ∧ t.win = none ∧ t.cancel = false ∧ t.rot = s.rot ∧ t.trace = s.trace ∧ t.status = s.status)
          ∧ ∀ r, s.lock = some r → exec (.init lines lineLength addr b e interval) s = .next { s with
              mode := .busy
              seq := some { op := .init lines lineLength addr b e interval, pos := 0, todo := [.configure c],
                            ret := .done .initialized .none, val := .none } }))
    ∧ ∀ (s : State) (q : Seq) (c : Cfg) (rest : List Stmt), s.seq = some q → s.undisturbed → q.todo = .configure c :: rest →
        (∀ r, s.lock = some r → step s = .next s)
          ∧ (s.lock = none → ∃ t, step s = .next t ∧ t.cfg = some c ∧ t.win = none ∧ t.cancel = false ∧ t.mode = s.mode
              ∧ t.rot = s.rot ∧ t.trace = s.trace ∧ t.status = s.status ∧ t.lock = none)

/-- 41_display_controller R162 to R164: the eight frames in order, `Wait(T_INIT)`, MODE IDLE and `(INITIALIZED, none)`; at
a failing write MODE UNINIT, CFG new, no window. What the other requesters learn of it is the model's (log 9). -/
def Obligations.InitSendsItsSequence : Prop :=
  ∀ (s : State) (lines lineLength addr : Nat) (b e : Str) (interval : Nat),
    (s.mode = .uninit ∨ s.mode = .idle) → s.seq = none → s.lock = none → s.tx = none → s.undisturbed →
    (lines = 1 ∨ lines = 2 ∨ lines = 4) → 1 ≤ lineLength → addr ≤ 0x7F → b.length + e.length + 1 ≤ lineLength →
    let t : State := { s with
      cfg := some { lines := lines, lineLength := lineLength, addr := BitVec.ofNat 7 addr, beginM := b, endM := e,
                    rotInterval := interval }
      win := none
      cancel := false }
    Performs (.init lines lineLength addr b e interval) s
      { t with mode := .idle, parked := s.parked.map (Requester.afterInit true) }
      { t with mode := .uninit, parked := s.parked.map (Requester.afterInit false) }
      (streamEvents s.par (BitVec.ofNat 7 addr)
          [(.instruction, 0x03#8), (.instruction, 0x03#8), (.instruction, 0x03#8), (.instruction, 0x02#8),
           (.instruction, if 2 ≤ lines then 0x28#8 else 0x20#8), (.instruction, 0x0C#8), (.instruction, 0x01#8),
           (.instruction, 0x06#8)]
        ++ [.wait 200000])
      (.ok .initialized .none)

/-- 41_display_controller R165: clear-display, then return-home; "CLEAR does not touch `WIN`". -/
def Obligations.ClearSendsClearAndHome : Prop :=
  ∀ (c : Cfg) (s : State), s.Ready c →
    Performs .clear s s s (streamEvents s.par c.addr [(.instruction, 0x01#8), (.instruction, 0x02#8)]) (.ok .done .none)

/-- 41_display_controller R166: one unframed write, `BIT_BL` or 0x00, and its settle delay; no backlight state. -/
def Obligations.BacklightWritesOneByte : Prop :=
  ∀ (c : Cfg) (s : State) (on : Bool), s.Ready c →
    Performs (.backlight on) s s s [.busWrite c.addr (if on then s.par.bitBl else 0x00#8) .ok, .wait 100] (.ok .done .none)

/-- 41_display_controller R167: the two refusals, count before size, or SET_CGRAM of address 0 and every glyph row in
order as data. That a refused LOAD_CHARS has the next state of those clauses is the model's choice (log 1). -/
def Obligations.LoadCharsStreamsGlyphs : Prop :=
  ∀ (c : Cfg) (s : State) (glyphs : List Str), s.Ready c →
    (8 < glyphs.length → exec (.loadChars glyphs) s = .next (s.afterOp [] 0 (.refused .glyphCount)))
      ∧ (glyphs.length ≤ 8 → (∃ g ∈ glyphs, g.length ≠ 8) →
          exec (.loadChars glyphs) s = .next (s.afterOp [] 0 (.refused .glyphSize)))
      ∧ (glyphs.length ≤ 8 → (∀ g ∈ glyphs, g.length = 8) →
          Performs (.loadChars glyphs) s s s
            (streamEvents s.par c.addr ((.instruction, 0x40#8) :: dataStream glyphs.flatten)) (.ok .done .none))

/-- 41_display_controller R168: `InvalidLineError` first, then `DDRAM_RANGE`, else one SET_DDRAM frame of the address. That
the refused POS_CURSOR has the next state of the second clause is the model's choice (log 1). -/
def Obligations.PosCursorSetsDdramAddress : Prop :=
  ∀ (c : Cfg) (s : State) (line col : Nat), s.Ready c →
    (c.badLine line → exec (.posCursor line col) s = .next (s.afterOp [] 0 (.err .invalidLineError)))
      ∧ (∀ a, 1 ≤ line → line ≤ c.lines → ddramAddr line col = some a → 0x7F < a →
          exec (.posCursor line col) s = .next (s.afterOp [] 0 (.refused .ddramRange)))
      ∧ ∀ a, c.reaches line col a →
          Performs (.posCursor line col) s s s (streamEvents s.par c.addr [(.instruction, 0x80#8 ||| BitVec.ofNat 8 a)])
            (.ok .done .none)

/-- 41_display_controller R169: the cursor, then every byte of the string as data, of any length; the cursor's checks
before any write. That the refused WRITE_RAW has the next state of the second clause is the model's choice (log 1). -/
def Obligations.WriteRawSendsEveryByte : Prop :=
  ∀ (c : Cfg) (s : State) (str : Str) (line pos : Nat), s.Ready c →
    (c.badLine line → exec (.writeRaw str line pos) s = .next (s.afterOp [] 0 (.err .invalidLineError)))
      ∧ (∀ a, 1 ≤ line → line ≤ c.lines → ddramAddr line pos = some a → 0x7F < a →
          exec (.writeRaw str line pos) s = .next (s.afterOp [] 0 (.refused .ddramRange)))
      ∧ ∀ a, c.reaches line pos a →
          Performs (.writeRaw str line pos) s s s
            (streamEvents s.par c.addr ((.instruction, 0x80#8 ||| BitVec.ofNat 8 a) :: str.map (fun b => (.data, b))))
            (.ok .done .none)

/-! ### Text layout -/

/-- 42_text_layout R190 to R195: the checks in their order and every arm of `pad`; no event, no state but STATUS. -/
def Obligations.PadPadsByAlignment : Prop :=
  ∀ (s : State) (str : Str) (n : Nat) (align : Align), s.seq = none → s.mode ≠ .uninit →
    (∀ ch, n < str.length → exec (.pad str n ch align) s = .next (s.afterOp [] 0 (.err .tooLongError)))
      ∧ (∀ ch, str.length ≤ n → ch.length ≠ 1 →
          exec (.pad str n ch align) s = .next (s.afterOp [] 0 (.err .invalidPadCharError)))
      ∧ ∀ ch : Byte, str.length ≤ n →
          let p := n - str.length
          exec (.pad str n [ch] align) s = .next (s.afterOp [] 0 (.ok .padded (.str
            (if str.length = n then str
             else match align with
              | .right => List.replicate p ch ++ str
              | .center => List.replicate (p / 2) ch ++ (if p % 2 = 1 then str ++ [0x20#8] else str)
                  ++ List.replicate (p / 2) ch
              | .left => str ++ List.replicate p ch
              | .leftDefault => str ++ List.replicate p ch))))

/-- 42_text_layout R196, R197: the table of line bases, and an address that is base plus column "with no wrap". -/
def Obligations.DdramAddressIsBasePlusColumn : Prop :=
  (∀ col, ddramAddr 1 col = some (0x00 + col) ∧ ddramAddr 2 col = some (0x40 + col)
      ∧ ddramAddr 3 col = some (0x14 + col) ∧ ddramAddr 4 col = some (0x54 + col))
    ∧ ∀ line, lineBase line = none ↔ line = 0 ∨ 4 < line

/-- 42_text_layout R198: the laws of `pad`. -/
def Obligations.PadLaws : Prop :=
  ∀ (str : Str) (n : Nat) (ch : Byte) (align : Align), str.length ≤ n →
    ∃ t, padStr str n [ch] align = .ok t ∧ t.length = n
      ∧ (align = .left → t.take str.length = str ∧ (∀ b ∈ t.drop str.length, b = ch)
          ∧ (t.rdropWhile (fun b => b == ch) = str ↔ str.getLast? ≠ some ch))

/-! ### The scroll window -/

/-- 43_scroll_window R210: the new window, replacing any earlier one, its begin marker hidden and its end marker shown. -/
def Obligations.WinCreateStartsAtBufferStart : Prop :=
  ∀ (q : Seq) (s : State) (buf : Str) (lcdLen line : Nat) (b e : Str), s.seq = some q →
    lcdLen < buf.length → 1 ≤ lcdLen → b.length + e.length ≤ lcdLen - 1 →
    let w : Window :=
      { buf := buf, ws := 0, wl := lcdLen - e.length, line := line, beginM := b, endM := e, lcdLen := lcdLen }
    exec (.winCreate buf lcdLen line b e) s = .next { s with win := some w }
      ∧ w.leftVisible = false ∧ w.rightVisible = true

/-- 43_scroll_window R212: the view, and "no mutation" of the window. That a called procedure's value goes to `Seq.val` is
the model's (log 15). -/
def Obligations.WinViewShowsMarkersAndText : Prop :=
  ∀ (q : Seq) (s : State) (w : Window), s.seq = some q → s.win = some w →
    let view := (if 0 < w.ws then w.beginM else []) ++ (w.buf.drop w.ws).take w.wl
      ++ (if w.ws + w.wl < w.buf.length then w.endM else [])
    exec .winView s = .next { s with seq := some { q with val := .str view } }

/-- 43_scroll_window R213: the check against the current width, then the move and the fresh width (R211). At a failing end,
what becomes of the shared ROT while another requester rotates, kept where 60_exceptions R280 (d) clears it (log 25), and of
the other requesters' modes where the operation is INIT (log 9) is the model's choice. -/
def Obligations.WinFwdMovesOrRaises : Prop :=
  ∀ (c : Cfg) (q : Seq) (s : State) (w : Window) (n : Nat), s.InOp c q → s.win = some w →
    (w.buf.length < w.ws + w.wl + n → exec (.winFwd n) s = .next (s.failedOp .boundaryError [] 0))
      ∧ (w.ws + w.wl + n ≤ w.buf.length → exec (.winFwd n) s = .next { s with win := some (w.movedTo (w.ws + n)) })

/-- 43_scroll_window R214: the check against zero, then the move and the fresh width (R211). At a failing end, what becomes
of the shared ROT while another requester rotates, kept where 60_exceptions R280 (d) clears it (log 25), and of the other
requesters' modes where the operation is INIT (log 9) is the model's choice. -/
def Obligations.WinBwdMovesOrRaises : Prop :=
  ∀ (c : Cfg) (q : Seq) (s : State) (w : Window) (n : Nat), s.InOp c q → s.win = some w →
    (w.ws < n → exec (.winBwd n) s = .next (s.failedOp .boundaryError [] 0))
      ∧ (n ≤ w.ws → exec (.winBwd n) s = .next { s with win := some (w.movedTo (w.ws - n)) })

/-- 43_scroll_window R215 (b), (c), (d): the width is at least 1, a view is as wide as the line exactly while the window's
edge is inside the buffer, and single forward moves and backward moves keep it inside. -/
def Obligations.WindowViewWidth : Prop :=
  ∀ w : Window, w.legal = true →
    1 ≤ w.wl
      ∧ (w.ws + w.wl ≤ w.buf.length → w.view.length = w.lcdLen)
      ∧ (w.buf.length < w.ws + w.wl → w.view.length < w.lcdLen)
      ∧ (∀ n w', n ≤ 1 → w.ws + w.wl ≤ w.buf.length → w.fwd n = some w' → w'.ws + w'.wl ≤ w'.buf.length)
      ∧ ∀ n w', w.ws + w.wl ≤ w.buf.length → w.bwd n = some w' → w'.ws + w'.wl ≤ w'.buf.length

/-- 43_scroll_window R217: from creation, `WIN_FWD 1` succeeds exactly `L - N + b` times, and where the last one lands. -/
def Obligations.ForwardCountToTheBufferEnd : Prop :=
  ∀ (buf : Str) (lcdLen line : Nat) (b e : Str), winCreatePre buf lcdLen b e = true →
    let m := buf.length - lcdLen + b.length
    ∃ w, (fun o : Option Window => o.bind (fun w => w.fwd 1))^[m] (some (newWindow buf lcdLen line b e)) = some w
      ∧ w.ws = m ∧ w.wl = lcdLen - b.length ∧ w.ws + w.wl = buf.length ∧ w.fwd 1 = none

/-- 43_scroll_window R216, R219: the moves between the named states, and the one place where R219's words do not follow
from R211 and R214 (log 28): a backward move out of the overshoot state may land on END. -/
def Obligations.WindowMovesBetweenPhases : Prop :=
  (∀ (w : Window) (n : Nat), w.legal = true → 1 ≤ n →
      (w.phase = .finish ∨ w.phase = .overshoot → w.fwd n = none)
        ∧ (w.phase = .start → w.bwd n = none)
        ∧ (∀ w', w.fwd n = some w' → w'.phase ≠ .start)
        ∧ (∀ w', w.bwd n = some w' → n = w.ws → w'.phase = .start)
        ∧ (∀ w', w.bwd n = some w' → n < w.ws → w.phase ≠ .overshoot → w'.phase = .middle))
    ∧ (let w := { newWindow (List.replicate 20 0x61#8) 16 1 [0x3C#8] [0x3E#8] with ws := 6, wl := 15 }
       w.phase = .overshoot ∧ w.view.length = 15 ∧ (w.bwd 1).map (fun w' => w'.phase) = some .finish)

/-! ### The render policy -/

/-- 44_render_policy R241: the window destroyed, clear and home sent, whatever the line. -/
def Obligations.DisplayOfEmptyStringClears : Prop :=
  ∀ (c : Cfg) (s : State) (line : Nat) (align : Align) (ov : Overflow) (budget : Nat), s.Ready c →
    Performs (.display [] line align ov budget) s { s with win := none } { s with win := none }
      (streamEvents s.par c.addr [(.instruction, 0x01#8), (.instruction, 0x02#8)]) (.ok .cleared .none)

/-- 44_render_policy R242: the window destroyed, the padded string written from column 0; "The window is destroyed even
when the line check then raises". -/
def Obligations.DisplayThatFitsIsStatic : Prop :=
  ∀ (c : Cfg) (s : State) (str : Str) (line : Nat) (align : Align) (ov : Overflow) (budget : Nat), s.Ready c →
    1 ≤ str.length → str.length ≤ c.lineLength →
    (c.badLine line → exec (.display str line align ov budget) s
        = .next (({ s with win := none } : State).afterOp [] 0 (.err .invalidLineError)))
      ∧ ∀ a, c.reaches line 0 a → ∃ t, padStr str c.lineLength [0x20#8] align = .ok t ∧ t.length = c.lineLength
          ∧ Performs (.display str line align ov budget) s { s with win := none } { s with win := none }
              (streamEvents s.par c.addr ((.instruction, 0x80#8 ||| BitVec.ofNat 8 a) :: t.map (fun b => (.data, b))))
              (.ok .static .none)

/-- 44_render_policy R243, 60_exceptions R277: an unknown policy "emits no event and changes no state". -/
def Obligations.UnknownOverflowIsNoOp : Prop :=
  ∀ (c : Cfg) (s : State) (str : Str) (line : Nat) (align : Align) (v : Byte) (budget : Nat), s.Ready c →
    c.lineLength < str.length →
    exec (.display str line align (.unknown v) budget) s = .next (s.afterOp [] 0 (.ok .notDisplayed .none))

/-- 44_render_policy R244: the window created, its view rendered and returned; it "exists even when the render raises". -/
def Obligations.DisplayScrollCreatesWindow : Prop :=
  ∀ (c : Cfg) (s : State) (str : Str) (line : Nat) (align : Align) (budget : Nat), s.Ready c → c.legal = true →
    c.lineLength < str.length →
    let t : State := { s with win := some { buf := str, ws := 0, wl := c.lineLength - c.endM.length, line := line,
                                            beginM := c.beginM, endM := c.endM, lcdLen := c.lineLength } }
    let view := str.take (c.lineLength - c.endM.length) ++ c.endM
    (c.badLine line → exec (.display str line align .scroll budget) s
        = .next (t.afterOp [] 0 (.err .invalidLineError)))
      ∧ ∀ a, c.reaches line 0 a →
          Performs (.display str line align .scroll budget) s t t
            (streamEvents s.par c.addr ((.instruction, 0x80#8 ||| BitVec.ofNat 8 a) :: view.map (fun b => (.data, b))))
            (.ok .scrolling (.str view))

/-- 44_render_policy R245 without a CANCEL: the refusal, the state at the loop's start whatever the budget (0 is
unbounded), the line error at the first frame, and with a budget exactly that many frames, each the string rotated once
more between the literal markers, and the result `(ROTATED, budget)`. The shared ROT keeps what the rotate left in it while
another requester rotates (log 25). That a refused DISPLAY has the next state of the first clause is the model's choice (log
1). -/
def Obligations.DisplayRotateRendersBudgetFrames : Prop :=
  ∀ (c : Cfg) (s : State) (str : Str) (line : Nat) (align : Align) (budget : Nat), s.Ready c →
    c.lineLength < str.length →
    let left : Nat → Nat → State := fun turns frames => { s with
      win := none
      cancel := false
      rot := if s.othersRotate then some { s := rotl1^[turns] (str ++ [0x20#8, 0x20#8]), line := line, iter := frames,
                                           elapsed := frames * c.rotInterval, budget := budget } else none }
    (c.lineLength < 2 → exec (.display str line align .rotate budget) s
        = .next (s.afterOp [] 0 (.refused .rotateWidth)))
      ∧ (2 ≤ c.lineLength → ∃ u, exec (.display str line align .rotate budget) s = .next u ∧ u.mode = .rotating
          ∧ u.rot = some { s := str ++ [0x20#8, 0x20#8], line := line, iter := 0, elapsed := 0, budget := budget }
          ∧ u.win = none ∧ u.cancel = false ∧ u.trace = s.trace ∧ u.status = s.status)
      ∧ (2 ≤ c.lineLength → c.badLine line → CompletesWith (.display str line align .rotate budget) s
          ((left 1 0).afterOp [] 0 (.err .invalidLineError)))
      ∧ ∀ a, 2 ≤ c.lineLength → 1 ≤ budget → c.reaches line 0 a →
          let frame : Nat → List Event := fun k =>
            streamEvents s.par c.addr ((.instruction, 0x80#8 ||| BitVec.ofNat 8 a)
              :: (([0x3C#8] ++ (rotl1^[k + 1] (str ++ [0x20#8, 0x20#8])).take (c.lineLength - 2) ++ [0x3E#8]).map
                    (fun b => (.data, b))))
              ++ [.wait c.rotInterval]
          let evs := ((List.range budget).map frame).flatten
          (s.answersOk (busWrites evs) → CompletesWith (.display str line align .rotate budget) s
              ((left budget budget).afterOp evs (busWrites evs) (.ok .rotated (.count budget))))
            ∧ ∀ k, k < busWrites evs → s.failsAt k → CompletesWith (.display str line align .rotate budget) s
                ((left (k / busWrites (frame 0) + 1) (k / busWrites (frame 0))).afterOp (cutAt k evs) (k + 1)
                  (.err .transportError))

/-- 44_render_policy R246: rotate, render the frame, wait, count; a line error or a failing write ends the operation and
leaves out the wait and the counts. The shared ROT keeps the rotated string then while another requester rotates (log 25).
How a failing end moves the other requesters' modes, were the operation an INIT, is the model's choice too (log 9). -/
def Obligations.RotStepRendersOneFrame : Prop :=
  ∀ (c : Cfg) (q : Seq) (s : State) (r : Rot), s.InCall c q → s.mode = .rotating → s.rot = some r →
    2 ≤ c.lineLength → c.lineLength ≤ r.s.length →
    let str := r.s.drop 1 ++ r.s.take 1
    let t : State := { s with rot := some { r with s := str } }
    (c.badLine r.line → CompletesWith .rotStep s (t.failedOp .invalidLineError [] 0)) ∧ ∀ a, c.reaches r.line 0 a →
    let evs := streamEvents s.par c.addr ((.instruction, 0x80#8 ||| BitVec.ofNat 8 a)
        :: (([0x3C#8] ++ str.take (c.lineLength - 2) ++ [0x3E#8]).map (fun b => (.data, b)))) ++ [.wait c.rotInterval]
    (s.answersOk (busWrites evs) → CompletesWith .rotStep s
        { s.afterCall evs (busWrites evs) with
          rot := some { r with s := str, elapsed := r.elapsed + c.rotInterval, iter := r.iter + 1 } })
      ∧ ∀ k, k < busWrites evs → s.failsAt k →
          CompletesWith .rotStep s (t.failedOp .transportError (cutAt k evs) (k + 1))

/-- 44_render_policy R246: "the frames repeat with period `len(s) + 2`", `len(s) + 2` being the length of ROT.s. -/
def Obligations.RotationRepeatsWithItsLength : Prop :=
  ∀ (str : Str) (j : Nat), rotl1^[j + str.length] str = rotl1^[j] str
    ∧ (rotl1 str).length = str.length
    ∧ ∀ k, k < str.length → rotl1^[k] str = str.drop k ++ str.take k

/-- 44_render_policy R245, R252 (d), 70_reset R321: the loop's check, and that a rotating operation ends in no other way
than by CANCEL, by its budget, or by an error. ROT holds no value after the last rotate; it is shared, and keeps its values while
another requester rotates (10_state R42; log 25). -/
def Obligations.RotationEndsOnlyAsItsRuleSays : Prop :=
  (∀ (q : Seq) (s : State) (r : Rot), s.seq = some q → q.todo = [] → q.ret = .rotate → isInitOp q.op = false →
      s.mode = .rotating → s.rot = some r → s.lock = none → s.undisturbed →
      ((s.cancel = true ∨ (0 < r.budget ∧ r.iter = r.budget)) →
          step s = .next (({ s with
              seq := none
              mode := .idle
              rot := if s.othersRotate then s.rot else none
              cancel := false } : State).afterOp [] 0 (.ok .rotated (.count r.iter))))
        ∧ (¬ (s.cancel = true ∨ (0 < r.budget ∧ r.iter = r.budget)) →
          step s = .next { s with seq := some { q with todo := [.call .rotStep] } }))
    ∧ ∀ s t : State, s.Inv → s.mode = .rotating → step s = .next t → t.mode ≠ .rotating →
        (∃ e, t.results = s.results ++ [(s.cur, .err e)])
          ∨ ∃ r, s.rot = some r ∧ (s.cancel = true ∨ (0 < r.budget ∧ r.iter = r.budget))
              ∧ t.results = s.results ++ [(s.cur, .ok .rotated (.count r.iter))]

/-- 44_render_policy R247: latched in ROTATING, no effect elsewhere, its own result at once, in every mode. -/
def Obligations.CancelLatchesInRotating : Prop :=
  ∀ s : State, exec .cancel s = .next { s with
    cancel := if s.mode = .rotating then true else s.cancel
    status := some (.ok .done .none)
    results := s.results ++ [(s.cur, .ok .done .none)] }

/-- 44_render_policy R248, 60_exceptions R273, R282: the cursor, the raw string and the line as called by another procedure:
their frames, and a bad line ends the whole operation before any event. RENDER_LINE sends a line of N bytes and never raises
`TooLongError` (60_exceptions R274); the N bytes of a string outside R248's operand condition are a free value (log 30). At
a failing end, what becomes of the shared ROT while another requester rotates, kept where 60_exceptions R280 (d) clears it
(log 25), and of the other requesters' modes where the operation is INIT (log 9) is the model's choice. A POS_CURSOR or
WRITE_RAW called with an address above 0x7F, which no rule makes, is not in it. -/
def Obligations.CalledRendersRunOrRaise : Prop :=
  ∀ (c : Cfg) (q : Seq) (s : State) (str : Str) (line col : Nat), s.InCall c q →
    (c.badLine line → exec (.posCursor line col) s = .next (s.failedOp .invalidLineError [] 0)
        ∧ exec (.writeRaw str line col) s = .next (s.failedOp .invalidLineError [] 0)
        ∧ exec (.renderLine str line) s = .next (s.failedOp .invalidLineError [] 0))
      ∧ (∀ a, c.reaches line col a →
          CallRuns (.posCursor line col) s (streamEvents s.par c.addr [(.instruction, 0x80#8 ||| BitVec.ofNat 8 a)])
            ∧ CallRuns (.writeRaw str line col) s
                (streamEvents s.par c.addr ((.instruction, 0x80#8 ||| BitVec.ofNat 8 a) :: str.map (fun b => (.data, b)))))
      ∧ ∀ a, c.reaches line 0 a → ∃ v : Str, v.length = c.lineLength
          ∧ (str.length ≤ c.lineLength → v = str ++ List.replicate (c.lineLength - str.length) 0x20#8)
          ∧ CallRuns (.renderLine str line) s
              (streamEvents s.par c.addr ((.instruction, 0x80#8 ||| BitVec.ofNat 8 a) :: v.map (fun b => (.data, b))))

/-- 44_render_policy R249: NO_WINDOW, then `BoundaryError`, then the move, which stays made, and the moved view rendered and
returned. That a SCROLL_FWD refused with NO_WINDOW has the next state of the first clause is the model's choice (log 1). -/
def Obligations.ScrollFwdMovesAndRenders : Prop :=
  ∀ (c : Cfg) (s : State) (n : Nat), s.Ready c → s.Inv →
    (s.win = none → exec (.scrollFwd n) s = .next (s.afterOp [] 0 (.refused .noWindow)))
      ∧ ∀ w, s.win = some w →
        (w.buf.length < w.ws + w.wl + n → exec (.scrollFwd n) s = .next (s.afterOp [] 0 (.err .boundaryError)))
        ∧ (w.ws + w.wl + n ≤ w.buf.length →
            let w' := w.movedTo (w.ws + n)
            let t : State := { s with win := some w' }
            (c.badLine w.line → exec (.scrollFwd n) s = .next (t.afterOp [] 0 (.err .invalidLineError)))
              ∧ ∀ a, c.reaches w.line 0 a →
                  Performs (.scrollFwd n) s t t
                    (streamEvents s.par c.addr ((.instruction, 0x80#8 ||| BitVec.ofNat 8 a)
                      :: (w'.view ++ List.replicate (c.lineLength - w'.view.length) 0x20#8).map (fun b => (.data, b))))
                    (.ok .scrolling (.str w'.view)))

/-- 44_render_policy R250: the same backwards. That a SCROLL_BWD refused with NO_WINDOW has the next state of the first
clause is the model's choice (log 1). -/
def Obligations.ScrollBwdMovesAndRenders : Prop :=
  ∀ (c : Cfg) (s : State) (n : Nat), s.Ready c → s.Inv →
    (s.win = none → exec (.scrollBwd n) s = .next (s.afterOp [] 0 (.refused .noWindow)))
      ∧ ∀ w, s.win = some w →
        (w.ws < n → exec (.scrollBwd n) s = .next (s.afterOp [] 0 (.err .boundaryError)))
        ∧ (n ≤ w.ws →
            let w' := w.movedTo (w.ws - n)
            let t : State := { s with win := some w' }
            (c.badLine w.line → exec (.scrollBwd n) s = .next (t.afterOp [] 0 (.err .invalidLineError)))
              ∧ ∀ a, c.reaches w.line 0 a →
                  Performs (.scrollBwd n) s t t
                    (streamEvents s.par c.addr ((.instruction, 0x80#8 ||| BitVec.ofNat 8 a)
                      :: (w'.view ++ List.replicate (c.lineLength - w'.view.length) 0x20#8).map (fun b => (.data, b))))
                    (.ok .scrolling (.str w'.view)))

/-- 44_render_policy R251: the current view, or NO_WINDOW; "State written: none; no bus event". That a refused VIEW has the
next state of the first clause is the model's choice (log 1). -/
def Obligations.ViewReturnsCurrentView : Prop :=
  ∀ s : State, s.seq = none → s.mode ≠ .uninit →
    (s.win = none → exec .view s = .next (s.afterOp [] 0 (.refused .noWindow)))
      ∧ ∀ w, s.win = some w → exec .view s = .next (s.afterOp [] 0 (.ok .viewed (.str
          ((if 0 < w.ws then w.beginM else []) ++ (w.buf.drop w.ws).take w.wl
            ++ (if w.ws + w.wl < w.buf.length then w.endM else [])))))

/-! ### Rules of the whole machine -/

/-- 44_render_policy R253, 10_state R31 to R35, R38, R39: which instructions may write WIN and CFG, and that only the
offset and the width of a window change while it exists. -/
def Obligations.WindowAndConfigLifecycle : Prop :=
  ∀ (i : Instr) (s t : State), exec i s = .next t →
    (isInitOp i = false → t.cfg = s.cfg)
      ∧ ((∀ str line al ov bu, i ≠ .display str line al ov bu) → (∀ buf n line b e, i ≠ .winCreate buf n line b e) →
          isInitOp i = false →
          (t.win = s.win ∨ ∃ n, i = .scrollFwd n ∨ i = .scrollBwd n ∨ i = .winFwd n ∨ i = .winBwd n)
            ∧ ∀ w w', s.win = some w → t.win = some w' →
                w'.buf = w.buf ∧ w'.beginM = w.beginM ∧ w'.endM = w.endM ∧ w'.line = w.line ∧ w'.lcdLen = w.lcdLen)

/-- 70_reset R311: before INIT every other host operation is refused with `NOT_INIT` and has no effect, and CANCEL
"returns `Ok(DONE)` and does nothing". That a request refused with NOT_INIT has this next state, of which a claim can be
proved, is the model's choice (log 1). -/
def Obligations.NothingRunsBeforeInit : Prop :=
  ∀ (i : Instr) (s : State), s.mode = .uninit → s.seq = none → i.hostOp = true → isInitOp i = false →
    exec i s = .next (s.afterOp [] 0 (if i = .cancel then .ok .done .none else .refused .notInit))

/-- The step runs the fetched request, or the operation's next statement, and nothing around it but taking it out of the
port or of the statement list (60_exceptions R285, 00_scope R20); with no operation in progress and no request it changes
nothing (70_reset R310; that such a block has a step is the model's, log 17). The third clause is about the model's own reading and
placing of table words (log 12); the fourth, that a turn brings the requester it names to move, with the others' registers
and all that is shared as before, and that a number no other requester has leaves the current one to move, is about the
model's own turns (60_exceptions R288; log 9). -/
def Obligations.StepRunsTheFetchedInstruction : Prop :=
  (∀ (s : State) (a : Arrival) (rest : List Arrival) (i : Instr), s.seq = none → s.turns = [] → s.port = a :: rest →
      decode (.request a.req) = .ok i → step s = exec i { s with port := rest })
    ∧ (∀ (s : State) (q : Seq) (i : Instr) (rest : List Stmt), s.seq = some q → s.undisturbed →
        q.todo = .call i :: rest → step s = exec i { s with seq := some { q with todo := rest } })
    ∧ (∀ (s : State) (nbits w : Nat) (i : Instr), decodeTableWord nbits w = some i →
        ∃ u, step (s.withFetchWord nbits w) = exec i u ∧ u.trace = s.trace ∧ u.bus = s.bus ∧ u.win = s.win)
    ∧ (∀ (s : State) (k : Nat) (rest : List Nat), s.turns = k :: rest →
        (∀ r, s.parked.find? (fun r => r.id == k) = some r → step s = stepCur { s with
            turns := rest
            cur := r.id
            mode := r.mode
            seq := r.seq
            status := r.status
            port := r.port
            parked := { id := s.cur, mode := s.mode, seq := s.seq, status := s.status, port := s.port }
              :: s.parked.filter (fun r => r.id != k) })
          ∧ ((∀ r ∈ s.parked, r.id ≠ k) → step s = stepCur { s with turns := rest }))
    ∧ ∀ s : State, s.seq = none → s.turns = [] → s.port = [] → step s = .next s

/-- 60_exceptions R285: "CANCEL is taken at once in every mode", ahead of the operation in progress and of the requests
before it. That STATUS takes its answer while the operation goes on is the model's reading (log 16), and that a request
carries the event number of its arrival is the model's (log 7). -/
def Obligations.CancelIsTakenAtOnce : Prop :=
  ∀ (s : State) (q : Seq) (before after : List Arrival) (a : Arrival), s.seq = some q → s.turns = [] →
    s.port = before ++ a :: after → (∀ b ∈ before, b.req ≠ Request.cancel) → a.req = Request.cancel →
    a.notBefore ≤ s.trace.length →
    step s = .next { s with
      port := before ++ after
      cancel := if s.mode = .rotating then true else s.cancel
      status := some (.ok .done .none)
      results := s.results ++ [(s.cur, .ok .done .none)] }

/-- 60_exceptions R285: while an operation executes a further request "is held: it is neither refused nor run". A CANCEL
that has not arrived yet is as if it were not there (log 7). -/
def Obligations.OtherRequestsAreHeld : Prop :=
  ∀ s t : State, s.Inv → s.seq.isSome = true → (∀ a ∈ s.port, a.req = Request.cancel → s.trace.length < a.notBefore) →
    step s = .next t → t.port = s.port

/-- 10_state R37: "`MODE` changes only as follows". One step makes the two moves of a rotating DISPLAY's start, `IDLE` to
`BUSY` to `ROTATING` (log 24). -/
def Obligations.ModeChangesOnlyAsListed : Prop :=
  ∀ s t : State, s.Inv → step s = .next t → modeMove s.inInit s.mode t.mode = true

/-- The invariant of the machine with one requester is kept by every step, and so is that of what any number of requesters
share: ROT holds values just while some requester rotates, ROT.cancel is latched only then (10_state R42), and CFG is there for
whoever reads it (R50). -/
def Obligations.InvariantKeptByEveryStep : Prop :=
  (∀ s t : State, s.Inv → step s = .next t → t.Inv) ∧ ∀ s t : State, s.Shared → step s = .next t → t.Shared

/-- And reset has it; and the invariants of several requesters whatever the parameters, REQUESTERS among them. -/
def Obligations.InvariantHoldsAtReset : Prop :=
  State.reset.Inv ∧ State.reset.rwClear ∧ ∀ p : Params, (State.resetWith p).Exclusive ∧ (State.resetWith p).Shared

/-- 10_state R49: "no rule of this spec reads one": under the invariants no step faults, with one requester or with any number
of them, and the only requests without a meaning are those whose record is not of their tag's list (log 11). -/
def Obligations.NoElementIsReadWithoutValue : Prop :=
  (∀ s : State, s.Inv → (∃ t, step s = .next t)
      ∨ (step s = .refused .malformedOperands ∧ s.seq = none
          ∧ ∃ a rest, s.port = a :: rest ∧ decode (.request a.req) = .error .malformedOperands))
    ∧ ∀ s : State, s.Shared → (∃ t, step s = .next t)
      ∨ (step s = .refused .malformedOperands ∧ s.takeTurn.seq = none
          ∧ ∃ a rest, s.takeTurn.port = a :: rest ∧ decode (.request a.req) = .error .malformedOperands)

/-- 10_state R44, 20_memory R71, R84: a step emits at most one event, at the end of the trace, a write to CFG.addr; and
`SEQ.pos` "advances by exactly one at each emitted event". -/
def Obligations.OneEventAtMostAStep : Prop :=
  ∀ s t : State, s.Inv → step s = .next t →
    ∃ evs : List Event, t.trace = s.trace ++ evs ∧ evs.length ≤ 1
      ∧ (∀ a v ans, Event.busWrite a v ans ∈ evs → ∃ c, s.cfg = some c ∧ a = c.addr)
      ∧ ∀ q q', s.seq = some q → t.seq = some q' → q'.op = q.op ∧ q'.pos = q.pos + evs.length

/-- 20_memory R72: "The RW bit of every bus byte is 0", whatever the legal bit positions. -/
def Obligations.RwIsNeverSet : Prop :=
  ∀ s t : State, s.Inv → s.par.wf = true → s.rwClear → step s = .next t → t.rwClear

/-- 10_state R49: "A model faults on a read of such an element", in an operation and at the start of one (the latter in
states no run reaches); and WIN_CREATE outside its precondition is refused (93 U15, log 14). -/
def Obligations.MicroOperationsStopWithoutTheirState : Prop :=
  (∀ (q : Seq) (s : State), s.seq = some q →
    (s.win = none → exec .winView s = .fault (.noValue .win)
        ∧ ∀ n, exec (.winFwd n) s = .fault (.noValue .win) ∧ exec (.winBwd n) s = .fault (.noValue .win))
      ∧ (s.rot = none → exec .rotStep s = .fault (.noValue .rot))
      ∧ (s.cfg = none →
          (∀ v, exec (.busWrite v) s = .fault (.noValue .cfg))
            ∧ (∀ d bl en rw rs, exec (.busByte d bl en rw rs) s = .fault (.noValue .cfg))
            ∧ (∀ d m, exec (.nibbleEnSet d m) s = .fault (.noValue .cfg)
                ∧ exec (.nibbleEnClear d m) s = .fault (.noValue .cfg)
                ∧ exec (.nibblePrewrite d m) s = .fault (.noValue .cfg))
            ∧ exec .backlightOn s = .fault (.noValue .cfg) ∧ exec .backlightOff s = .fault (.noValue .cfg)
            ∧ (s.rot.isSome = true → exec .rotStep s = .fault (.noValue .cfg))
            ∧ ∀ str line col, exec (.posCursor line col) s = .fault (.noValue .cfg)
                ∧ exec (.writeRaw str line col) s = .fault (.noValue .cfg)
                ∧ exec (.renderLine str line) s = .fault (.noValue .cfg))
      ∧ ∀ buf n line b e, ¬ (n < buf.length ∧ 1 ≤ n ∧ b.length + e.length + 1 ≤ n) →
          exec (.winCreate buf n line b e) s = .refused .winCreatePrecondition)
    ∧ ∀ s : State, s.seq = none → s.mode ≠ .uninit → s.cfg = none →
        (∀ str line col, exec (.posCursor line col) s = .fault (.noValue .cfg)
            ∧ exec (.writeRaw str line col) s = .fault (.noValue .cfg))
          ∧ (∀ str line align ov budget, exec (.display str line align ov budget) s = .fault (.noValue .cfg))
          ∧ ∀ w n, s.win = some w →
              (w.ws + w.wl + n ≤ w.buf.length → exec (.scrollFwd n) s = .fault (.noValue .cfg))
                ∧ (n ≤ w.ws → exec (.scrollBwd n) s = .fault (.noValue .cfg))

/-- 10_state R50, 70_reset R310: what reset leaves, "no value" being `none`, with the default parameters. -/
def Obligations.ResetValues : Prop :=
  State.reset.mode = .uninit ∧ State.reset.cfg = none ∧ State.reset.win = none ∧ State.reset.cancel = false
    ∧ State.reset.rot = none ∧ State.reset.tx = none ∧ State.reset.lock = none ∧ State.reset.seq = none
    ∧ State.reset.status = none ∧ State.reset.trace = []
end

