-- ==== Sys2Proof/Laws/State.lean ====
section
/-! SUPPORT. What each state operation does to each field, one lemma a field and an operation, so that no proof unfolds a
record update. -/

namespace Sys2Proof.Machine


/-! ### setTodo -/

@[simp] theorem State.setTodo_par (l : List Stmt) (s : State) : (s.setTodo l).par = s.par := rfl
@[simp] theorem State.setTodo_cfg (l : List Stmt) (s : State) : (s.setTodo l).cfg = s.cfg := rfl
@[simp] theorem State.setTodo_mode (l : List Stmt) (s : State) : (s.setTodo l).mode = s.mode := rfl
@[simp] theorem State.setTodo_win (l : List Stmt) (s : State) : (s.setTodo l).win = s.win := rfl
@[simp] theorem State.setTodo_rot (l : List Stmt) (s : State) : (s.setTodo l).rot = s.rot := rfl
@[simp] theorem State.setTodo_cancel (l : List Stmt) (s : State) : (s.setTodo l).cancel = s.cancel := rfl
@[simp] theorem State.setTodo_tx (l : List Stmt) (s : State) : (s.setTodo l).tx = s.tx := rfl
@[simp] theorem State.setTodo_lock (l : List Stmt) (s : State) : (s.setTodo l).lock = s.lock := rfl
@[simp] theorem State.setTodo_seq (l : List Stmt) (s : State) : (s.setTodo l).seq = s.seq.map (fun q => { q with todo := l }) := rfl
@[simp] theorem State.setTodo_status (l : List Stmt) (s : State) : (s.setTodo l).status = s.status := rfl
@[simp] theorem State.setTodo_trace (l : List Stmt) (s : State) : (s.setTodo l).trace = s.trace := rfl
@[simp] theorem State.setTodo_results (l : List Stmt) (s : State) : (s.setTodo l).results = s.results := rfl
@[simp] theorem State.setTodo_port (l : List Stmt) (s : State) : (s.setTodo l).port = s.port := rfl
@[simp] theorem State.setTodo_bus (l : List Stmt) (s : State) : (s.setTodo l).bus = s.bus := rfl
@[simp] theorem State.setTodo_draws (l : List Stmt) (s : State) : (s.setTodo l).draws = s.draws := rfl
@[simp] theorem State.setTodo_cur (l : List Stmt) (s : State) : (s.setTodo l).cur = s.cur := rfl
@[simp] theorem State.setTodo_parked (l : List Stmt) (s : State) : (s.setTodo l).parked = s.parked := rfl
@[simp] theorem State.setTodo_turns (l : List Stmt) (s : State) : (s.setTodo l).turns = s.turns := rfl

/-! ### push -/

@[simp] theorem State.push_par (l : List Stmt) (s : State) : (s.push l).par = s.par := rfl
@[simp] theorem State.push_cfg (l : List Stmt) (s : State) : (s.push l).cfg = s.cfg := rfl
@[simp] theorem State.push_mode (l : List Stmt) (s : State) : (s.push l).mode = s.mode := rfl
@[simp] theorem State.push_win (l : List Stmt) (s : State) : (s.push l).win = s.win := rfl
@[simp] theorem State.push_rot (l : List Stmt) (s : State) : (s.push l).rot = s.rot := rfl
@[simp] theorem State.push_cancel (l : List Stmt) (s : State) : (s.push l).cancel = s.cancel := rfl
@[simp] theorem State.push_tx (l : List Stmt) (s : State) : (s.push l).tx = s.tx := rfl
@[simp] theorem State.push_lock (l : List Stmt) (s : State) : (s.push l).lock = s.lock := rfl
@[simp] theorem State.push_seq (l : List Stmt) (s : State) : (s.push l).seq = s.seq.map (fun q => { q with todo := l ++ q.todo }) := rfl
@[simp] theorem State.push_status (l : List Stmt) (s : State) : (s.push l).status = s.status := rfl
@[simp] theorem State.push_trace (l : List Stmt) (s : State) : (s.push l).trace = s.trace := rfl
@[simp] theorem State.push_results (l : List Stmt) (s : State) : (s.push l).results = s.results := rfl
@[simp] theorem State.push_port (l : List Stmt) (s : State) : (s.push l).port = s.port := rfl
@[simp] theorem State.push_bus (l : List Stmt) (s : State) : (s.push l).bus = s.bus := rfl
@[simp] theorem State.push_draws (l : List Stmt) (s : State) : (s.push l).draws = s.draws := rfl
@[simp] theorem State.push_cur (l : List Stmt) (s : State) : (s.push l).cur = s.cur := rfl
@[simp] theorem State.push_parked (l : List Stmt) (s : State) : (s.push l).parked = s.parked := rfl
@[simp] theorem State.push_turns (l : List Stmt) (s : State) : (s.push l).turns = s.turns := rfl

/-! ### giveVal -/

@[simp] theorem State.giveVal_par (v : Value) (s : State) : (s.giveVal v).par = s.par := rfl
@[simp] theorem State.giveVal_cfg (v : Value) (s : State) : (s.giveVal v).cfg = s.cfg := rfl
@[simp] theorem State.giveVal_mode (v : Value) (s : State) : (s.giveVal v).mode = s.mode := rfl
@[simp] theorem State.giveVal_win (v : Value) (s : State) : (s.giveVal v).win = s.win := rfl
@[simp] theorem State.giveVal_rot (v : Value) (s : State) : (s.giveVal v).rot = s.rot := rfl
@[simp] theorem State.giveVal_cancel (v : Value) (s : State) : (s.giveVal v).cancel = s.cancel := rfl
@[simp] theorem State.giveVal_tx (v : Value) (s : State) : (s.giveVal v).tx = s.tx := rfl
@[simp] theorem State.giveVal_lock (v : Value) (s : State) : (s.giveVal v).lock = s.lock := rfl
@[simp] theorem State.giveVal_seq (v : Value) (s : State) : (s.giveVal v).seq = s.seq.map (fun q => { q with val := v }) := rfl
@[simp] theorem State.giveVal_status (v : Value) (s : State) : (s.giveVal v).status = s.status := rfl
@[simp] theorem State.giveVal_trace (v : Value) (s : State) : (s.giveVal v).trace = s.trace := rfl
@[simp] theorem State.giveVal_results (v : Value) (s : State) : (s.giveVal v).results = s.results := rfl
@[simp] theorem State.giveVal_port (v : Value) (s : State) : (s.giveVal v).port = s.port := rfl
@[simp] theorem State.giveVal_bus (v : Value) (s : State) : (s.giveVal v).bus = s.bus := rfl
@[simp] theorem State.giveVal_draws (v : Value) (s : State) : (s.giveVal v).draws = s.draws := rfl
@[simp] theorem State.giveVal_cur (v : Value) (s : State) : (s.giveVal v).cur = s.cur := rfl
@[simp] theorem State.giveVal_parked (v : Value) (s : State) : (s.giveVal v).parked = s.parked := rfl
@[simp] theorem State.giveVal_turns (v : Value) (s : State) : (s.giveVal v).turns = s.turns := rfl

/-! ### emit -/

@[simp] theorem State.emit_par (e : Event) (s : State) : (s.emit e).par = s.par := rfl
@[simp] theorem State.emit_cfg (e : Event) (s : State) : (s.emit e).cfg = s.cfg := rfl
@[simp] theorem State.emit_mode (e : Event) (s : State) : (s.emit e).mode = s.mode := rfl
@[simp] theorem State.emit_win (e : Event) (s : State) : (s.emit e).win = s.win := rfl
@[simp] theorem State.emit_rot (e : Event) (s : State) : (s.emit e).rot = s.rot := rfl
@[simp] theorem State.emit_cancel (e : Event) (s : State) : (s.emit e).cancel = s.cancel := rfl
@[simp] theorem State.emit_tx (e : Event) (s : State) : (s.emit e).tx = s.tx := rfl
@[simp] theorem State.emit_lock (e : Event) (s : State) : (s.emit e).lock = s.lock := rfl
@[simp] theorem State.emit_seq (e : Event) (s : State) : (s.emit e).seq = s.seq.map (fun q => { q with pos := q.pos + 1 }) := rfl
@[simp] theorem State.emit_status (e : Event) (s : State) : (s.emit e).status = s.status := rfl
@[simp] theorem State.emit_trace (e : Event) (s : State) : (s.emit e).trace = s.trace ++ [e] := rfl
@[simp] theorem State.emit_results (e : Event) (s : State) : (s.emit e).results = s.results := rfl
@[simp] theorem State.emit_port (e : Event) (s : State) : (s.emit e).port = s.port := rfl
@[simp] theorem State.emit_bus (e : Event) (s : State) : (s.emit e).bus = s.bus := rfl
@[simp] theorem State.emit_draws (e : Event) (s : State) : (s.emit e).draws = s.draws := rfl
@[simp] theorem State.emit_cur (e : Event) (s : State) : (s.emit e).cur = s.cur := rfl
@[simp] theorem State.emit_parked (e : Event) (s : State) : (s.emit e).parked = s.parked := rfl
@[simp] theorem State.emit_turns (e : Event) (s : State) : (s.emit e).turns = s.turns := rfl

/-! ### drawn -/

@[simp] theorem State.drawn_par (s : State) : (s.drawn).par = s.par := by
  unfold State.drawn
  split <;> rfl
@[simp] theorem State.drawn_cfg (s : State) : (s.drawn).cfg = s.cfg := by
  unfold State.drawn
  split <;> rfl
@[simp] theorem State.drawn_mode (s : State) : (s.drawn).mode = s.mode := by
  unfold State.drawn
  split <;> rfl
@[simp] theorem State.drawn_win (s : State) : (s.drawn).win = s.win := by
  unfold State.drawn
  split <;> rfl
@[simp] theorem State.drawn_rot (s : State) : (s.drawn).rot = s.rot := by
  unfold State.drawn
  split <;> rfl
@[simp] theorem State.drawn_cancel (s : State) : (s.drawn).cancel = s.cancel := by
  unfold State.drawn
  split <;> rfl
@[simp] theorem State.drawn_tx (s : State) : (s.drawn).tx = s.tx := by
  unfold State.drawn
  split <;> rfl
@[simp] theorem State.drawn_lock (s : State) : (s.drawn).lock = s.lock := by
  unfold State.drawn
  split <;> rfl
@[simp] theorem State.drawn_seq (s : State) : (s.drawn).seq = s.seq := by
  unfold State.drawn
  split <;> rfl
@[simp] theorem State.drawn_status (s : State) : (s.drawn).status = s.status := by
  unfold State.drawn
  split <;> rfl
@[simp] theorem State.drawn_trace (s : State) : (s.drawn).trace = s.trace := by
  unfold State.drawn
  split <;> rfl
@[simp] theorem State.drawn_results (s : State) : (s.drawn).results = s.results := by
  unfold State.drawn
  split <;> rfl
@[simp] theorem State.drawn_port (s : State) : (s.drawn).port = s.port := by
  unfold State.drawn
  split <;> rfl
@[simp] theorem State.drawn_bus (s : State) : (s.drawn).bus = s.bus.tail := by
  unfold State.drawn
  split <;> simp [*]
@[simp] theorem State.drawn_draws (s : State) : (s.drawn).draws = if s.bus = [] then s.draws + 1 else s.draws := by
  unfold State.drawn
  split <;> simp [*]
@[simp] theorem State.drawn_cur (s : State) : (s.drawn).cur = s.cur := by
  unfold State.drawn
  split <;> rfl
@[simp] theorem State.drawn_parked (s : State) : (s.drawn).parked = s.parked := by
  unfold State.drawn
  split <;> rfl
@[simp] theorem State.drawn_turns (s : State) : (s.drawn).turns = s.turns := by
  unfold State.drawn
  split <;> rfl

/-! ### nextPhase -/

@[simp] theorem State.nextPhase_par (s : State) : (s.nextPhase).par = s.par := rfl
@[simp] theorem State.nextPhase_cfg (s : State) : (s.nextPhase).cfg = s.cfg := rfl
@[simp] theorem State.nextPhase_mode (s : State) : (s.nextPhase).mode = s.mode := rfl
@[simp] theorem State.nextPhase_win (s : State) : (s.nextPhase).win = s.win := rfl
@[simp] theorem State.nextPhase_rot (s : State) : (s.nextPhase).rot = s.rot := rfl
@[simp] theorem State.nextPhase_cancel (s : State) : (s.nextPhase).cancel = s.cancel := rfl
@[simp] theorem State.nextPhase_tx (s : State) : (s.nextPhase).tx = s.tx.map (fun t => if t.phase + 1 < frameWrites s.par then { t with phase := t.phase + 1 } else t) := rfl
@[simp] theorem State.nextPhase_lock (s : State) : (s.nextPhase).lock = s.lock := rfl
@[simp] theorem State.nextPhase_seq (s : State) : (s.nextPhase).seq = s.seq := rfl
@[simp] theorem State.nextPhase_status (s : State) : (s.nextPhase).status = s.status := rfl
@[simp] theorem State.nextPhase_trace (s : State) : (s.nextPhase).trace = s.trace := rfl
@[simp] theorem State.nextPhase_results (s : State) : (s.nextPhase).results = s.results := rfl
@[simp] theorem State.nextPhase_port (s : State) : (s.nextPhase).port = s.port := rfl
@[simp] theorem State.nextPhase_bus (s : State) : (s.nextPhase).bus = s.bus := rfl
@[simp] theorem State.nextPhase_draws (s : State) : (s.nextPhase).draws = s.draws := rfl
@[simp] theorem State.nextPhase_cur (s : State) : (s.nextPhase).cur = s.cur := rfl
@[simp] theorem State.nextPhase_parked (s : State) : (s.nextPhase).parked = s.parked := rfl
@[simp] theorem State.nextPhase_turns (s : State) : (s.nextPhase).turns = s.turns := rfl

/-! ### releaseLock -/

@[simp] theorem State.releaseLock_par (s : State) : (s.releaseLock).par = s.par := by
  unfold State.releaseLock
  split <;> rfl
@[simp] theorem State.releaseLock_cfg (s : State) : (s.releaseLock).cfg = s.cfg := by
  unfold State.releaseLock
  split <;> rfl
@[simp] theorem State.releaseLock_mode (s : State) : (s.releaseLock).mode = s.mode := by
  unfold State.releaseLock
  split <;> rfl
@[simp] theorem State.releaseLock_win (s : State) : (s.releaseLock).win = s.win := by
  unfold State.releaseLock
  split <;> rfl
@[simp] theorem State.releaseLock_rot (s : State) : (s.releaseLock).rot = s.rot := by
  unfold State.releaseLock
  split <;> rfl
@[simp] theorem State.releaseLock_cancel (s : State) : (s.releaseLock).cancel = s.cancel := by
  unfold State.releaseLock
  split <;> rfl
@[simp] theorem State.releaseLock_tx (s : State) : (s.releaseLock).tx = if s.lock = some s.cur then none else s.tx := by
  unfold State.releaseLock
  split <;> rfl
@[simp] theorem State.releaseLock_lock (s : State) : (s.releaseLock).lock = if s.lock = some s.cur then none else s.lock := by
  unfold State.releaseLock
  split <;> rfl
@[simp] theorem State.releaseLock_seq (s : State) : (s.releaseLock).seq = s.seq := by
  unfold State.releaseLock
  split <;> rfl
@[simp] theorem State.releaseLock_status (s : State) : (s.releaseLock).status = s.status := by
  unfold State.releaseLock
  split <;> rfl
@[simp] theorem State.releaseLock_trace (s : State) : (s.releaseLock).trace = s.trace := by
  unfold State.releaseLock
  split <;> rfl
@[simp] theorem State.releaseLock_results (s : State) : (s.releaseLock).results = s.results := by
  unfold State.releaseLock
  split <;> rfl
@[simp] theorem State.releaseLock_port (s : State) : (s.releaseLock).port = s.port := by
  unfold State.releaseLock
  split <;> rfl
@[simp] theorem State.releaseLock_bus (s : State) : (s.releaseLock).bus = s.bus := by
  unfold State.releaseLock
  split <;> rfl
@[simp] theorem State.releaseLock_draws (s : State) : (s.releaseLock).draws = s.draws := by
  unfold State.releaseLock
  split <;> rfl
@[simp] theorem State.releaseLock_cur (s : State) : (s.releaseLock).cur = s.cur := by
  unfold State.releaseLock
  split <;> rfl
@[simp] theorem State.releaseLock_parked (s : State) : (s.releaseLock).parked = s.parked := by
  unfold State.releaseLock
  split <;> rfl
@[simp] theorem State.releaseLock_turns (s : State) : (s.releaseLock).turns = s.turns := by
  unfold State.releaseLock
  split <;> rfl

/-! ### report -/

@[simp] theorem State.report_par (r : Result) (s : State) : (s.report r).par = s.par := rfl
@[simp] theorem State.report_cfg (r : Result) (s : State) : (s.report r).cfg = s.cfg := rfl
@[simp] theorem State.report_mode (r : Result) (s : State) : (s.report r).mode = s.mode := rfl
@[simp] theorem State.report_win (r : Result) (s : State) : (s.report r).win = s.win := rfl
@[simp] theorem State.report_rot (r : Result) (s : State) : (s.report r).rot = s.rot := rfl
@[simp] theorem State.report_cancel (r : Result) (s : State) : (s.report r).cancel = s.cancel := rfl
@[simp] theorem State.report_tx (r : Result) (s : State) : (s.report r).tx = s.tx := rfl
@[simp] theorem State.report_lock (r : Result) (s : State) : (s.report r).lock = s.lock := rfl
@[simp] theorem State.report_seq (r : Result) (s : State) : (s.report r).seq = s.seq := rfl
@[simp] theorem State.report_status (r : Result) (s : State) : (s.report r).status = some r := rfl
@[simp] theorem State.report_trace (r : Result) (s : State) : (s.report r).trace = s.trace := rfl
@[simp] theorem State.report_results (r : Result) (s : State) : (s.report r).results = s.results ++ [(s.cur, r)] := rfl
@[simp] theorem State.report_port (r : Result) (s : State) : (s.report r).port = s.port := rfl
@[simp] theorem State.report_bus (r : Result) (s : State) : (s.report r).bus = s.bus := rfl
@[simp] theorem State.report_draws (r : Result) (s : State) : (s.report r).draws = s.draws := rfl
@[simp] theorem State.report_cur (r : Result) (s : State) : (s.report r).cur = s.cur := rfl
@[simp] theorem State.report_parked (r : Result) (s : State) : (s.report r).parked = s.parked := rfl
@[simp] theorem State.report_turns (r : Result) (s : State) : (s.report r).turns = s.turns := rfl

/-! ### closeOp -/

@[simp] theorem State.closeOp_par (m : Mode) (s : State) : (s.closeOp m).par = s.par := by simp [State.closeOp]
@[simp] theorem State.closeOp_cfg (m : Mode) (s : State) : (s.closeOp m).cfg = s.cfg := by simp [State.closeOp]
@[simp] theorem State.closeOp_mode (m : Mode) (s : State) : (s.closeOp m).mode = m := rfl
@[simp] theorem State.closeOp_win (m : Mode) (s : State) : (s.closeOp m).win = s.win := by simp [State.closeOp]
@[simp] theorem State.closeOp_rot (m : Mode) (s : State) : (s.closeOp m).rot = if s.mode = .rotating ∧ s.othersRotate = false then none else s.rot := rfl
@[simp] theorem State.closeOp_cancel (m : Mode) (s : State) : (s.closeOp m).cancel = if s.mode = .rotating then false else s.cancel := rfl
@[simp] theorem State.closeOp_tx (m : Mode) (s : State) : (s.closeOp m).tx = if s.lock = some s.cur then none else s.tx := by simp [State.closeOp]
@[simp] theorem State.closeOp_lock (m : Mode) (s : State) : (s.closeOp m).lock = if s.lock = some s.cur then none else s.lock := by simp [State.closeOp]
@[simp] theorem State.closeOp_seq (m : Mode) (s : State) : (s.closeOp m).seq = none := rfl
@[simp] theorem State.closeOp_status (m : Mode) (s : State) : (s.closeOp m).status = s.status := by simp [State.closeOp]
@[simp] theorem State.closeOp_trace (m : Mode) (s : State) : (s.closeOp m).trace = s.trace := by simp [State.closeOp]
@[simp] theorem State.closeOp_results (m : Mode) (s : State) : (s.closeOp m).results = s.results := by simp [State.closeOp]
@[simp] theorem State.closeOp_port (m : Mode) (s : State) : (s.closeOp m).port = s.port := by simp [State.closeOp]
@[simp] theorem State.closeOp_bus (m : Mode) (s : State) : (s.closeOp m).bus = s.bus := by simp [State.closeOp]
@[simp] theorem State.closeOp_draws (m : Mode) (s : State) : (s.closeOp m).draws = s.draws := by simp [State.closeOp]
@[simp] theorem State.closeOp_cur (m : Mode) (s : State) : (s.closeOp m).cur = s.cur := by simp [State.closeOp]
@[simp] theorem State.closeOp_parked (m : Mode) (s : State) : (s.closeOp m).parked = s.parked := by simp [State.closeOp]
@[simp] theorem State.closeOp_turns (m : Mode) (s : State) : (s.closeOp m).turns = s.turns := by simp [State.closeOp]

/-! ### tellOthers -/

@[simp] theorem State.tellOthers_par (ok : Bool) (s : State) : (s.tellOthers ok).par = s.par := by
  unfold State.tellOthers
  split <;> rfl
@[simp] theorem State.tellOthers_cfg (ok : Bool) (s : State) : (s.tellOthers ok).cfg = s.cfg := by
  unfold State.tellOthers
  split <;> rfl
@[simp] theorem State.tellOthers_mode (ok : Bool) (s : State) : (s.tellOthers ok).mode = s.mode := by
  unfold State.tellOthers
  split <;> rfl
@[simp] theorem State.tellOthers_win (ok : Bool) (s : State) : (s.tellOthers ok).win = s.win := by
  unfold State.tellOthers
  split <;> rfl
@[simp] theorem State.tellOthers_rot (ok : Bool) (s : State) : (s.tellOthers ok).rot = s.rot := by
  unfold State.tellOthers
  split <;> rfl
@[simp] theorem State.tellOthers_cancel (ok : Bool) (s : State) : (s.tellOthers ok).cancel = s.cancel := by
  unfold State.tellOthers
  split <;> rfl
@[simp] theorem State.tellOthers_tx (ok : Bool) (s : State) : (s.tellOthers ok).tx = s.tx := by
  unfold State.tellOthers
  split <;> rfl
@[simp] theorem State.tellOthers_lock (ok : Bool) (s : State) : (s.tellOthers ok).lock = s.lock := by
  unfold State.tellOthers
  split <;> rfl
@[simp] theorem State.tellOthers_seq (ok : Bool) (s : State) : (s.tellOthers ok).seq = s.seq := by
  unfold State.tellOthers
  split <;> rfl
@[simp] theorem State.tellOthers_status (ok : Bool) (s : State) : (s.tellOthers ok).status = s.status := by
  unfold State.tellOthers
  split <;> rfl
@[simp] theorem State.tellOthers_trace (ok : Bool) (s : State) : (s.tellOthers ok).trace = s.trace := by
  unfold State.tellOthers
  split <;> rfl
@[simp] theorem State.tellOthers_results (ok : Bool) (s : State) : (s.tellOthers ok).results = s.results := by
  unfold State.tellOthers
  split <;> rfl
@[simp] theorem State.tellOthers_port (ok : Bool) (s : State) : (s.tellOthers ok).port = s.port := by
  unfold State.tellOthers
  split <;> rfl
@[simp] theorem State.tellOthers_bus (ok : Bool) (s : State) : (s.tellOthers ok).bus = s.bus := by
  unfold State.tellOthers
  split <;> rfl
@[simp] theorem State.tellOthers_draws (ok : Bool) (s : State) : (s.tellOthers ok).draws = s.draws := by
  unfold State.tellOthers
  split <;> rfl
@[simp] theorem State.tellOthers_cur (ok : Bool) (s : State) : (s.tellOthers ok).cur = s.cur := by
  unfold State.tellOthers
  split <;> rfl
@[simp] theorem State.tellOthers_parked (ok : Bool) (s : State) : (s.tellOthers ok).parked = if s.inInit then s.parked.map (Requester.afterInit ok) else s.parked := by
  unfold State.tellOthers
  split <;> rfl
@[simp] theorem State.tellOthers_turns (ok : Bool) (s : State) : (s.tellOthers ok).turns = s.turns := by
  unfold State.tellOthers
  split <;> rfl

/-! ### startOp -/

@[simp] theorem State.startOp_par (op : Instr) (ret : Ret) (s : State) : (s.startOp op ret).par = s.par := rfl
@[simp] theorem State.startOp_cfg (op : Instr) (ret : Ret) (s : State) : (s.startOp op ret).cfg = s.cfg := rfl
@[simp] theorem State.startOp_mode (op : Instr) (ret : Ret) (s : State) : (s.startOp op ret).mode = .busy := rfl
@[simp] theorem State.startOp_win (op : Instr) (ret : Ret) (s : State) : (s.startOp op ret).win = s.win := rfl
@[simp] theorem State.startOp_rot (op : Instr) (ret : Ret) (s : State) : (s.startOp op ret).rot = s.rot := rfl
@[simp] theorem State.startOp_cancel (op : Instr) (ret : Ret) (s : State) : (s.startOp op ret).cancel = s.cancel := rfl
@[simp] theorem State.startOp_tx (op : Instr) (ret : Ret) (s : State) : (s.startOp op ret).tx = s.tx := rfl
@[simp] theorem State.startOp_lock (op : Instr) (ret : Ret) (s : State) : (s.startOp op ret).lock = s.lock := rfl
@[simp] theorem State.startOp_seq (op : Instr) (ret : Ret) (s : State) : (s.startOp op ret).seq = some { op := op, pos := 0, todo := [], ret := ret, val := .none } := rfl
@[simp] theorem State.startOp_status (op : Instr) (ret : Ret) (s : State) : (s.startOp op ret).status = s.status := rfl
@[simp] theorem State.startOp_trace (op : Instr) (ret : Ret) (s : State) : (s.startOp op ret).trace = s.trace := rfl
@[simp] theorem State.startOp_results (op : Instr) (ret : Ret) (s : State) : (s.startOp op ret).results = s.results := rfl
@[simp] theorem State.startOp_port (op : Instr) (ret : Ret) (s : State) : (s.startOp op ret).port = s.port := rfl
@[simp] theorem State.startOp_bus (op : Instr) (ret : Ret) (s : State) : (s.startOp op ret).bus = s.bus := rfl
@[simp] theorem State.startOp_draws (op : Instr) (ret : Ret) (s : State) : (s.startOp op ret).draws = s.draws := rfl
@[simp] theorem State.startOp_cur (op : Instr) (ret : Ret) (s : State) : (s.startOp op ret).cur = s.cur := rfl
@[simp] theorem State.startOp_parked (op : Instr) (ret : Ret) (s : State) : (s.startOp op ret).parked = s.parked := rfl
@[simp] theorem State.startOp_turns (op : Instr) (ret : Ret) (s : State) : (s.startOp op ret).turns = s.turns := rfl

/-! ### othersRotate: which updates leave the other requesters' rotates -/

theorem State.othersRotate_congr {s t : State} (h : t.parked = s.parked) : t.othersRotate = s.othersRotate := by
  simp [State.othersRotate, h]

@[simp] theorem Requester.afterInit_rotating (ok : Bool) (r : Requester) :
    (r.afterInit ok).mode = .rotating ↔ r.mode = .rotating := by
  cases ok <;> cases hr : r.mode <;> simp [Requester.afterInit, hr]
@[simp] theorem State.tellOthers_othersRotate (ok : Bool) (s : State) : (s.tellOthers ok).othersRotate = s.othersRotate := by
  unfold State.tellOthers
  split
  · simp [State.othersRotate, List.any_map, Function.comp_def]
  · rfl
@[simp] theorem State.emit_othersRotate (e : Event) (s : State) : (s.emit e).othersRotate = s.othersRotate := rfl
@[simp] theorem State.drawn_othersRotate (s : State) : s.drawn.othersRotate = s.othersRotate :=
  State.othersRotate_congr (by simp)
@[simp] theorem State.push_othersRotate (l : List Stmt) (s : State) : (s.push l).othersRotate = s.othersRotate := rfl
@[simp] theorem State.setTodo_othersRotate (l : List Stmt) (s : State) : (s.setTodo l).othersRotate = s.othersRotate := rfl

/-! ### finish -/

@[simp] theorem State.finish_par (st : Status) (v : Value) (s : State) : (s.finish st v).par = s.par := by simp [State.finish]
@[simp] theorem State.finish_cfg (st : Status) (v : Value) (s : State) : (s.finish st v).cfg = s.cfg := by simp [State.finish]
@[simp] theorem State.finish_mode (st : Status) (v : Value) (s : State) : (s.finish st v).mode = .idle := by simp [State.finish]
@[simp] theorem State.finish_win (st : Status) (v : Value) (s : State) : (s.finish st v).win = s.win := by simp [State.finish]
@[simp] theorem State.finish_rot (st : Status) (v : Value) (s : State) : (s.finish st v).rot = if s.mode = .rotating ∧ s.othersRotate = false then none else s.rot := by simp [State.finish]
@[simp] theorem State.finish_cancel (st : Status) (v : Value) (s : State) : (s.finish st v).cancel = if s.mode = .rotating then false else s.cancel := by simp [State.finish]
@[simp] theorem State.finish_tx (st : Status) (v : Value) (s : State) : (s.finish st v).tx = if s.lock = some s.cur then none else s.tx := by simp [State.finish]
@[simp] theorem State.finish_lock (st : Status) (v : Value) (s : State) : (s.finish st v).lock = if s.lock = some s.cur then none else s.lock := by simp [State.finish]
@[simp] theorem State.finish_seq (st : Status) (v : Value) (s : State) : (s.finish st v).seq = none := by simp [State.finish]
@[simp] theorem State.finish_status (st : Status) (v : Value) (s : State) : (s.finish st v).status = some (.ok st v) := by simp [State.finish]
@[simp] theorem State.finish_trace (st : Status) (v : Value) (s : State) : (s.finish st v).trace = s.trace := by simp [State.finish]
@[simp] theorem State.finish_results (st : Status) (v : Value) (s : State) : (s.finish st v).results = s.results ++ [(s.cur, .ok st v)] := by simp [State.finish]
@[simp] theorem State.finish_port (st : Status) (v : Value) (s : State) : (s.finish st v).port = s.port := by simp [State.finish]
@[simp] theorem State.finish_bus (st : Status) (v : Value) (s : State) : (s.finish st v).bus = s.bus := by simp [State.finish]
@[simp] theorem State.finish_draws (st : Status) (v : Value) (s : State) : (s.finish st v).draws = s.draws := by simp [State.finish]
@[simp] theorem State.finish_cur (st : Status) (v : Value) (s : State) : (s.finish st v).cur = s.cur := by simp [State.finish]
@[simp] theorem State.finish_parked (st : Status) (v : Value) (s : State) : (s.finish st v).parked = if s.inInit then s.parked.map (Requester.afterInit true) else s.parked := by simp [State.finish]
@[simp] theorem State.finish_turns (st : Status) (v : Value) (s : State) : (s.finish st v).turns = s.turns := by simp [State.finish]

/-! ### raise -/

@[simp] theorem State.raise_par (e : ErrCode) (s : State) : (s.raise e).par = s.par := by simp [State.raise]
@[simp] theorem State.raise_cfg (e : ErrCode) (s : State) : (s.raise e).cfg = s.cfg := by simp [State.raise]
@[simp] theorem State.raise_mode (e : ErrCode) (s : State) : (s.raise e).mode = if s.inInit then .uninit else .idle := by simp [State.raise]
@[simp] theorem State.raise_win (e : ErrCode) (s : State) : (s.raise e).win = s.win := by simp [State.raise]
@[simp] theorem State.raise_rot (e : ErrCode) (s : State) : (s.raise e).rot = if s.mode = .rotating ∧ s.othersRotate = false then none else s.rot := by simp [State.raise]
@[simp] theorem State.raise_cancel (e : ErrCode) (s : State) : (s.raise e).cancel = if s.mode = .rotating then false else s.cancel := by simp [State.raise]
@[simp] theorem State.raise_tx (e : ErrCode) (s : State) : (s.raise e).tx = if s.lock = some s.cur then none else s.tx := by simp [State.raise]
@[simp] theorem State.raise_lock (e : ErrCode) (s : State) : (s.raise e).lock = if s.lock = some s.cur then none else s.lock := by simp [State.raise]
@[simp] theorem State.raise_seq (e : ErrCode) (s : State) : (s.raise e).seq = none := by simp [State.raise]
@[simp] theorem State.raise_status (e : ErrCode) (s : State) : (s.raise e).status = some (.err e) := by simp [State.raise]
@[simp] theorem State.raise_trace (e : ErrCode) (s : State) : (s.raise e).trace = s.trace := by simp [State.raise]
@[simp] theorem State.raise_results (e : ErrCode) (s : State) : (s.raise e).results = s.results ++ [(s.cur, .err e)] := by simp [State.raise]
@[simp] theorem State.raise_port (e : ErrCode) (s : State) : (s.raise e).port = s.port := by simp [State.raise]
@[simp] theorem State.raise_bus (e : ErrCode) (s : State) : (s.raise e).bus = s.bus := by simp [State.raise]
@[simp] theorem State.raise_draws (e : ErrCode) (s : State) : (s.raise e).draws = s.draws := by simp [State.raise]
@[simp] theorem State.raise_cur (e : ErrCode) (s : State) : (s.raise e).cur = s.cur := by simp [State.raise]
@[simp] theorem State.raise_parked (e : ErrCode) (s : State) : (s.raise e).parked = if s.inInit then s.parked.map (Requester.afterInit false) else s.parked := by simp [State.raise]
@[simp] theorem State.raise_turns (e : ErrCode) (s : State) : (s.raise e).turns = s.turns := by simp [State.raise]

/-! ### refuse -/

@[simp] theorem State.refuse_par (r : Reason) (s : State) : (s.refuse r).par = s.par := by
  unfold State.refuse
  split <;> simp
@[simp] theorem State.refuse_cfg (r : Reason) (s : State) : (s.refuse r).cfg = s.cfg := by
  unfold State.refuse
  split <;> simp
@[simp] theorem State.refuse_win (r : Reason) (s : State) : (s.refuse r).win = s.win := by
  unfold State.refuse
  split <;> simp
@[simp] theorem State.refuse_seq (r : Reason) (s : State) : (s.refuse r).seq = none := by
  unfold State.refuse
  split <;> simp [*]
@[simp] theorem State.refuse_status (r : Reason) (s : State) : (s.refuse r).status = some (.refused r) := by
  unfold State.refuse
  split <;> simp
@[simp] theorem State.refuse_trace (r : Reason) (s : State) : (s.refuse r).trace = s.trace := by
  unfold State.refuse
  split <;> simp
@[simp] theorem State.refuse_results (r : Reason) (s : State) : (s.refuse r).results = s.results ++ [(s.cur, .refused r)] := by
  unfold State.refuse
  split <;> simp
@[simp] theorem State.refuse_port (r : Reason) (s : State) : (s.refuse r).port = s.port := by
  unfold State.refuse
  split <;> simp
@[simp] theorem State.refuse_bus (r : Reason) (s : State) : (s.refuse r).bus = s.bus := by
  unfold State.refuse
  split <;> simp
@[simp] theorem State.refuse_draws (r : Reason) (s : State) : (s.refuse r).draws = s.draws := by
  unfold State.refuse
  split <;> simp
@[simp] theorem State.refuse_cur (r : Reason) (s : State) : (s.refuse r).cur = s.cur := by
  unfold State.refuse
  split <;> simp
@[simp] theorem State.refuse_parked (r : Reason) (s : State) : (s.refuse r).parked = s.parked := by
  unfold State.refuse
  split <;> simp
@[simp] theorem State.refuse_turns (r : Reason) (s : State) : (s.refuse r).turns = s.turns := by
  unfold State.refuse
  split <;> simp

/-! ### State.answer, State.inInit -/

@[simp] theorem State.answer_cons {s : State} {a : BusAnswer} {rest : List BusAnswer} (h : s.bus = a :: rest) :
    s.answer = a := by
  simp [State.answer, h]

/-- Past the coming answers the bus's answer is the free draw (log 2). -/
theorem State.answer_nil {s : State} (h : s.bus = []) : s.answer = Config.busAnswer s.draws := by
  simp [State.answer, h]

@[simp] theorem State.inInit_startOp (op : Instr) (ret : Ret) (s : State) :
    (s.startOp op ret).inInit = isInitOp op := rfl

theorem State.inInit_none {s : State} (h : s.seq = none) : s.inInit = false := by
  simp [State.inInit, h]

theorem State.inInit_some {s : State} {q : Seq} (h : s.seq = some q) : s.inInit = isInitOp q.op := by
  simp [State.inInit, h]

theorem State.refuse_idle {s : State} (h : s.seq = none) (r : Reason) : s.refuse r = s.report (.refused r) := by
  simp [State.refuse, h]

theorem State.refuse_inOp {s : State} {q : Seq} (h : s.seq = some q) (r : Reason) :
    s.refuse r = (s.closeOp .idle).report (.refused r) := by
  simp [State.refuse, h]

/-- With no other requester, whose turn it is changes nothing but `turns`. -/
theorem State.takeTurn_solo {s : State} (h : s.parked = []) : s.takeTurn = { s with turns := s.turns.tail } := by
  obtain ⟨par, cfg, mode, win, rot, cancel, tx, lock, seq, status, trace, results, port, bus, draws, cur, parked, turns⟩ := s
  cases turns <;> simp_all [State.takeTurn, State.switchTo]

theorem State.takeTurn_nil {s : State} (h : s.turns = []) : s.takeTurn = s := by
  simp [State.takeTurn, h]

end Sys2Proof.Machine
end

