-- ==== Sys2Proof/Laws/Runs.lean ====
section
/-! SUPPORT. Runs and single steps: how runs compose, what one step does inside an operation and at the request port, and
the runs of the transport's procedures from the top of a statement list. -/

namespace Sys2Proof.Machine

/-! ### Runs compose -/

theorem core_run_succ (M : Host.Core) (k : Nat) (s : M.State) :
    M.run (k + 1) s =
      (match M.step s with
       | .next t => M.run k t
       | .fault f => .fault f
       | .refused r => .refused r) := rfl

/-- The host's run is the one claims are stated with. -/
theorem run_core (k : Nat) (s : State) : Host.Core.run Sys2Proof.core k s = run k s := by
  induction k generalizing s with
  | zero => rfl
  | succ k ih =>
    refine (core_run_succ Sys2Proof.core k s).trans ?_
    have h0 : Sys2Proof.core.step s = step s := rfl
    rw [h0]
    unfold run
    cases step s with
    | next u => exact ih u
    | fault f => rfl
    | refused r => rfl

theorem run_add (j k : Nat) {s t : State} (h : run j s = .next t) : run (j + k) s = run k t := by
  induction j generalizing s with
  | zero =>
    obtain rfl : s = t := by simpa [run] using h
    simp
  | succ j ih =>
    rw [Nat.succ_add_eq_add_succ, Nat.add_succ]
    simp only [run] at h ⊢
    cases hs : step s with
    | next u => exact ih (by simpa [hs] using h)
    | fault f => simp [hs] at h
    | refused r => simp [hs] at h

theorem Reaches.refl (s : State) : Reaches s s := ⟨0, rfl⟩

theorem Reaches.trans {s t u : State} (h1 : Reaches s t) (h2 : Reaches t u) : Reaches s u := by
  obtain ⟨j, hj⟩ := h1
  obtain ⟨k, hk⟩ := h2
  exact ⟨j + k, by rw [run_add j k hj, hk]⟩

theorem Reaches.head {s t u : State} (h : step s = .next t) (h2 : Reaches t u) : Reaches s u :=
  Reaches.trans ⟨1, by simp [run, h]⟩ h2

theorem CompletesWith.then {i : Instr} {s t u : State} (h : CompletesWith i s t) (h2 : Reaches t u) :
    CompletesWith i s u := by
  obtain ⟨v, hv, hr⟩ := h
  exact ⟨v, hv, hr.trans h2⟩

/-! ### One step -/

theorem dueCancel_none (n : Nat) {l : List Arrival} (h : ∀ a ∈ l, a.req ≠ Request.cancel) : dueCancel n l = none := by
  induction l with
  | nil => rfl
  | cons a rest ih =>
    simp only [dueCancel, h a (by simp), false_and, if_false]
    simp [ih (fun b hb => h b (by simp [hb]))]

/-- Inside an operation, undisturbed, a step runs the next statement. -/
theorem step_inOp {s : State} {q : Seq} (hq : s.seq = some q) (hu : s.undisturbed) : step s = runNext q s := by
  simp [step, State.takeTurn_nil hu.1, stepCur, hq, dueCancel_none _ hu.2]

/-- The statement, whatever it is. -/
theorem step_stmt {s : State} {q : Seq} {st : Stmt} {k : List Stmt} (hq : s.seq = some q) (ht : q.todo = st :: k)
    (hu : s.undisturbed) : step s = execStmt st (s.setTodo k) := by
  simp [step_inOp hq hu, runNext, ht]

theorem step_call {s : State} {q : Seq} {i : Instr} {k : List Stmt} (hq : s.seq = some q) (ht : q.todo = .call i :: k)
    (hu : s.undisturbed) : step s = exec i (s.setTodo k) := step_stmt hq ht hu

theorem step_release {s : State} {q : Seq} {k : List Stmt} (hq : s.seq = some q) (ht : q.todo = .release :: k)
    (hu : s.undisturbed) : step s = .next (s.setTodo k).releaseLock := step_stmt hq ht hu

theorem step_end {s : State} {q : Seq} {st : Status} {v : Value} (hq : s.seq = some q) (ht : q.todo = [])
    (hr : q.ret = .done st v) (hu : s.undisturbed) : step s = .next (s.finish st v) := by
  simp [step_inOp hq hu, runNext, ht, hr]

/-- With no operation in progress a step takes the port's first request. -/
theorem step_request {s : State} {a : Arrival} {rest : List Arrival} {i : Instr} (hs : s.seq = none)
    (ht : s.turns = []) (hp : s.port = a :: rest) (hd : decode (.request a.req) = .ok i) :
    step s = exec i { s with port := rest } := by
  simp [step, State.takeTurn_nil ht, stepCur, hs, fetchRequest, hp, hd]

/-! ### Procedures of the transport -/

/-- TX after `n` more bus writes. -/
def phases (p : Params) (n : Nat) (tx : Option TxFrame) : Option TxFrame :=
  (Option.map fun t => if t.phase + 1 < frameWrites p then { t with phase := t.phase + 1 } else t)^[n] tx

theorem phases_none (p : Params) (n : Nat) : phases p n none = none := by
  induction n with
  | zero => rfl
  | succ n ih => simpa [phases, Function.iterate_succ_apply] using ih

theorem phases_add (p : Params) (m n : Nat) (tx : Option TxFrame) :
    phases p n (phases p m tx) = phases p (m + n) tx := by
  unfold phases
  rw [Nat.add_comm, Function.iterate_add_apply]

/-- `s` after events `evs` with `n` writes, `k` being what is left to do. -/
def State.ran (evs : List Event) (n : Nat) (k : List Stmt) (s : State) : State :=
  { s with
    trace := s.trace ++ evs
    bus := s.bus.drop n
    tx := phases s.par n s.tx
    seq := s.seq.map (fun q => { q with todo := k, pos := q.pos + evs.length }) }

theorem State.ran_ran (e1 e2 : List Event) (m n : Nat) (k1 k2 : List Stmt) (s : State) :
    ((s.ran e1 m k1).ran e2 n k2) = s.ran (e1 ++ e2) (m + n) k2 := by
  obtain ⟨par, cfg, mode, win, rot, cancel, tx, lock, seq, status, trace, results, port, bus, draws, cur, parked, turns⟩ := s
  cases seq <;> simp [State.ran, phases_add, Nat.add_assoc]

theorem State.ran_nil (k : List Stmt) (s : State) : s.ran [] 0 k = s.setTodo k := by
  obtain ⟨par, cfg, mode, win, rot, cancel, tx, lock, seq, status, trace, results, port, bus, draws, cur, parked, turns⟩ := s
  cases seq <;> simp [State.ran, State.setTodo, phases]

theorem take_add_ok {bus : List BusAnswer} {m n : Nat} (h : bus.take (m + n) = List.replicate (m + n) .ok) :
    bus.take m = List.replicate m .ok ∧ (bus.drop m).take n = List.replicate n .ok := by
  constructor
  · have := congrArg (List.take m) h
    simpa [List.take_take] using this
  · have := congrArg (List.drop m) h
    simpa [List.drop_take] using this

/-- The premises of a procedure of `n` bus writes at the top of the statement list. -/
structure State.At (c : Cfg) (n : Nat) (st : Stmt) (k : List Stmt) (s : State) : Prop where
  seq : ∃ q, s.seq = some q ∧ q.todo = st :: k
  cfg : s.cfg = some c
  ok : s.answersOk n
  undisturbed : s.undisturbed

/-- The transport lock is free, or, where `free` is false, nothing is asked of it. -/
def State.free (free : Bool) (s : State) : Prop := free = true → s.lock = none ∧ s.tx = none

theorem State.free_ran {free : Bool} {s : State} (h : s.free free) (evs : List Event) (n : Nat) (k : List Stmt) :
    (s.ran evs n k).free free := fun hf => ⟨(h hf).1, by simp [State.ran, (h hf).2, phases_none]⟩

/-- What it is for a statement to run as `evs`, with `n` bus writes: from the top of any statement list, the transport
being free if `free` says so. -/
def RunsAs (free : Bool) (p : Params) (c : Cfg) (st : Stmt) (evs : List Event) (n : Nat) : Prop :=
  ∀ (s : State) (k : List Stmt), s.par = p → s.At c n st k → s.free free → Reaches s (s.ran evs n k)

theorem State.ran_par (evs : List Event) (n : Nat) (k : List Stmt) (s : State) : (s.ran evs n k).par = s.par := rfl

/-- After a statement has run, the next one is at the top. -/
theorem State.At.next {c : Cfg} {m n : Nat} {i j : Stmt} {k : List Stmt} {s : State} {evs : List Event}
    (h : s.At c (m + n) i (j :: k)) : (s.ran evs m (j :: k)).At c n j k := by
  obtain ⟨q, hq, -⟩ := h.seq
  exact { seq := ⟨_, by simp [State.ran, hq]; rfl, rfl⟩
          cfg := h.cfg
          ok := (take_add_ok h.ok).2
          undisturbed := h.undisturbed }

theorem State.At.weaken {c : Cfg} {m n : Nat} {i : Stmt} {k : List Stmt} {s : State}
    (h : s.At c (m + n) i k) : s.At c m i k :=
  { seq := h.seq, cfg := h.cfg, ok := (take_add_ok h.ok).1, undisturbed := h.undisturbed }

/-- A list of statements, each with its events and writes, runs as their concatenation. -/
theorem runs_calls (free : Bool) (p : Params) (c : Cfg) (l : List (Stmt × List Event × Nat))
    (hl : ∀ x ∈ l, RunsAs free p c x.1 x.2.1 x.2.2) :
    ∀ (s : State) (q : Seq) (k : List Stmt), s.par = p → s.seq = some q →
      q.todo = l.map (fun x => x.1) ++ k → s.cfg = some c →
      s.answersOk ((l.map (fun x => x.2.2)).sum) → s.undisturbed → s.free free →
      Reaches s (s.ran (l.map (fun x => x.2.1)).flatten (l.map (fun x => x.2.2)).sum k) := by
  induction l with
  | nil =>
    intro s q k _ hq ht _ _ _ _
    have : s.ran [] 0 k = s := by
      obtain ⟨par, cfg, mode, win, rot, cancel, tx, lock, seq, status, trace, results, port, bus, draws, cur, parked, turns⟩ := s
      obtain ⟨op, pos, todo, ret, val⟩ := q
      simp_all [State.ran, phases]
    simpa [this] using Reaches.refl s
  | cons x l ih =>
    intro s q k hp hq ht hc ho hu hf
    simp only [List.map_cons, List.sum_cons, List.flatten_cons, List.cons_append] at ht ho ⊢
    have h1 : Reaches s (s.ran x.2.1 x.2.2 (l.map (fun x => x.1) ++ k)) :=
      hl x (by simp) s _ hp { seq := ⟨q, hq, ht⟩, cfg := hc, ok := (take_add_ok ho).1, undisturbed := hu } hf
    refine h1.trans ?_
    rw [← State.ran_ran x.2.1 _ x.2.2 _ (l.map (fun x => x.1) ++ k) k]
    refine ih (fun y hy => hl y (by simp [hy])) _ { q with todo := l.map (fun x => x.1) ++ k, pos := q.pos + x.2.1.length } k
      hp (by simp [State.ran, hq]) rfl hc (take_add_ok ho).2 hu (State.free_ran hf _ _ _)

/-- WAIT runs as its event (40_transport R141). -/
theorem wait_runs (free : Bool) (p : Params) (c : Cfg) (t : Nat) : RunsAs free p c (.call (.wait t)) [.wait t] 0 := by
  intro s k _ h _
  obtain ⟨q, hq, ht⟩ := h.seq
  refine Reaches.head (t := s.ran [.wait t] 0 k) ?_ (Reaches.refl _)
  rw [step_call hq ht h.undisturbed]
  obtain ⟨par, cfg, mode, win, rot, cancel, tx, lock, seq, status, trace, results, port, bus, draws, cur, parked, turns⟩ := s
  simp_all [exec, execWait, inOp, State.setTodo, State.emit, State.ran, phases]

/-- A bus write that is answered ok runs as the write and its settle delay (40_transport R140). -/
theorem write_runs (free : Bool) (p : Params) (c : Cfg) (i : Instr) (v : Byte)
    (hi : ∀ s : State, s.par = p → s.seq.isSome → exec i s = busWriteOp v s) :
    RunsAs free p c (.call i) (writeEvents c.addr v) 1 := by
  intro s k hp h _
  obtain ⟨q, hq, ht⟩ := h.seq
  obtain ⟨rest, hb⟩ : ∃ rest, s.bus = .ok :: rest := by
    have := h.ok
    unfold State.answersOk at this
    cases hbus : s.bus with
    | nil => simp [hbus] at this
    | cons a rest => exact ⟨rest, by simpa [hbus] using this⟩
  have h1 : step s = .next ((((s.setTodo k).drawn.emit (.busWrite c.addr v .ok)).nextPhase).push [.call (.wait Config.tSettle)]) := by
    rw [step_call hq ht h.undisturbed, hi (s.setTodo k) hp (by simp [hq])]
    have : (s.setTodo k).answer = .ok := State.answer_cons (rest := rest) (by simp [hb])
    simp [busWriteOp, withCfg, h.cfg, this]
  refine Reaches.head h1 (Reaches.head (t := s.ran (writeEvents c.addr v) 1 k) ?_ (Reaches.refl _))
  obtain ⟨hu1, hu2⟩ := h.undisturbed
  rw [step_call (q := { q with todo := .call (.wait Config.tSettle) :: k, pos := q.pos + 1 }) (i := .wait Config.tSettle) (k := k)
    (by simp [hq]) rfl ⟨by simp [hu1], by simpa [State.noCancel] using hu2⟩]
  obtain ⟨par, cfg, mode, win, rot, cancel, tx, lock, seq, status, trace, results, port, bus, draws, cur, parked, turns⟩ := s
  obtain ⟨op, pos, todo, ret, val⟩ := q
  simp only at hq hb hp
  subst hq hb hp
  simp [exec, execWait, inOp, State.setTodo, State.emit, State.drawn, State.nextPhase, State.push, State.ran, phases, writeEvents]
  rfl

/-- A call that expands into statements runs as they do. -/
theorem expand_runs (free : Bool) (p : Params) (c : Cfg) (i : Instr) (l : List (Stmt × List Event × Nat))
    (hi : ∀ s : State, s.par = p → s.cfg = some c → s.seq.isSome →
      exec i s = .next (s.push (l.map (fun x => x.1))))
    (hl : ∀ x ∈ l, RunsAs free p c x.1 x.2.1 x.2.2) :
    RunsAs free p c (.call i) (l.map (fun x => x.2.1)).flatten (l.map (fun x => x.2.2)).sum := by
  intro s k hp h hf
  obtain ⟨q, hq, ht⟩ := h.seq
  have h1 : step s = .next ((s.setTodo k).push (l.map (fun x => x.1))) := by
    rw [step_call hq ht h.undisturbed, hi (s.setTodo k) hp h.cfg (by simp [hq])]
  refine Reaches.head h1 ?_
  have h2 := runs_calls free p c l hl ((s.setTodo k).push (l.map (fun x => x.1)))
    { q with todo := l.map (fun x => x.1) ++ k } k hp (by simp [hq]) rfl h.cfg h.ok h.undisturbed hf
  have h3 : ((s.setTodo k).push (l.map (fun x => x.1))).ran (l.map (fun x => x.2.1)).flatten
      (l.map (fun x => x.2.2)).sum k = s.ran (l.map (fun x => x.2.1)).flatten (l.map (fun x => x.2.2)).sum k := by
    obtain ⟨par, cfg, mode, win, rot, cancel, tx, lock, seq, status, trace, results, port, bus, draws, cur, parked, turns⟩ := s
    simp only at hq
    subst hq
    rfl
  rwa [h3] at h2

/-! ### Frames (40_transport R142, R143) -/

theorem hiNibble_nibbleByte (d : Nibble) : hiNibble (nibbleByte d) = d := by
  revert d
  decide

theorem highOf_eq (b : Byte) : highOf b = hiNibble b := by
  revert b
  decide

theorem lowOf_eq (b : Byte) : lowOf b = loNibble b := by
  revert b
  decide

theorem exec_inOp {s : State} (h : s.seq.isSome = true) (k : Outc) : inOp s k = k := by
  unfold inOp
  split
  · simp_all
  · rfl

end Sys2Proof.Machine
end

