-- ==== Sys2Proof/Laws/Breaks.lean ====
section
/-! SUPPORT. Procedures in which a bus write fails: where the trace is cut and what the operation leaves, for one write, for
a list of calls, and for the transport's procedures. -/

namespace Sys2Proof.Machine

/-! ### Counting and cutting -/

theorem busWrites_append (e1 e2 : List Event) : busWrites (e1 ++ e2) = busWrites e1 + busWrites e2 := by
  simp [busWrites]

theorem busWrites_wait (t : Nat) (e : List Event) : busWrites (.wait t :: e) = busWrites e := by
  simp [busWrites]

theorem busWrites_write (a : BitVec 7) (v : Byte) (x : BusAnswer) (e : List Event) :
    busWrites (.busWrite a v x :: e) = busWrites e + 1 := by
  simp [busWrites]

theorem busWrites_nil : busWrites [] = 0 := rfl

theorem busWrites_flatten (l : List (List Event)) : busWrites l.flatten = (l.map busWrites).sum := by
  induction l with
  | nil => rfl
  | cons e l ih => simp [busWrites_append, ih]

theorem busWrites_writeEvents (a : BitVec 7) (v : Byte) : busWrites (writeEvents a v) = 1 := rfl

/-- How many bus writes a nibble frame has. -/
def nibbleWrites (p : Params) : Nat := if p.prewrite then 3 else 2

theorem frameWrites_eq (p : Params) : frameWrites p = nibbleWrites p + nibbleWrites p := by
  unfold frameWrites nibbleWrites
  split <;> rfl

theorem busWrites_nibbleEvents (p : Params) (a : BitVec 7) (m : RegSel) (d : Nibble) :
    busWrites (nibbleEvents p a m d) = nibbleWrites p := by
  unfold nibbleEvents nibbleWrites
  split <;> rfl

theorem busWrites_frameEvents (p : Params) (a : BitVec 7) (m : RegSel) (b : Byte) :
    busWrites (frameEvents p a m b) = frameWrites p := by
  simp [frameEvents, busWrites_append, busWrites_nibbleEvents, frameWrites_eq]

theorem busWrites_streamEvents (p : Params) (a : BitVec 7) (l : List (RegSel × Byte)) :
    busWrites (streamEvents p a l) = frameWrites p * l.length := by
  induction l with
  | nil => rfl
  | cons c l ih => simp [streamEvents, busWrites_append, busWrites_frameEvents, ih, Nat.mul_add, Nat.add_comm]

theorem cutAt_append_left {k : Nat} {e1 : List Event} (e2 : List Event) (h : k < busWrites e1) :
    cutAt k (e1 ++ e2) = cutAt k e1 := by
  induction e1 generalizing k with
  | nil => simp [busWrites] at h
  | cons e e1 ih =>
    cases e with
    | wait t => simpa [cutAt] using ih (by simpa [busWrites_wait] using h)
    | busWrite a v x =>
      cases k with
      | zero => simp [cutAt]
      | succ k => simpa [cutAt] using ih (by simpa [busWrites_write] using h)

theorem cutAt_append_right {k : Nat} {e1 : List Event} (e2 : List Event) :
    cutAt (busWrites e1 + k) (e1 ++ e2) = e1 ++ cutAt k e2 := by
  induction e1 generalizing k with
  | nil => simp [busWrites]
  | cons e e1 ih =>
    cases e with
    | wait t => simpa [cutAt, busWrites_wait] using ih
    | busWrite a v x =>
      rw [busWrites_write, Nat.add_right_comm]
      simpa [cutAt] using ih

theorem State.failsAt_split {m k : Nat} {s : State} (h : s.failsAt (m + k)) :
    s.answersOk m ∧ (s.bus.drop m).take (k + 1) = List.replicate k .ok ++ [.busError] := by
  unfold State.failsAt at h
  constructor
  · have := congrArg (List.take m) h
    rw [List.take_take, Nat.min_eq_left (by omega)] at this
    rw [State.answersOk, this, List.take_append_of_le_length (by simp)]
    simp
  · have := congrArg (List.drop m) h
    rw [Nat.add_assoc, List.drop_take, Nat.add_sub_cancel_left] at this
    rw [this, List.drop_append_of_le_length (by simp)]
    simp

/-! ### Failing calls -/

/-- The lock is the requester's own or free. -/
def State.owned (s : State) : Prop := s.lock = some s.cur ∨ (s.lock = none ∧ s.tx = none)

theorem State.owned_ran {s : State} (h : s.owned) (evs : List Event) (n : Nat) (k : List Stmt) :
    (s.ran evs n k).owned := by
  rcases h with h | ⟨h, ht⟩
  · exact .inl h
  · exact .inr ⟨h, by simp [State.ran, ht, phases_none]⟩

/-- `raise` from inside an operation, element by element (60_exceptions R280). -/
theorem raise_failedOp {s : State} (e : ErrCode) (h : s.owned) : s.raise e = s.failedOp e [] 0 := by
  obtain ⟨par, cfg, mode, win, rot, cancel, tx, lock, seq, status, trace, results, port, bus, draws, cur, parked, turns⟩ := s
  rcases h with h | ⟨h, ht⟩
  · obtain rfl : lock = some cur := h
    cases seq with
    | none => simp [State.raise, State.tellOthers, State.closeOp, State.releaseLock, State.report, State.failedOp, State.othersRotate, State.emitted, State.inInit]
    | some q =>
      by_cases hi : isInitOp q.op <;>
        simp [State.raise, State.tellOthers, State.closeOp, State.releaseLock, State.report, State.failedOp, State.othersRotate, State.emitted, State.inInit, hi]
  · obtain rfl : lock = none := h
    obtain rfl : tx = none := ht
    cases seq with
    | none => simp [State.raise, State.tellOthers, State.closeOp, State.releaseLock, State.report, State.failedOp, State.othersRotate, State.emitted, State.inInit]
    | some q =>
      by_cases hi : isInitOp q.op <;>
        simp [State.raise, State.tellOthers, State.closeOp, State.releaseLock, State.report, State.failedOp, State.othersRotate, State.emitted, State.inInit, hi]

theorem State.failedOp_ran (e : ErrCode) (e1 e2 : List Event) (m n : Nat) (k : List Stmt) (s : State) :
    (s.ran e1 m k).failedOp e e2 n = s.failedOp e (e1 ++ e2) (m + n) := by
  obtain ⟨par, cfg, mode, win, rot, cancel, tx, lock, seq, status, trace, results, port, bus, draws, cur, parked, turns⟩ := s
  cases seq with
  | none => cases mode <;> simp [State.ran, State.failedOp, State.othersRotate, State.emitted, State.inInit]
  | some q =>
    by_cases hi : isInitOp q.op <;> cases mode <;>
      simp [State.ran, State.failedOp, State.othersRotate, State.emitted, State.inInit, hi]

/-- What it is for a statement to break as `evs` does at each of its writes. -/
def BreaksAs (free : Bool) (p : Params) (c : Cfg) (st : Stmt) (evs : List Event) : Prop :=
  ∀ (s : State) (q : Seq) (k : List Stmt) (j : Nat), s.par = p → s.seq = some q → q.todo = st :: k →
    s.cfg = some c → s.undisturbed → s.owned → s.free free → j < busWrites evs → s.failsAt j →
    Reaches s (s.failedOp .transportError (cutAt j evs) (j + 1))

theorem breaks_calls (free : Bool) (p : Params) (c : Cfg) (l : List (Stmt × List Event × Nat))
    (hl : ∀ x ∈ l, RunsAs free p c x.1 x.2.1 x.2.2 ∧ BreaksAs free p c x.1 x.2.1 ∧ x.2.2 = busWrites x.2.1) :
    ∀ (s : State) (q : Seq) (k : List Stmt) (j : Nat), s.par = p → s.seq = some q →
      q.todo = l.map (fun x => x.1) ++ k → s.cfg = some c → s.undisturbed → s.owned → s.free free →
      j < busWrites (l.map (fun x => x.2.1)).flatten → s.failsAt j →
      Reaches s (s.failedOp .transportError (cutAt j (l.map (fun x => x.2.1)).flatten) (j + 1)) := by
  induction l with
  | nil => intro s q k j _ _ _ _ _ _ _ hj; simp [busWrites] at hj
  | cons x l ih =>
    intro s q k j hp hq ht hc hu ho hf hj hb
    obtain ⟨hr, hbr, hn⟩ := hl x (by simp)
    simp only [List.map_cons, List.flatten_cons, List.cons_append] at ht hj ⊢
    by_cases hlt : j < busWrites x.2.1
    · rw [cutAt_append_left _ hlt]
      exact hbr s q _ j hp hq ht hc hu ho hf hlt hb
    · obtain ⟨i, rfl⟩ : ∃ i, j = busWrites x.2.1 + i := ⟨j - busWrites x.2.1, by omega⟩
      obtain ⟨hok, hrest⟩ := State.failsAt_split hb
      rw [cutAt_append_right, Nat.add_assoc]
      have h1 := hr s (l.map (fun x => x.1) ++ k) hp
        { seq := ⟨q, hq, ht⟩, cfg := hc, ok := by rw [hn]; exact hok, undisturbed := hu } hf
      refine h1.trans ?_
      rw [← State.failedOp_ran .transportError x.2.1 _ _ _ (l.map (fun x => x.1) ++ k), hn]
      refine ih (fun y hy => hl y (by simp [hy])) _
        { q with todo := l.map (fun x => x.1) ++ k, pos := q.pos + x.2.1.length } k i hp
        (by simp [State.ran, hq]) rfl hc hu (State.owned_ran ho _ _ _) (State.free_ran hf _ _ _)
        (by rw [busWrites_append] at hj; omega) hrest

/-- A single write breaks at once. -/
theorem write_breaks (free : Bool) (p : Params) (c : Cfg) (i : Instr) (v : Byte)
    (hi : ∀ s : State, s.par = p → s.seq.isSome → exec i s = busWriteOp v s) :
    BreaksAs free p c (.call i) (writeEvents c.addr v) := by
  intro s q k j hp hq ht hc hu ho _ hj hb
  obtain rfl : j = 0 := by rw [busWrites_writeEvents] at hj; omega
  obtain ⟨rest, hbus⟩ : ∃ rest, s.bus = .busError :: rest := by
    unfold State.failsAt at hb
    cases h : s.bus with
    | nil => simp [h] at hb
    | cons a rest => exact ⟨rest, by simpa [h] using hb⟩
  refine Reaches.head (t := s.failedOp .transportError (cutAt 0 (writeEvents c.addr v)) 1) ?_ (Reaches.refl _)
  rw [step_call hq ht hu, hi (s.setTodo k) hp (by simp [hq])]
  have h1 : (s.setTodo k).answer = .busError := State.answer_cons (rest := rest) (by simp [hbus])
  simp only [busWriteOp, withCfg, State.setTodo_cfg, hc, h1]
  rw [raise_failedOp]
  · obtain ⟨par, cfg, mode, win, rot, cancel, tx, lock, seq, status, trace, results, port, bus, draws, cur, parked, turns⟩ := s
    simp only at hbus hq
    subst hbus hq
    simp [State.setTodo, State.drawn, State.emit, State.failedOp, State.othersRotate, State.emitted, State.inInit, cutAt, writeEvents]
    cases mode <;> simp <;> exact ⟨rfl, rfl⟩
  · rcases ho with ho | ⟨ho, htx⟩
    · left; simpa using ho
    · right; simpa using ⟨ho, htx⟩

theorem wait_breaks (free : Bool) (p : Params) (c : Cfg) (t : Nat) : BreaksAs free p c (.call (.wait t)) [.wait t] := by
  intro s q k j _ _ _ _ _ _ _ hj
  simp [busWrites] at hj

/-- A call that expands into calls breaks as they do. -/
theorem expand_breaks (free : Bool) (p : Params) (c : Cfg) (i : Instr) (l : List (Stmt × List Event × Nat))
    (hi : ∀ s : State, s.par = p → s.cfg = some c → s.seq.isSome →
      exec i s = .next (s.push (l.map (fun x => x.1))))
    (hl : ∀ x ∈ l, RunsAs free p c x.1 x.2.1 x.2.2 ∧ BreaksAs free p c x.1 x.2.1 ∧ x.2.2 = busWrites x.2.1) :
    BreaksAs free p c (.call i) (l.map (fun x => x.2.1)).flatten := by
  intro s q k j hp hq ht hc hu ho hf hj hb
  have h1 : step s = .next ((s.setTodo k).push (l.map (fun x => x.1))) := by
    rw [step_call hq ht hu, hi (s.setTodo k) hp hc (by simp [hq])]
  refine Reaches.head h1 ?_
  have h2 := breaks_calls free p c l hl ((s.setTodo k).push (l.map (fun x => x.1)))
    { q with todo := l.map (fun x => x.1) ++ k } k j hp (by simp [hq]) rfl hc hu
    (by rcases ho with ho | ⟨ho, htx⟩
        · left; simpa using ho
        · right; simpa using ⟨ho, htx⟩) hf hj hb
  have h3 : ((s.setTodo k).push (l.map (fun x => x.1))).failedOp .transportError
      (cutAt j (l.map (fun x => x.2.1)).flatten) (j + 1)
      = s.failedOp .transportError (cutAt j (l.map (fun x => x.2.1)).flatten) (j + 1) := by
    obtain ⟨par, cfg, mode, win, rot, cancel, tx, lock, seq, status, trace, results, port, bus, draws, cur, parked, turns⟩ := s
    simp only at hq
    subst hq
    rfl
  rwa [h3] at h2

/-! ### Calls, running and breaking -/

/-- A statement runs as `evs`, and breaks as `evs` does where a write fails. -/
structure Runs (free : Bool) (p : Params) (c : Cfg) (st : Stmt) (evs : List Event) : Prop where
  runs : RunsAs free p c st evs (busWrites evs)
  breaks : BreaksAs free p c st evs

/-- The form `runs_calls` and `breaks_calls` take a list of calls in. -/
def counted (l : List (Stmt × List Event)) : List (Stmt × List Event × Nat) := l.map (fun x => (x.1, x.2, busWrites x.2))

theorem counted_calls (l : List (Stmt × List Event)) :
    (counted l).map (fun x => x.1) = l.map (fun x => x.1) := by simp [counted]

theorem counted_events (l : List (Stmt × List Event)) :
    ((counted l).map (fun x => x.2.1)).flatten = (l.map (fun x => x.2)).flatten := by
  simp [counted, Function.comp_def]

theorem counted_writes (l : List (Stmt × List Event)) :
    ((counted l).map (fun x => x.2.2)).sum = busWrites (l.map (fun x => x.2)).flatten := by
  simp [counted, busWrites_flatten, Function.comp_def]

theorem counted_mem {free : Bool} {p : Params} {c : Cfg} {l : List (Stmt × List Event)}
    (hl : ∀ x ∈ l, Runs free p c x.1 x.2) :
    ∀ x ∈ counted l, RunsAs free p c x.1 x.2.1 x.2.2 ∧ BreaksAs free p c x.1 x.2.1 ∧ x.2.2 = busWrites x.2.1 := by
  intro x hx
  obtain ⟨y, hy, rfl⟩ := List.mem_map.mp hx
  exact ⟨(hl y hy).runs, (hl y hy).breaks, rfl⟩

/-- A call that expands into calls runs and breaks as they do. -/
theorem expand (free : Bool) (p : Params) (c : Cfg) (i : Instr) (l : List (Stmt × List Event))
    (hi : ∀ s : State, s.par = p → s.cfg = some c → s.seq.isSome →
      exec i s = .next (s.push (l.map (fun x => x.1))))
    (hl : ∀ x ∈ l, Runs free p c x.1 x.2) : Runs free p c (.call i) (l.map (fun x => x.2)).flatten where
  runs := by
    have := expand_runs free p c i (counted l) (by simpa [counted_calls] using hi)
      (fun x hx => (counted_mem hl x hx).1)
    rwa [counted_events, counted_writes] at this
  breaks := by
    have := expand_breaks free p c i (counted l) (by simpa [counted_calls] using hi) (counted_mem hl)
    rwa [counted_events] at this

theorem wait_call (free : Bool) (p : Params) (c : Cfg) (t : Nat) : Runs free p c (.call (.wait t)) [.wait t] :=
  ⟨wait_runs free p c t, wait_breaks free p c t⟩

theorem write_call (free : Bool) (p : Params) (c : Cfg) (i : Instr) (v : Byte)
    (hi : ∀ s : State, s.par = p → s.seq.isSome → exec i s = busWriteOp v s) :
    Runs free p c (.call i) (writeEvents c.addr v) :=
  ⟨write_runs free p c i v hi, write_breaks free p c i v hi⟩

/-! ### The bus bytes, the strobe and the frame -/

theorem busWrite_call (free : Bool) (p : Params) (c : Cfg) (v : Byte) :
    Runs free p c (.call (.busWrite v)) (writeEvents c.addr v) :=
  write_call free p c _ _ fun s _ hs => by simp [exec, execBusWrite, exec_inOp hs]

theorem busByte_call (free : Bool) (p : Params) (c : Cfg) (d : Nibble) (bl en rw rs : Bool) :
    Runs free p c (.call (.busByte d bl en rw rs)) (writeEvents c.addr (busByteOf p d bl en rw rs)) :=
  write_call free p c _ _ fun s hp hs => by simp [exec, execBusByte, exec_inOp hs, hp]

theorem enSet_call (free : Bool) (p : Params) (c : Cfg) (d : Nibble) (m : RegSel) :
    Runs free p c (.call (.nibbleEnSet d m)) (writeEvents c.addr (enSetByte p d m)) :=
  write_call free p c _ _ fun s hp hs => by simp [exec, execNibbleEnSet, exec_inOp hs, hp]

theorem enClear_call (free : Bool) (p : Params) (c : Cfg) (d : Nibble) (m : RegSel) :
    Runs free p c (.call (.nibbleEnClear d m)) (writeEvents c.addr (enClearByte p d m)) :=
  write_call free p c _ _ fun s hp hs => by simp [exec, execNibbleEnClear, exec_inOp hs, hp]

theorem prewrite_call (free : Bool) (p : Params) (c : Cfg) (d : Nibble) (m : RegSel) :
    Runs free p c (.call (.nibblePrewrite d m)) (writeEvents c.addr (prewriteByte p d m)) :=
  write_call free p c _ _ fun s hp hs => by simp [exec, execNibblePrewrite, exec_inOp hs, hp]

theorem backlightOn_call (free : Bool) (p : Params) (c : Cfg) :
    Runs free p c (.call .backlightOn) (writeEvents c.addr (backlightByte p true)) :=
  write_call free p c _ _ fun s hp hs => by simp [exec, execBacklightOn, exec_inOp hs, hp]

theorem backlightOff_call (free : Bool) (p : Params) (c : Cfg) :
    Runs free p c (.call .backlightOff) (writeEvents c.addr (backlightByte p false)) :=
  write_call free p c _ _ fun s hp hs => by simp [exec, execBacklightOff, exec_inOp hs, hp]

/-- NIBBLE is the enable strobe of its nibble (40_transport R142). -/
theorem nibble_call (free : Bool) (p : Params) (c : Cfg) (x : Byte) (m : RegSel) :
    Runs free p c (.call (.nibble x m)) (nibbleEvents p c.addr m (hiNibble x)) := by
  cases hpre : p.prewrite with
  | false =>
    have := expand free p c (.nibble x m)
      [(.call (.nibbleEnSet (hiNibble x) m), writeEvents c.addr (enSetByte p (hiNibble x) m)), (.call (.wait Config.tEnHold), [.wait Config.tEnHold]),
       (.call (.nibbleEnClear (hiNibble x) m), writeEvents c.addr (enClearByte p (hiNibble x) m)), (.call (.wait Config.tPostHold), [.wait Config.tPostHold])]
      (fun s hp _ hs => by simp [exec, execNibble, exec_inOp hs, hp, hpre])
      (by simp [enSet_call, enClear_call, wait_call])
    simpa [nibbleEvents, hpre] using this
  | true =>
    have := expand free p c (.nibble x m)
      [(.call (.nibblePrewrite (hiNibble x) m), writeEvents c.addr (prewriteByte p (hiNibble x) m)),
       (.call (.nibbleEnSet (hiNibble x) m), writeEvents c.addr (enSetByte p (hiNibble x) m)), (.call (.wait Config.tEnHold), [.wait Config.tEnHold]),
       (.call (.nibbleEnClear (hiNibble x) m), writeEvents c.addr (enClearByte p (hiNibble x) m)), (.call (.wait Config.tPostHold), [.wait Config.tPostHold])]
      (fun s hp _ hs => by simp [exec, execNibble, exec_inOp hs, hp, hpre])
      (by simp [enSet_call, enClear_call, prewrite_call, wait_call])
    simpa [nibbleEvents, hpre] using this

/-- COMMAND_FRAME is its two nibble frames (30_encoding R104). -/
theorem commandFrame_call (free : Bool) (p : Params) (c : Cfg) (h l : Nibble) (m : RegSel) :
    Runs free p c (.call (.commandFrame h l m)) (nibbleEvents p c.addr m h ++ nibbleEvents p c.addr m l) := by
  have := expand free p c (.commandFrame h l m)
    [(.call (.nibble (nibbleByte h) m), nibbleEvents p c.addr m (hiNibble (nibbleByte h))),
     (.call (.nibble (nibbleByte l) m), nibbleEvents p c.addr m (hiNibble (nibbleByte l)))]
    (fun s _ _ hs => by simp [exec, execCommandFrame, exec_inOp hs])
    (by simp [nibble_call])
  simpa [hiNibble_nibbleByte] using this

/-- A procedure that takes the free lock, makes one call and releases the lock runs as that call, breaks as it, and leaves
the lock free (40_transport R143, R144; 60_exceptions R280 (b)). -/
theorem locked_call (p : Params) (c : Cfg) (st : Stmt) (j : Instr) (evs : List Event) (hj : Runs false p c (.call j) evs)
    (hi : ∀ s : State, s.seq.isSome → s.cfg = some c → s.lock = none → s.tx = none →
      ∃ tx, execStmt st s = .next (({ s with lock := some s.cur, tx := tx } : State).push [.call j, .release])) :
    Runs true p c st evs := by
  constructor
  · intro s k hp h hf
    obtain ⟨hl, htx⟩ := hf rfl
    obtain ⟨q, hq, ht⟩ := h.seq
    obtain ⟨tx', he⟩ := hi (s.setTodo k) (by simp [hq]) h.cfg hl htx
    refine Reaches.head ((step_stmt hq ht h.undisturbed).trans he) ?_
    obtain ⟨hu1, hu2⟩ := h.undisturbed
    refine (hj.runs (({ s.setTodo k with lock := some (s.setTodo k).cur, tx := tx' } : State).push [.call j, .release])
      (.release :: k) hp
      { seq := ⟨{ q with todo := .call j :: .release :: k }, by simp [State.push, State.setTodo, hq]⟩, cfg := h.cfg, ok := h.ok,
        undisturbed := ⟨hu1, hu2⟩ } (by simp [State.free])).trans ?_
    obtain ⟨par, cfg, mode, win, rot, cancel, tx, lock, seq, status, trace, results, port, bus, draws, cur, parked, turns⟩ := s
    obtain ⟨op, pos, todo, ret, val⟩ := q
    simp only at hq hp hl htx
    subst hq hp hl htx
    refine Reaches.head ?_ (Reaches.refl _)
    refine (step_release (k := k) (q := { op := op, pos := pos + evs.length, todo := .release :: k, ret := ret, val := val })
      (by rfl) rfl (by exact ⟨hu1, hu2⟩)).trans ?_
    simp [State.setTodo, State.push, State.ran, State.releaseLock, phases_none]
  · intro s q k n hp hq ht hc hu ho hf hn hb
    obtain ⟨hl, htx⟩ := hf rfl
    obtain ⟨tx', he⟩ := hi (s.setTodo k) (by simp [hq]) hc hl htx
    refine Reaches.head ((step_stmt hq ht hu).trans he) ?_
    have h2 := hj.breaks (({ s.setTodo k with lock := some (s.setTodo k).cur, tx := tx' } : State).push [.call j, .release])
      { q with todo := .call j :: .release :: k } (.release :: k) n hp (by simp [State.push, State.setTodo, hq]) rfl hc hu
      (.inl rfl) (by simp [State.free]) hn hb
    have h3 : (({ s.setTodo k with lock := some (s.setTodo k).cur, tx := tx' } : State).push [.call j, .release]).failedOp
        .transportError (cutAt n evs) (n + 1) = s.failedOp .transportError (cutAt n evs) (n + 1) := by
      obtain ⟨par, cfg, mode, win, rot, cancel, tx, lock, seq, status, trace, results, port, bus, draws, cur, parked, turns⟩ := s
      simp only at hq
      subst hq
      rfl
    rwa [h3] at h2

/-- A statement that, finding the lock free, is one command frame. -/
theorem frame_stmt (p : Params) (c : Cfg) (st : Stmt) (b : Byte) (m : RegSel)
    (hi : ∀ s : State, s.seq.isSome → s.cfg = some c → s.lock = none → execStmt st s = .next (enterFrame b m s)) :
    Runs true p c st (frameEvents p c.addr m b) := by
  have h := commandFrame_call false p c (highOf b) (lowOf b) m
  rw [highOf_eq, lowOf_eq] at h
  refine locked_call p c st _ _ h fun s hs hc hl _ => ⟨some { byte := b, mode := m, phase := 0 }, ?_⟩
  simp [hi s hs hc hl, enterFrame, hl, highOf_eq, lowOf_eq]

/-- An operation that is one command frame. -/
theorem frame_call (p : Params) (c : Cfg) (i : Instr) (b : Byte) (m : RegSel)
    (hi : ∀ s : State, s.seq.isSome → exec i s = .next (enterFrame b m s)) :
    Runs true p c (.call i) (frameEvents p c.addr m b) :=
  frame_stmt p c _ b m fun s hs _ _ => hi s hs

/-- The function-set frame of INIT, of the line count CFG holds (41_display_controller R163, 30_encoding R108). -/
theorem functionSet_stmt (p : Params) (c : Cfg) :
    Runs true p c .functionSet (frameEvents p c.addr .instruction (functionSetByte (lineCountBit c.lines))) :=
  frame_stmt p c _ _ _ fun s hs hc hl => by
    simp [execStmt, functionSetOp, hl, withCfg, hc, execFunctionSet, exec_inOp hs]

/-- The wait of the rotate loop, of the interval CFG holds (44_render_policy R246). -/
theorem rotWait_stmt (free : Bool) (p : Params) (c : Cfg) : Runs free p c .rotWait [.wait c.rotInterval] where
  runs := by
    intro s k _ h _
    obtain ⟨q, hq, ht⟩ := h.seq
    refine Reaches.head (t := s.ran [.wait c.rotInterval] 0 k) ?_ (Reaches.refl _)
    rw [step_stmt hq ht h.undisturbed]
    have hc := h.cfg
    obtain ⟨par, cfg, mode, win, rot, cancel, tx, lock, seq, status, trace, results, port, bus, draws, cur, parked, turns⟩ := s
    simp_all [execStmt, rotWaitOp, withCfg, State.setTodo, State.emit, State.ran, phases]
  breaks := by
    intro s q k j _ _ _ _ _ _ _ hj
    simp [busWrites] at hj

/-- BACKLIGHT called by a rule: one unframed write under the lock (41_display_controller R166). -/
theorem backlight_call (p : Params) (c : Cfg) (on : Bool) :
    Runs true p c (.call (.backlight on)) (writeEvents c.addr (backlightByte p on)) := by
  refine locked_call p c _ (if on then .backlightOn else .backlightOff) _ ?_ fun s hs _ hl htx => ⟨none, ?_⟩
  · cases on
    · exact backlightOff_call false p c
    · exact backlightOn_call false p c
  · obtain ⟨q, hq⟩ := Option.isSome_iff_exists.mp hs
    simp only [execStmt, exec, execBacklight, hq, enterBacklight, hl]
    rw [← htx]

end Sys2Proof.Machine
end

