-- ==== Sys2Proof/Laws/Calls.lean ====
section
/-! SUPPORT. Whole procedures: the calls of the display controller and the render policy, running and breaking, and a host
operation from its start to its result. -/

namespace Sys2Proof.Machine

theorem streamEvents_flatten (p : Params) (addr : BitVec 7) (l : List (RegSel × Byte)) :
    streamEvents p addr l = (l.map (fun c => frameEvents p addr c.1 c.2)).flatten := by
  induction l with
  | nil => rfl
  | cons c l ih => simp [streamEvents, ih]

theorem streamEvents_append (p : Params) (addr : BitVec 7) (l l' : List (RegSel × Byte)) :
    streamEvents p addr (l ++ l') = streamEvents p addr l ++ streamEvents p addr l' := by
  simp [streamEvents_flatten]

/-! ### LCD bytes as calls -/

theorem data_call (p : Params) (c : Cfg) (d : Byte) : Runs true p c (.call (.data d)) (frameEvents p c.addr .data d) :=
  frame_call p c _ _ _ fun s hs => by simp [exec, execData, exec_inOp hs]

theorem setDdram_call (p : Params) (c : Cfg) (a : BitVec 7) :
    Runs true p c (.call (.setDdram a)) (frameEvents p c.addr .instruction (setDdramByte a)) :=
  frame_call p c _ _ _ fun s hs => by simp [exec, execSetDdram, exec_inOp hs]

theorem setCgram_call (p : Params) (c : Cfg) (a : BitVec 6) :
    Runs true p c (.call (.setCgram a)) (frameEvents p c.addr .instruction (setCgramByte a)) :=
  frame_call p c _ _ _ fun s hs => by simp [exec, execSetCgram, exec_inOp hs]

theorem functionSet_call (p : Params) (c : Cfg) (n : Bool) :
    Runs true p c (.call (.functionSet n)) (frameEvents p c.addr .instruction (functionSetByte n)) :=
  frame_call p c _ _ _ fun s hs => by simp [exec, execFunctionSet, exec_inOp hs]

/-- The commands without operands. -/
theorem fixed_call (p : Params) (c : Cfg) :
    ∀ x ∈ [(Instr.wake, wakeByte), (.set4bit, set4bitByte), (.displayOn, displayOnByte),
           (.clearDisplay, clearDisplayByte), (.entryModeLeft, entryModeLeftByte), (.returnHome, returnHomeByte)],
      Runs true p c (.call x.1) (frameEvents p c.addr .instruction x.2) := by
  intro x hx
  simp only [List.mem_cons, List.not_mem_nil, or_false] at hx
  rcases hx with rfl | rfl | rfl | rfl | rfl | rfl <;>
    exact frame_call p c _ _ _ fun s hs => by
      simp [exec, execWake, execSet4bit, execDisplayOn, execClearDisplay, execEntryModeLeft, execReturnHome, exec_inOp hs]

theorem writeCmd_call (p : Params) (c : Cfg) (b : Byte) (m : RegSel) :
    Runs true p c (.call (.writeCmd b m)) (frameEvents p c.addr m b) :=
  frame_call p c _ _ _ fun s hs => by
    obtain ⟨q, hq⟩ := Option.isSome_iff_exists.mp hs
    simp [exec, execWriteCmd, hq]

/-- A string's data frames as calls (20_memory R77). -/
def dataCalls (p : Params) (addr : BitVec 7) (str : Str) : List (Stmt × List Event) :=
  str.map (fun b => (.call (.data b), frameEvents p addr .data b))

theorem dataCalls_call (p : Params) (c : Cfg) (str : Str) : ∀ x ∈ dataCalls p c.addr str, Runs true p c x.1 x.2 := by
  intro x hx
  obtain ⟨b, -, rfl⟩ := List.mem_map.mp hx
  exact data_call p c b

theorem dataCalls_calls (p : Params) (addr : BitVec 7) (str : Str) :
    (dataCalls p addr str).map (fun x => x.1) = str.map (fun b => Stmt.call (.data b)) := by
  simp [dataCalls]

theorem dataCalls_events (p : Params) (addr : BitVec 7) (str : Str) :
    ((dataCalls p addr str).map (fun x => x.2)).flatten = streamEvents p addr (dataStream str) := by
  simp [dataCalls, streamEvents_flatten, dataStream, Function.comp_def]

/-! ### Cursor, raw strings, lines -/

/-- `cursorCheck` passes on a line of the geometry whose address fits (41_display_controller R168). -/
theorem cursorCheck_reaches {c : Cfg} {line col a : Nat} (h : c.reaches line col a) :
    cursorCheck c.lines line col = .pass (BitVec.ofNat 7 a) := by
  obtain ⟨h1, h2, ha, hle⟩ := h
  have : ¬ (line < 1 ∨ c.lines < line) := by omega
  have h3 : ¬ 127 < a := by omega
  unfold cursorCheck
  rw [if_neg this]
  simp [ha, h3]

theorem cursorCheck_badLine {c : Cfg} {line : Nat} (col : Nat) (h : c.badLine line) :
    cursorCheck c.lines line col = .raise .invalidLineError := by
  unfold cursorCheck
  exact if_pos h

theorem posCursor_call (p : Params) (c : Cfg) {line col : Nat} {a : BitVec 7}
    (h : cursorCheck c.lines line col = .pass a) :
    Runs true p c (.call (.posCursor line col)) (frameEvents p c.addr .instruction (setDdramByte a)) := by
  have := expand true p c (.posCursor line col) [(.call (.setDdram a), frameEvents p c.addr .instruction (setDdramByte a))]
    (fun s _ hc hs => by
      obtain ⟨q, hq⟩ := Option.isSome_iff_exists.mp hs
      simp [exec, execPosCursor, hq, withCfg, hc, h])
    (by simpa using setDdram_call p c a)
  simpa using this

/-- The command stream of a raw string written at DDRAM address `a` (30_encoding R120). -/
def rawStream (a : BitVec 7) (str : Str) : List (RegSel × Byte) := (.instruction, setDdramByte a) :: dataStream str

/-- The calls of a raw string (41_display_controller R169). -/
def rawCalls (p : Params) (addr : BitVec 7) (line pos : Nat) (a : BitVec 7) (str : Str) : List (Stmt × List Event) :=
  (.call (.posCursor line pos), frameEvents p addr .instruction (setDdramByte a)) :: dataCalls p addr str

theorem rawCalls_call (p : Params) (c : Cfg) {line pos : Nat} {a : BitVec 7} (str : Str)
    (h : cursorCheck c.lines line pos = .pass a) : ∀ x ∈ rawCalls p c.addr line pos a str, Runs true p c x.1 x.2 := by
  intro x hx
  rcases List.mem_cons.mp hx with rfl | hx
  · exact posCursor_call p c h
  · exact dataCalls_call p c str x hx

theorem rawCalls_events (p : Params) (addr : BitVec 7) (line pos : Nat) (a : BitVec 7) (str : Str) :
    ((rawCalls p addr line pos a str).map (fun x => x.2)).flatten = streamEvents p addr (rawStream a str) := by
  simp only [rawCalls, List.map_cons, List.flatten_cons, dataCalls_events]
  rfl

theorem rawCalls_calls (p : Params) (addr : BitVec 7) (line pos : Nat) (a : BitVec 7) (str : Str) :
    (rawCalls p addr line pos a str).map (fun x => x.1)
      = .call (.posCursor line pos) :: str.map (fun b => .call (.data b)) := by
  simp only [rawCalls, List.map_cons, dataCalls_calls]

/-- What `writeRawBody` pushes when its check passes. -/
theorem writeRawBody_pass {s : State} {c : Cfg} {line pos : Nat} {a : BitVec 7} (str : Str) (hc : s.cfg = some c)
    (h : cursorCheck c.lines line pos = .pass a) :
    writeRawBody str line pos s = .next (s.push (.call (.posCursor line pos) :: str.map (fun b => .call (.data b)))) := by
  simp [writeRawBody, withCfg, hc, h]

theorem writeRaw_call (p : Params) (c : Cfg) {line pos : Nat} {a : BitVec 7} (str : Str)
    (h : cursorCheck c.lines line pos = .pass a) :
    Runs true p c (.call (.writeRaw str line pos)) (streamEvents p c.addr (rawStream a str)) := by
  have := expand true p c (.writeRaw str line pos) _
    (fun s _ hc hs => by
      obtain ⟨q, hq⟩ := Option.isSome_iff_exists.mp hs
      rw [rawCalls_calls p c.addr line pos a str]
      simp [exec, execWriteRaw, hq, writeRawBody_pass str hc h])
    (rawCalls_call p c str h)
  rwa [rawCalls_events] at this

/-- RENDER_LINE sends a line of N bytes, whatever the string (44_render_policy R248). -/
theorem renderLine_call (p : Params) (c : Cfg) {line : Nat} {a : BitVec 7} (str : Str)
    (h : cursorCheck c.lines line 0 = .pass a) :
    Runs true p c (.call (.renderLine str line))
      (streamEvents p c.addr (rawStream a (padArms (shownPart str c.lineLength) c.lineLength [space] .left))) := by
  have := expand true p c (.renderLine str line) _
    (fun s _ hc hs => by
      rw [rawCalls_calls p c.addr line 0 a (padArms (shownPart str c.lineLength) c.lineLength [space] .left)]
      simp [exec, execRenderLine, exec_inOp hs, renderBody, withCfg, hc, writeRawBody_pass _ hc h])
    (rawCalls_call p c _ h)
  rwa [rawCalls_events] at this

/-- A string that fits is shown whole (44_render_policy R248). -/
@[simp] theorem shownPart_fits {str : Str} {n : Nat} (h : str.length ≤ n) : shownPart str n = str := if_pos h

/-- What is shown fits. -/
theorem shownPart_length (str : Str) (n : Nat) : (shownPart str n).length ≤ n := by
  unfold shownPart
  split
  · assumption
  · exact List.length_take_le _ _

/-- A string that fits is padded to the width (42_text_layout R192, R194). -/
theorem padStr_fits {str : Str} {n : Nat} (a : Align) (h : str.length ≤ n) :
    padStr str n [space] a = .ok (padArms str n [space] a) := by
  have : ¬ n < str.length := by omega
  simp [padStr, this]

/-! ### Host operations -/

/-- The premises under which a host operation's statements run to its end. -/
structure State.Quiet (c : Cfg) (s : State) : Prop where
  cfg : s.cfg = some c
  lock : s.lock = none
  tx : s.tx = none
  undisturbed : s.undisturbed

/-- A host operation that starts in `s` and is a list of statements runs to its result: its events, its result, MODE IDLE,
and, where it is INIT, the other requesters told (60_exceptions R291). -/
theorem op_ends (c : Cfg) (op : Instr) (st : Status) (v : Value) (l : List (Stmt × List Event)) (s : State)
    (hl : ∀ x ∈ l, Runs true s.par c x.1 x.2) (h : s.Quiet c) (hok : s.answersOk (busWrites (l.map (fun x => x.2)).flatten)) :
    Reaches ((s.startOp op (.done st v)).push (l.map (fun x => x.1)))
      { s.afterOp (l.map (fun x => x.2)).flatten (busWrites (l.map (fun x => x.2)).flatten) (.ok st v) with
        mode := .idle
        seq := none
        parked := if isInitOp op then s.parked.map (Requester.afterInit true) else s.parked } := by
  have h1 := runs_calls true s.par c (counted l) (fun x hx => (counted_mem hl x hx).1)
    ((s.startOp op (.done st v)).push (l.map (fun x => x.1)))
    { op := op, pos := 0, todo := l.map (fun x => x.1), ret := .done st v, val := .none } []
    rfl (by simp [State.startOp]) (by simp [counted_calls]) h.cfg (by rw [counted_writes]; exact hok) h.undisturbed
    (fun _ => ⟨h.lock, h.tx⟩)
  rw [counted_events, counted_writes] at h1
  refine h1.trans (Reaches.head ?_ (Reaches.refl _))
  obtain ⟨hu1, hu2⟩ := h.undisturbed
  rw [step_end (s := State.ran _ _ [] ((s.startOp op (.done st v)).push _))
    (q := { op := op, pos := 0 + (l.map (fun x => x.2)).flatten.length, todo := [], ret := .done st v, val := .none })
    (st := st) (v := v) (by simp [State.ran, State.startOp]) rfl rfl ⟨hu1, hu2⟩]
  obtain ⟨par, cfg, mode, win, rot, cancel, tx, lock, seq, status, trace, results, port, bus, draws, cur, parked, turns⟩ := s
  obtain ⟨-, hlk, htx, -⟩ := h
  simp only at hlk htx
  subst hlk htx
  by_cases hop : isInitOp op <;>
    simp [State.finish, State.tellOthers, State.inInit, hop, State.ran, State.push, State.startOp, State.closeOp,
      State.releaseLock, State.report, State.afterOp, State.emitted, phases_none]

/-- And at its first failing write it ends with `TransportError` (60_exceptions R280). -/
theorem op_breaks (c : Cfg) (op : Instr) (ret : Ret) (l : List (Stmt × List Event)) (s : State)
    (hl : ∀ x ∈ l, Runs true s.par c x.1 x.2) (h : s.Quiet c) {k : Nat}
    (hk : k < busWrites (l.map (fun x => x.2)).flatten) (hb : s.failsAt k) :
    Reaches ((s.startOp op ret).push (l.map (fun x => x.1)))
      { s.afterOp (cutAt k (l.map (fun x => x.2)).flatten) (k + 1) (.err .transportError) with
        mode := if isInitOp op then .uninit else .idle
        seq := none
        parked := if isInitOp op then s.parked.map (Requester.afterInit false) else s.parked } := by
  have h1 := breaks_calls true s.par c (counted l) (counted_mem hl)
    ((s.startOp op ret).push (l.map (fun x => x.1)))
    { op := op, pos := 0, todo := l.map (fun x => x.1), ret := ret, val := .none } [] k
    rfl (by simp [State.startOp]) (by simp [counted_calls]) h.cfg h.undisturbed (.inr ⟨h.lock, h.tx⟩)
    (fun _ => ⟨h.lock, h.tx⟩) (by rw [counted_events]; exact hk) hb
  rw [counted_events] at h1
  have h2 : ((s.startOp op ret).push (l.map (fun x => x.1))).failedOp .transportError
      (cutAt k (l.map (fun x => x.2)).flatten) (k + 1) =
      { s.afterOp (cutAt k (l.map (fun x => x.2)).flatten) (k + 1) (.err .transportError) with
        mode := if isInitOp op then .uninit else .idle
        seq := none
        parked := if isInitOp op then s.parked.map (Requester.afterInit false) else s.parked } := by
    obtain ⟨par, cfg, mode, win, rot, cancel, tx, lock, seq, status, trace, results, port, bus, draws, cur, parked, turns⟩ := s
    obtain ⟨-, hlk, htx, -⟩ := h
    simp only at hlk htx
    subst hlk htx
    by_cases hop : isInitOp op <;>
      simp [State.failedOp, State.inInit, hop, State.push, State.startOp, State.afterOp, State.emitted]
  rwa [h2] at h1

/-- An operation, INIT apart, that first changes `s` to `t` and then runs a list of statements. -/
theorem op_performs {c : Cfg} {i op : Instr} {s t : State} {st : Status} {v : Value} (l : List (Stmt × List Event))
    (hl : ∀ x ∈ l, Runs true t.par c x.1 x.2) (ht : t.Quiet c) (hm : t.mode = .idle) (hq : t.seq = none)
    (hbus : s.bus = t.bus) (hi : isInitOp op = false)
    (he : exec i s = .next ((t.startOp op (.done st v)).push (l.map (fun x => x.1)))) :
    Performs i s t t (l.map (fun x => x.2)).flatten (.ok st v) := by
  constructor
  · intro hok
    refine ⟨_, he, ?_⟩
    have := op_ends c op st v l t hl ht (by simpa [State.answersOk, hbus] using hok)
    rw [hi] at this
    simpa [State.afterOp, State.emitted, hm, hq] using this
  · intro k hk hb
    refine ⟨_, he, ?_⟩
    have := op_breaks c op (.done st v) l t hl ht hk (by simpa [State.failsAt, hbus] using hb)
    rw [hi] at this
    simpa [State.afterOp, State.emitted, hm, hq] using this

theorem State.Ready.quiet {c : Cfg} {s : State} (h : s.Ready c) : s.Quiet c := ⟨h.cfg, h.lock, h.tx, h.undisturbed⟩

/-! ### From calls to statements -/

theorem setTodo_self {s : State} {q : Seq} (hq : s.seq = some q) (l : List Stmt) :
    (s.setTodo l).setTodo q.todo = s := by
  obtain ⟨par, cfg, mode, win, rot, cancel, tx, lock, seq, status, trace, results, port, bus, draws, cur, parked, turns⟩ := s
  simp only at hq
  subst hq
  rfl

theorem Reaches.tail {s t : State} (h : Reaches s t) (hne : s ≠ t) : ∃ u, step s = .next u ∧ Reaches u t := by
  obtain ⟨k, hk⟩ := h
  cases k with
  | zero => exact absurd (by simpa [run] using hk) hne
  | succ k =>
    simp only [run] at hk
    cases hs : step s with
    | next u => exact ⟨u, rfl, k, by simpa [hs] using hk⟩
    | fault f => simp [hs] at hk
    | refused r => simp [hs] at hk

/-- A frame in flight keeps its byte and mode (10_state R43). -/
theorem phases_map (p : Params) (n : Nat) (tx : Option TxFrame) :
    (phases p n tx).map (fun f => (f.byte, f.mode)) = tx.map (fun f => (f.byte, f.mode)) := by
  induction n generalizing tx with
  | zero => rfl
  | succ n ih =>
    unfold phases at ih ⊢
    rw [Function.iterate_succ_apply, ih]
    cases tx with
    | none => rfl
    | some f => by_cases h : f.phase + 1 < frameWrites p <;> simp [h]

/-- A call that runs and breaks as `evs`, said of the state the call is made from. -/
theorem Runs.callRuns {free : Bool} {c : Cfg} {q : Seq} {i : Instr} {evs : List Event} {s : State}
    (h : Runs free s.par c (.call i) evs) (hq : s.seq = some q) (hc : s.cfg = some c) (hu : s.undisturbed) (ho : s.owned)
    (hf : s.free free) : CallRuns i s evs := by
  have hq0 : (s.setTodo (.call i :: q.todo)).seq = some { q with todo := .call i :: q.todo } := by simp [hq]
  have hst : step (s.setTodo (.call i :: q.todo)) = exec i s := by
    rw [step_call hq0 rfl (by simpa [State.undisturbed, State.noCancel] using hu), setTodo_self hq]
  constructor
  · intro hok
    have h1 := h.runs (s.setTodo (.call i :: q.todo)) q.todo rfl
      { seq := ⟨_, hq0, rfl⟩, cfg := hc, ok := by simpa [State.answersOk] using hok, undisturbed := by simpa [State.undisturbed, State.noCancel] using hu }
      (by simpa [State.free] using hf)
    have hne : s.setTodo (.call i :: q.todo) ≠ (s.setTodo (.call i :: q.todo)).ran evs (busWrites evs) q.todo := by
      intro he
      have := congrArg State.seq he
      rw [hq0] at this
      simp only [State.ran, hq0, Option.map_some, Option.some.injEq] at this
      have := congrArg Seq.todo this
      simp at this
    obtain ⟨u, hu1, hu2⟩ := h1.tail hne
    rw [hst] at hu1
    refine ⟨_, ⟨u, hu1, hu2⟩, ?_, ?_⟩
    · obtain ⟨par, cfg, mode, win, rot, cancel, tx, lock, seq, status, trace, results, port, bus, draws, cur, parked, turns⟩ := s
      simp only at hq
      subst hq
      simp [State.ran, State.afterCall, State.emitted, State.setTodo]
    · simp [State.ran, phases_map]
  · intro k hk hb
    have h1 := h.breaks (s.setTodo (.call i :: q.todo)) _ q.todo k rfl hq0 rfl hc (by simpa [State.undisturbed, State.noCancel] using hu)
      (by simpa [State.owned] using ho) (by simpa [State.free] using hf) hk (by simpa [State.failsAt] using hb)
    have he : (s.setTodo (.call i :: q.todo)).failedOp .transportError (cutAt k evs) (k + 1)
        = s.failedOp .transportError (cutAt k evs) (k + 1) := by
      obtain ⟨par, cfg, mode, win, rot, cancel, tx, lock, seq, status, trace, results, port, bus, draws, cur, parked, turns⟩ := s
      simp only at hq
      subst hq
      rfl
    rw [he] at h1
    have hne : s.setTodo (.call i :: q.todo) ≠ s.failedOp .transportError (cutAt k evs) (k + 1) := by
      intro he
      have := congrArg State.seq he
      rw [hq0] at this
      simp [State.failedOp] at this
    obtain ⟨u, hu1, hu2⟩ := h1.tail hne
    rw [hst] at hu1
    exact ⟨u, hu1, hu2⟩

theorem nibbleByte_hi {x : Byte} (h : lowNibbleClear x = true) : nibbleByte (hiNibble x) = x := by
  revert x; decide

end Sys2Proof.Machine
end

