-- ==== Sys2Proof/Laws/Ops.lean ====
section
/-! SUPPORT. One lemma for each guard and read the meanings share: what is left of it once its condition is known. -/

namespace Sys2Proof.Machine

theorem withCfg_some {s : State} {c : Cfg} (h : s.cfg = some c) (k : Cfg → Outc) : withCfg s k = k c := by
  simp [withCfg, h]

theorem withCfg_none {s : State} (h : s.cfg = none) (k : Cfg → Outc) : withCfg s k = .fault (.noValue .cfg) := by
  simp [withCfg, h]

theorem withWin_some {s : State} {w : Window} (h : s.win = some w) (k : Window → Outc) : withWin s k = k w := by
  simp [withWin, h]

theorem withWin_none {s : State} (h : s.win = none) (k : Window → Outc) : withWin s k = .fault (.noValue .win) := by
  simp [withWin, h]

theorem withRot_some {s : State} {r : Rot} (h : s.rot = some r) (k : Rot → Outc) : withRot s k = k r := by
  simp [withRot, h]

theorem withRot_none {s : State} (h : s.rot = none) (k : Rot → Outc) : withRot s k = .fault (.noValue .rot) := by
  simp [withRot, h]

theorem inOp_some {s : State} {q : Seq} (h : s.seq = some q) (k : Outc) : inOp s k = k := by
  simp [inOp, h]

theorem inOp_none {s : State} (h : s.seq = none) (k : Outc) : inOp s k = .next (s.report (.refused .unknownOp)) := by
  simp [inOp, h, State.refuse]

theorem whenInit_uninit {s : State} (h : s.mode = .uninit) (k : Outc) : whenInit s k = .next (s.refuse .notInit) := by
  simp [whenInit, h]

theorem whenInit_init {s : State} (h : s.mode ≠ .uninit) (k : Outc) : whenInit s k = k := by
  simp [whenInit, h]

theorem heldWhenBusy_idle {s : State} (i : Instr) (h : s.seq = none) (k : Outc) : heldWhenBusy i s k = k := by
  simp [heldWhenBusy, h]

theorem configureOp_free {s : State} (c : Cfg) (h : s.lock = none) :
    configureOp c s = ({ s with cfg := some c, win := none, cancel := false } : State).push initCalls := by
  simp [configureOp, h]

theorem configureOp_held {s : State} {r : Nat} (c : Cfg) (h : s.lock = some r) : configureOp c s = s.push [.configure c] := by
  simp [configureOp, h]

/-- What the next of a guard can be. -/
theorem withCfg_next {s t : State} {k : Cfg → Outc} (h : withCfg s k = .next t) : ∃ c, s.cfg = some c ∧ k c = .next t := by
  unfold withCfg at h
  split at h
  · simp at h
  · exact ⟨_, ‹_›, h⟩

theorem withWin_next {s t : State} {k : Window → Outc} (h : withWin s k = .next t) :
    ∃ w, s.win = some w ∧ k w = .next t := by
  unfold withWin at h
  split at h
  · simp at h
  · exact ⟨_, ‹_›, h⟩

theorem withRot_next {s t : State} {k : Rot → Outc} (h : withRot s k = .next t) : ∃ r, s.rot = some r ∧ k r = .next t := by
  unfold withRot at h
  split at h
  · simp at h
  · exact ⟨_, ‹_›, h⟩

theorem inOp_next {s t : State} {k : Outc} (h : inOp s k = .next t) :
    (s.seq = none ∧ t = s.report (.refused .unknownOp)) ∨ (s.seq.isSome = true ∧ k = .next t) := by
  unfold inOp at h
  split at h
  · left
    simp_all [State.refuse]
  · right
    simp_all

theorem whenInit_next {s t : State} {k : Outc} (h : whenInit s k = .next t) :
    (s.mode = .uninit ∧ t = s.refuse .notInit) ∨ (s.mode ≠ .uninit ∧ k = .next t) := by
  unfold whenInit at h
  split at h
  · left
    simp_all
  · right
    simp_all

/-- A held request goes back to the port, and nothing else changes (60_exceptions R285). -/
theorem heldWhenBusy_next {i : Instr} {s t : State} {k : Outc} (h : heldWhenBusy i s k = .next t) :
    (s.seq = none ∧ k = .next t) ∨ (s.seq.isSome = true ∧ ∃ l, t = { s with port := l }) := by
  unfold heldWhenBusy at h
  split at h
  · left
    simp_all
  · right
    refine ⟨by simp_all, ?_⟩
    split at h
    · obtain rfl := (Host.Outcome.next.inj h)
      exact ⟨_, rfl⟩
    · obtain rfl := (Host.Outcome.next.inj h)
      exact ⟨s.port, rfl⟩

/-- BUS_WRITE ends in its settle delay or in `TransportError` (40_transport R140). -/
theorem busWriteOp_next {v : Byte} {s t : State} (h : busWriteOp v s = .next t) :
    ∃ c, s.cfg = some c ∧
      ((s.answer = .ok ∧ t = (s.drawn.emit (.busWrite c.addr v .ok)).nextPhase.push [.call (.wait Config.tSettle)])
        ∨ (s.answer = .busError ∧ t = (s.drawn.emit (.busWrite c.addr v .busError)).raise .transportError)) := by
  obtain ⟨c, hc, h⟩ := withCfg_next h
  refine ⟨c, hc, ?_⟩
  cases ha : s.answer with
  | ok => left; simpa [ha] using h.symm
  | busError => right; simpa [ha] using h.symm

/-- WRITE_RAW's body either pushes its calls, or ends at the cursor's check (41_display_controller R169). -/
theorem writeRawBody_next {str : Str} {line pos : Nat} {s t : State} (h : writeRawBody str line pos s = .next t) :
    ∃ c, s.cfg = some c ∧
      ((∃ e, cursorCheck c.lines line pos = .raise e ∧ t = s.raise e)
        ∨ (∃ r, cursorCheck c.lines line pos = .refuse r ∧ t = s.refuse r)
        ∨ (∃ a, cursorCheck c.lines line pos = .pass a
            ∧ t = s.push (.call (.posCursor line pos) :: str.map (fun b => .call (.data b))))) := by
  obtain ⟨c, hc, h⟩ := withCfg_next h
  refine ⟨c, hc, ?_⟩
  cases hk : cursorCheck c.lines line pos with
  | raise e => left; exact ⟨e, rfl, by simpa [hk] using h.symm⟩
  | refuse r => right; left; exact ⟨r, rfl, by simpa [hk] using h.symm⟩
  | pass a => right; right; exact ⟨a, rfl, by simpa [hk] using h.symm⟩

end Sys2Proof.Machine
end

