-- ==== Sys2Proof/Laws/Config.lean ====
section
/-! SUPPORT. Which moves write CFG. -/

namespace Sys2Proof.Machine

theorem refuse_cfg (s : State) (r : Reason) : (s.refuse r).cfg = s.cfg := by
  unfold State.refuse
  split <;> simp

theorem raise_cfg (s : State) (e) : (s.raise e).cfg = s.cfg := by
  simp [State.raise]

theorem enterFrame_cfg (b m) (s : State) : (enterFrame b m s).cfg = s.cfg := by
  unfold enterFrame
  split <;> rfl

theorem enterBacklight_cfg (b) (s : State) : (enterBacklight b s).cfg = s.cfg := by
  unfold enterBacklight
  split <;> rfl

theorem configure_cfg {s : State} (c) (h : s.lock.isSome = true) : (configureOp c s).cfg = s.cfg := by
  obtain ⟨r, hr⟩ := Option.isSome_iff_exists.mp h
  simp [configureOp_held c hr]

theorem busWrite_cfg {v} {s t : State} (h : busWriteOp v s = .next t) : t.cfg = s.cfg := by
  obtain ⟨c, -, h⟩ := withCfg_next h
  simp only at h
  split at h <;> obtain rfl := Host.Outcome.next.inj h <;> simp

theorem raw_cfg {str l p} {s t : State} (h : writeRawBody str l p s = .next t) : t.cfg = s.cfg := by
  obtain ⟨c, -, h⟩ := withCfg_next h
  split at h <;> obtain rfl := Host.Outcome.next.inj h <;> simp [refuse_cfg]

theorem render_cfg {str l} {s t : State} (h : renderBody str l s = .next t) : t.cfg = s.cfg := by
  obtain ⟨c, -, h⟩ := withCfg_next h
  exact raw_cfg h

theorem inOp_cfg {s t : State} {k} (hk : k = .next t → t.cfg = s.cfg) (h : inOp s k = .next t) : t.cfg = s.cfg := by
  unfold inOp at h; split at h
  · obtain rfl := Host.Outcome.next.inj h; exact refuse_cfg _ _
  · exact hk h

theorem when_cfg {s t : State} {k} (hk : k = .next t → t.cfg = s.cfg) (h : whenInit s k = .next t) : t.cfg = s.cfg := by
  unfold whenInit at h; split at h
  · obtain rfl := Host.Outcome.next.inj h; exact refuse_cfg _ _
  · exact hk h

theorem held_cfg {i} {s t : State} {k} (hk : k = .next t → t.cfg = s.cfg) (h : heldWhenBusy i s k = .next t) : t.cfg = s.cfg := by
  unfold heldWhenBusy at h; split at h
  · exact hk h
  · split at h <;> obtain rfl := Host.Outcome.next.inj h <;> rfl

/-- An instruction writes CFG only if it is an INIT that finds the transport free (10_state R31 to R35, 20_memory R81). -/
theorem exec_cfg {i : Instr} {s t : State} (hl : isInitOp i = false ∨ s.lock.isSome = true) (h : exec i s = .next t) :
    t.cfg = s.cfg := by
  have nx : ∀ {u : State}, (Host.Outcome.next u : Outc) = .next t → u = t := fun h => Host.Outcome.next.inj h
  cases i <;> simp only [exec] at h
  case writeCmd =>
    unfold execWriteCmd at h; split at h
    · rw [← nx h]; exact enterFrame_cfg _ _ _
    · exact when_cfg (fun h => by rw [← nx h, enterFrame_cfg]; rfl) h
  case init =>
    refine held_cfg (fun h => ?_) h
    split at h <;> rw [← nx h]
    · rw [configure_cfg _ (by simpa [isInitOp, State.startOp] using hl)]; rfl
    · exact refuse_cfg _ _
  case clear => exact held_cfg (when_cfg (fun h => by rw [← nx h]; rfl)) h
  case backlight =>
    unfold execBacklight at h; split at h
    · rw [← nx h]; exact enterBacklight_cfg _ _
    · exact when_cfg (fun h => by rw [← nx h, enterBacklight_cfg]; rfl) h
  case loadChars =>
    refine held_cfg (when_cfg (fun h => ?_)) h
    split at h
    · rw [← nx h]; exact refuse_cfg _ _
    · split at h <;> rw [← nx h]
      · exact refuse_cfg _ _
      · rfl
  case posCursor =>
    unfold execPosCursor at h; split at h
    · obtain ⟨c, -, h⟩ := withCfg_next h
      split at h <;> rw [← nx h] <;> simp [refuse_cfg]
    · refine when_cfg (fun h => ?_) h
      obtain ⟨c, -, h⟩ := withCfg_next h
      split at h <;> rw [← nx h] <;> simp [refuse_cfg, State.startOp]
  case writeRaw =>
    unfold execWriteRaw at h; split at h
    · exact raw_cfg h
    · refine when_cfg (fun h => ?_) h; exact (raw_cfg h).trans rfl
  case pad => refine held_cfg (when_cfg (fun h => ?_)) h; split at h <;> rw [← nx h] <;> rfl
  case display str line al ov bu =>
    unfold execDisplay at h
    refine held_cfg (when_cfg (fun h => ?_)) h
    obtain ⟨c, -, h⟩ := withCfg_next h
    split at h
    · rw [← nx h]; rfl
    · split at h
      · exact (raw_cfg h).trans rfl
      · cases ov with
        | scroll => exact (render_cfg h).trans rfl
        | rotate =>
          simp only [overflowPath, rotatePath] at h
          split at h <;> rw [← nx h]
          · exact refuse_cfg _ _
          · rfl
        | unknown v => rw [← nx h]; rfl
  case scrollFwd =>
    refine held_cfg (when_cfg (fun h => ?_)) h
    split at h
    · rw [← nx h]; exact refuse_cfg _ _
    · split at h
      · rw [← nx h, raise_cfg]; rfl
      · exact (render_cfg h).trans rfl
  case scrollBwd =>
    refine held_cfg (when_cfg (fun h => ?_)) h
    split at h
    · rw [← nx h]; exact refuse_cfg _ _
    · split at h
      · rw [← nx h, raise_cfg]; rfl
      · exact (render_cfg h).trans rfl
  case view => refine held_cfg (when_cfg (fun h => ?_)) h; split at h <;> rw [← nx h]; exact refuse_cfg _ _; rfl
  case cancel => rw [← nx h]; rfl
  case wait => exact inOp_cfg (fun h => by rw [← nx h]; rfl) h
  case nibble => exact inOp_cfg (fun h => by rw [← nx h]; rfl) h
  case commandFrame => exact inOp_cfg (fun h => by rw [← nx h]; rfl) h
  case winCreate => refine inOp_cfg (fun h => ?_) h; split at h; rw [← nx h]; simp at h
  case winView => exact inOp_cfg (fun h => by obtain ⟨c, -, h⟩ := withWin_next h; rw [← nx h]; rfl) h
  case winFwd =>
    refine inOp_cfg (fun h => ?_) h
    obtain ⟨c, -, h⟩ := withWin_next h
    split at h <;> rw [← nx h]; exact raise_cfg _ _
  case winBwd =>
    refine inOp_cfg (fun h => ?_) h
    obtain ⟨c, -, h⟩ := withWin_next h
    split at h <;> rw [← nx h]; exact raise_cfg _ _
  case renderLine => exact inOp_cfg (fun h => render_cfg h) h
  case rotStep => exact inOp_cfg (fun h => by obtain ⟨r, -, h⟩ := withRot_next h; obtain ⟨c, -, h⟩ := withCfg_next h; rw [← nx h]; rfl) h
  all_goals first | exact inOp_cfg (fun h => busWrite_cfg h) h | exact inOp_cfg (fun h => by rw [← nx h, enterFrame_cfg]) h

theorem finish_cfg (s : State) (a b) : (s.finish a b).cfg = s.cfg := by simp [State.finish]

/-- While the transport lock is held no move writes CFG. -/
theorem stepCur_cfg {s t : State} (hl : s.lock.isSome = true) (h : stepCur s = .next t) : t.cfg = s.cfg := by
  unfold stepCur at h
  split at h
  · unfold fetchRequest at h
    split at h
    · rw [← Host.Outcome.next.inj h]
    · simp only at h
      split at h
      · rename_i rest _ _ _ _; exact exec_cfg (s := { s with port := rest }) (.inr hl) h
      · split at h
        · simp at h
        · rw [← Host.Outcome.next.inj h, refuse_cfg]
  · split at h
    · rw [← Host.Outcome.next.inj h]; rfl
    · unfold runNext at h
      split at h
      · rename_i st rest _
        have hl' : (s.setTodo rest).lock.isSome = true := hl
        show t.cfg = (s.setTodo rest).cfg
        cases st <;> simp only [execStmt] at h
        case call => exact exec_cfg (.inr hl') h
        case release => rw [← Host.Outcome.next.inj h]; simp
        case configure => rw [← Host.Outcome.next.inj h]; exact configure_cfg _ hl'
        case functionSet =>
          unfold functionSetOp at h
          split at h
          · rw [← Host.Outcome.next.inj h]; rfl
          · obtain ⟨c, -, h⟩ := withCfg_next h
            exact exec_cfg (i := .functionSet (lineCountBit c.lines)) (.inl rfl) h
        case rotWait => obtain ⟨c, -, h⟩ := withCfg_next h; rw [← Host.Outcome.next.inj h]; rfl
        case rotCount => obtain ⟨c, -, h⟩ := withRot_next h; obtain ⟨c, -, h⟩ := withCfg_next h; rw [← Host.Outcome.next.inj h]
      · split at h
        · rw [← Host.Outcome.next.inj h, finish_cfg]
        · obtain ⟨c, -, h⟩ := withRot_next h
          split at h <;> rw [← Host.Outcome.next.inj h]
          · exact finish_cfg _ _ _
          · rfl

end Sys2Proof.Machine
end

