-- ==== Sys2Proof/Laws/HostOps.lean ====
section
/-! SUPPORT. Host operations from a ready block: their ends without events, and the shapes that run calls (a list of
calls, the operation's own call, a raw string). -/

namespace Sys2Proof.Machine

theorem report_afterOp (s : State) (r : Result) : s.report r = s.afterOp [] 0 r := by
  simp [State.report, State.afterOp, State.emitted]

theorem refuse_afterOp {s : State} (h : s.seq = none) (r : Reason) : s.refuse r = s.afterOp [] 0 (.refused r) := by
  simp [State.refuse, h, report_afterOp]

/-- `0x80 | a` on numbers (30_encoding R109). -/
theorem setDdramByte_ofNat {a : Nat} (h : a ≤ 0x7F) : setDdramByte (BitVec.ofNat 7 a) = 0x80#8 ||| BitVec.ofNat 8 a := by
  have : ∀ a : Fin 128, setDdramByte (BitVec.ofNat 7 a.val) = 0x80#8 ||| BitVec.ofNat 8 a.val := by decide
  exact this ⟨a, by omega⟩

theorem rawStream_reaches {c : Cfg} {line col a : Nat} (h : c.reaches line col a) (str : Str) :
    rawStream (BitVec.ofNat 7 a) str = (.instruction, 0x80#8 ||| BitVec.ofNat 8 a) :: str.map (fun b => (.data, b)) := by
  rw [rawStream, setDdramByte_ofNat h.2.2.2]
  rfl

theorem cursorCheck_range {c : Cfg} {line col a : Nat} (h1 : 1 ≤ line) (h2 : line ≤ c.lines)
    (ha : ddramAddr line col = some a) (h : 0x7F < a) : cursorCheck c.lines line col = .refuse .ddramRange := by
  unfold cursorCheck
  rw [if_neg (by omega)]
  simp [ha, h]

theorem State.Ready.initialized {c : Cfg} {s : State} (h : s.Ready c) : s.mode ≠ .uninit := by simp [h.mode]

/-- An error raised by an operation that has emitted nothing leaves only its result (60_exceptions R279, R280). -/
theorem raise_ready {c : Cfg} {s : State} (h : s.Ready c) (w : Option Window) {op : Instr} (ho : isInitOp op = false)
    (ret : Ret) (e : ErrCode) :
    (({ s with win := w } : State).startOp op ret).raise e = ({ s with win := w } : State).afterOp [] 0 (.err e) := by
  obtain ⟨hm, hq, hc, hl, ht, -⟩ := h
  obtain ⟨par, cfg, mode, win, rot, cancel, tx, lock, seq, status, trace, results, port, bus, draws, cur, parked, turns⟩ := s
  simp only at hm hq hl ht
  subst hm hq hl ht
  simp [State.startOp, State.raise, State.tellOthers, State.inInit, ho, State.closeOp, State.releaseLock, State.report,
    State.afterOp, State.emitted]

/-- A refusal met by an operation that has emitted nothing leaves only its result (60_exceptions R278). -/
theorem refuse_ready {c : Cfg} {s : State} (h : s.Ready c) (op : Instr) (ret : Ret) (r : Reason) :
    (s.startOp op ret).refuse r = s.afterOp [] 0 (.refused r) := by
  obtain ⟨hm, hq, hc, hl, ht, -⟩ := h
  obtain ⟨par, cfg, mode, win, rot, cancel, tx, lock, seq, status, trace, results, port, bus, draws, cur, parked, turns⟩ := s
  simp only at hm hq hl ht
  subst hm hq hl ht
  simp [State.refuse, State.startOp, State.closeOp, State.releaseLock, State.report, State.afterOp, State.emitted]

/-- `op_performs` with the events given. -/
theorem calls_perform {c : Cfg} {i op : Instr} {s t : State} {st : Status} {v : Value} {evs : List Event}
    (l : List (Stmt × List Event)) (hev : (l.map (fun x => x.2)).flatten = evs)
    (hl : ∀ x ∈ l, Runs true t.par c x.1 x.2) (ht : t.Quiet c) (hm : t.mode = .idle) (hq : t.seq = none)
    (hbus : s.bus = t.bus) (hi : isInitOp op = false)
    (he : exec i s = .next ((t.startOp op (.done st v)).push (l.map (fun x => x.1)))) :
    Performs i s t t evs (.ok st v) := by
  subst hev
  exact op_performs l hl ht hm hq hbus hi he

/-- A host operation that runs at once what it is when called by a rule. -/
theorem self_performs {c : Cfg} {i : Instr} {s : State} {st : Status} {v : Value} {evs : List Event}
    (hr : Runs true s.par c (.call i) evs) (h : s.Ready c) (hi : isInitOp i = false)
    (he : exec i s = exec i (s.startOp i (.done st v))) : Performs i s s s evs (.ok st v) := by
  have hl : ∀ x ∈ [(Stmt.call i, evs)], Runs true s.par c x.1 x.2 := by simpa using hr
  have hst : step ((s.startOp i (.done st v)).push [.call i]) = exec i (s.startOp i (.done st v)) :=
    step_call (q := { op := i, pos := 0, todo := [.call i], ret := .done st v, val := .none }) rfl rfl h.undisturbed
  have go : ∀ t, Reaches ((s.startOp i (.done st v)).push [.call i]) t → t.seq = none → CompletesWith i s t := by
    intro t ht hq
    obtain ⟨u, hu, hut⟩ := ht.tail (by intro e; rw [← e] at hq; simp [State.startOp] at hq)
    exact ⟨u, by rw [he, ← hst, hu], hut⟩
  constructor
  · intro hok
    have := go _ (op_ends c i st v [(.call i, evs)] s hl h.quiet (by simpa using hok)) rfl
    rw [hi] at this
    simpa [State.afterOp, State.emitted, h.mode, h.seq] using this
  · intro k hk hb
    have := go _ (op_breaks c i (.done st v) [(.call i, evs)] s hl h.quiet (by simpa using hk) hb) rfl
    rw [hi] at this
    simpa [State.afterOp, State.emitted, h.mode, h.seq] using this

/-- A host operation that ends by writing a raw string (41_display_controller R169; 44_render_policy R242, R248). -/
theorem raw_performs {c : Cfg} {i op : Instr} {s t : State} {st : Status} {v : Value} {line pos a : Nat} (str : Str)
    (hr : c.reaches line pos a) (ht : t.Quiet c) (hm : t.mode = .idle) (hq : t.seq = none) (hbus : s.bus = t.bus)
    (hi : isInitOp op = false) (he : exec i s = writeRawBody str line pos (t.startOp op (.done st v))) :
    Performs i s t t
      (streamEvents t.par c.addr ((.instruction, 0x80#8 ||| BitVec.ofNat 8 a) :: str.map (fun b => (.data, b))))
      (.ok st v) := by
  have hp := cursorCheck_reaches hr
  apply calls_perform (c := c) (op := op) (rawCalls t.par c.addr line pos (BitVec.ofNat 7 a) str)
    (by rw [rawCalls_events, rawStream_reaches hr]) (rawCalls_call _ _ _ hp) ht hm hq hbus hi
  rw [he, writeRawBody_pass str (by simpa [State.startOp] using ht.cfg) hp, rawCalls_calls]

/-- And its line error (60_exceptions R273). -/
theorem raw_raises {c : Cfg} {s : State} (h : s.Ready c) (w : Option Window) {op : Instr} (ho : isInitOp op = false)
    (ret : Ret) (str : Str) {line : Nat} (pos : Nat) (hb : c.badLine line) :
    writeRawBody str line pos (({ s with win := w } : State).startOp op ret)
      = .next (({ s with win := w } : State).afterOp [] 0 (.err .invalidLineError)) := by
  rw [writeRawBody, withCfg_some (c := c) (by simpa [State.startOp] using h.cfg), cursorCheck_badLine _ hb]
  exact congrArg _ (raise_ready h w ho ret _)

end Sys2Proof.Machine
end

