-- ==== Sys2Proof/Laws/Moves.lean ====
section
/-! SUPPORT. What one move of the block can be, said once: a statement of the operation in progress, a request taken at the
port. The claims about every step are proved by cases over these. -/

namespace Sys2Proof.Machine

/-- What a statement some rule puts into a procedure can do, from the state whose statement list is already past it. -/
inductive OpMove (s : State) : State → Prop where
  /-- It expands into statements. -/
  | pushed (l : List Stmt) (hl : ∀ st ∈ l, st.clean s.mode) : OpMove s (s.push l)
  /-- It waits. -/
  | waited (t : Nat) : OpMove s (s.emit (.wait t))
  /-- It writes, and the bus answers ok. -/
  | wrote (c : Cfg) (v : Byte) (hc : s.cfg = some c) (hv : s.par.wf = true → rwOf s.par v = false) :
      OpMove s ((s.drawn.emit (.busWrite c.addr v .ok)).nextPhase.push [.call (.wait Config.tSettle)])
  /-- It writes, and the bus answers `BusError`. -/
  | failed (c : Cfg) (v : Byte) (hc : s.cfg = some c) (hv : s.par.wf = true → rwOf s.par v = false) :
      OpMove s ((s.drawn.emit (.busWrite c.addr v .busError)).raise .transportError)
  /-- A check raises. -/
  | raised (e : ErrCode) : OpMove s (s.raise e)
  /-- It takes the free lock. -/
  | took (tx : Option TxFrame) (l : List Stmt) (hl : ∀ st ∈ l, st.clean s.mode) (hlock : s.lock = none)
      (htx : ∀ f, tx = some f → f.phase = 0) : OpMove s (({ s with lock := some s.cur, tx := tx } : State).push l)
  /-- It is a part of the rotate loop. -/
  | turned (r r' : Rot) (l : List Stmt) (hl : ∀ st ∈ l, st.clean s.mode) (hm : s.mode = .rotating)
      (hr : s.rot = some r) (hb : r'.budget = r.budget) : OpMove s (({ s with rot := some r' } : State).push l)

/-! ### The bytes the rules write have RW clear (30_encoding R101, R102) -/

theorem flagBits_and {a b : Byte} (ha : a ∈ flagBits) (hb : b ∈ flagBits) (h : a ≠ b) : a &&& b = 0#8 := by
  simp only [flagBits, List.mem_cons, List.not_mem_nil, or_false] at ha hb
  rcases ha with rfl | rfl | rfl | rfl <;> rcases hb with rfl | rfl | rfl | rfl <;> first | rfl | exact absurd rfl h

theorem nibbleByte_flag {a : Byte} (d : Nibble) (ha : a ∈ flagBits) : nibbleByte d &&& a = 0#8 := by
  simp only [flagBits, List.mem_cons, List.not_mem_nil, or_false] at ha
  rcases ha with rfl | rfl | rfl | rfl <;> revert d <;> decide

/-- The four flags of legal parameters, and that they are four. -/
theorem Params.wf_flags {p : Params} (h : p.wf = true) :
    p.bitRs ∈ flagBits ∧ p.bitRw ∈ flagBits ∧ p.bitEn ∈ flagBits ∧ p.bitBl ∈ flagBits ∧ p.bitRs ≠ p.bitRw
      ∧ p.bitRs ≠ p.bitEn ∧ p.bitRs ≠ p.bitBl ∧ p.bitRw ≠ p.bitEn ∧ p.bitRw ≠ p.bitBl ∧ p.bitEn ≠ p.bitBl := by
  unfold Params.wf at h
  simp only [Bool.and_eq_true, List.contains_iff_mem, decide_eq_true_eq, List.nodup_cons, List.mem_cons,
    List.not_mem_nil, or_false, not_or] at h
  tauto

theorem flagIf_and {a b : Byte} (on : Bool) (h : a &&& b = 0#8) : flagIf on a &&& b = 0#8 := by
  cases on <;> simp [flagIf, h]

theorem byte_or_and (a b c : Byte) : (a ||| b) &&& c = (a &&& c) ||| (b &&& c) := by
  ext i
  simp [Bool.and_or_distrib_right]

theorem rwOf_busByteOf {p : Params} (h : p.wf = true) (d : Nibble) (bl en rs : Bool) :
    rwOf p (busByteOf p d bl en false rs) = false := by
  obtain ⟨h1, h2, h3, h4, h5, -, -, h8, h9, -⟩ := Params.wf_flags h
  have e1 := nibbleByte_flag d h2
  have e2 := flagIf_and rs (flagBits_and h1 h2 h5)
  have e3 := flagIf_and bl (flagBits_and h4 h2 (Ne.symm h9))
  have e4 := flagIf_and en (flagBits_and h3 h2 (Ne.symm h8))
  have e5 : flagIf false p.bitRw = 0#8 := rfl
  simp only [rwOf, busByteOf, byte_or_and, e1, e2, e3, e4, e5]
  simp

theorem rwOf_backlightByte {p : Params} (h : p.wf = true) (on : Bool) : rwOf p (backlightByte p on) = false := by
  obtain ⟨-, h2, -, h4, -, -, -, -, h9, -⟩ := Params.wf_flags h
  have e := flagIf_and on (flagBits_and h4 h2 (Ne.symm h9))
  simp [rwOf, backlightByte, e]

/-! ### Moves of the shared operations -/

theorem busWriteOp_move {s : State} {c : Cfg} (hc : s.cfg = some c) {v : Byte}
    (hv : s.par.wf = true → rwOf s.par v = false) : ∃ t, busWriteOp v s = .next t ∧ OpMove s t := by
  unfold busWriteOp withCfg
  rw [hc]
  cases h : s.answer with
  | ok => exact ⟨_, rfl, .wrote c v hc hv⟩
  | busError => exact ⟨_, rfl, .failed c v hc hv⟩

theorem enterFrame_move (b : Byte) (m : RegSel) (s : State) : OpMove s (enterFrame b m s) := by
  unfold enterFrame
  cases h : s.lock with
  | some r => exact .pushed _ (by simp [Stmt.clean])
  | none => exact .took _ _ (by simp [Stmt.clean]) h (by simp)

theorem functionSetOp_move {s : State} {q : Seq} {c : Cfg} (hq : s.seq = some q) (hc : s.cfg = some c) :
    ∃ t, functionSetOp s = .next t ∧ OpMove s t := by
  unfold functionSetOp
  cases h : s.lock with
  | some r => exact ⟨_, rfl, .pushed _ (by simp [Stmt.clean])⟩
  | none =>
    simp only [withCfg_some hc, execFunctionSet, inOp_some hq]
    exact ⟨_, rfl, enterFrame_move _ _ s⟩

theorem enterBacklight_move {s : State} (htx : s.lock = none → s.tx = none) (on : Bool) :
    OpMove s (enterBacklight on s) := by
  unfold enterBacklight
  cases h : s.lock with
  | some r => exact .pushed _ (by simp [Stmt.clean])
  | none =>
    have ht := htx h
    have e : ({ s with lock := some s.cur } : State) = { s with lock := some s.cur, tx := none } := by
      rw [← ht]
    simp only [e]
    exact .took none _ (by cases on <;> simp [Stmt.clean]) h (by simp)

/-- A checked cursor does not refuse (60_exceptions R278). -/
theorem cursorCheck_fits {line col : Nat} (lines : Nat) (h : cursorFits line col = true) (r : Reason) :
    cursorCheck lines line col ≠ .refuse r := by
  unfold cursorCheck
  split
  · simp
  · unfold cursorFits at h
    cases ha : ddramAddr line col with
    | none => simp
    | some a =>
      simp only [ha, decide_eq_true_eq] at h
      simp only [Nat.not_lt.mpr h, if_false]
      simp

theorem cursorCheck_pass_fits {lines line col : Nat} {a : BitVec 7} (h : cursorCheck lines line col = .pass a) :
    cursorFits line col = true := by
  unfold cursorCheck at h
  split at h
  · simp at h
  · unfold cursorFits
    cases ha : ddramAddr line col with
    | none => rfl
    | some a' =>
      simp only [ha] at h ⊢
      split at h
      · simp at h
      · simpa using by omega

theorem cursorFits_zero (line : Nat) : cursorFits line 0 = true := by
  unfold cursorFits ddramAddr
  match line with
  | 0 => rfl
  | 1 => rfl
  | 2 => rfl
  | 3 => rfl
  | 4 => rfl
  | n + 5 => simp [lineBase]

theorem data_clean (m : Mode) (str : Str) : ∀ st ∈ str.map (fun b => Stmt.call (.data b)), st.clean m = true := by
  intro st h
  obtain ⟨b, -, rfl⟩ := List.mem_map.mp h
  rfl

theorem writeRawBody_move {s : State} {c : Cfg} (hc : s.cfg = some c) (str : Str) {line pos : Nat}
    (h : cursorFits line pos = true) : ∃ t, writeRawBody str line pos s = .next t ∧ OpMove s t := by
  unfold writeRawBody withCfg
  rw [hc]
  simp only
  cases hk : cursorCheck c.lines line pos with
  | raise e => exact ⟨_, rfl, .raised e⟩
  | refuse r => exact absurd hk (cursorCheck_fits _ h r)
  | pass a =>
    refine ⟨_, rfl, .pushed _ ?_⟩
    intro st hst
    rcases List.mem_cons.mp hst with rfl | hst
    · exact h
    · exact data_clean _ _ st hst

theorem renderBody_move {s : State} {c : Cfg} (hc : s.cfg = some c) (str : Str) (line : Nat) :
    ∃ t, renderBody str line s = .next t ∧ OpMove s t := by
  unfold renderBody
  rw [withCfg_some hc]
  exact writeRawBody_move hc _ (cursorFits_zero line)

/-- Every clean call has a next state, and it is one of the moves. -/
theorem exec_move {i : Instr} {s : State} {q : Seq} (hq : s.seq = some q) (hc : s.cfg.isSome = true)
    (hr : s.mode = .rotating → s.rot.isSome = true) (htx : s.lock = none → s.tx = none)
    (hi : (Stmt.call i).clean s.mode = true) : ∃ t, exec i s = .next t ∧ OpMove s t := by
  obtain ⟨c, hc⟩ := Option.isSome_iff_exists.mp hc
  have hop : ∀ k, inOp s k = k := fun k => by simp [inOp, hq]
  have hframe : ∀ b m, ∃ t, inOp s (.next (enterFrame b m s)) = .next t ∧ OpMove s t := fun b m =>
    ⟨_, hop _, enterFrame_move b m s⟩
  have hwrite : ∀ d en m, ∃ t, inOp s (busWriteOp (busByteOf s.par d true en false m) s) = .next t ∧ OpMove s t :=
    fun d en m => by rw [hop]; exact busWriteOp_move hc fun hp => rwOf_busByteOf hp _ _ _ _
  cases i <;> simp only [exec]
  case writeCmd b m => exact ⟨_, by simp [execWriteCmd, hq], enterFrame_move b m s⟩
  case backlight on => exact ⟨_, by simp [execBacklight, hq], enterBacklight_move htx on⟩
  case posCursor line col =>
    simp only [execPosCursor, hq, withCfg, hc]
    cases hk : cursorCheck c.lines line col with
    | raise e => exact ⟨_, rfl, .raised e⟩
    | refuse r => exact absurd hk (cursorCheck_fits _ hi r)
    | pass a => exact ⟨_, rfl, .pushed _ (by simp [Stmt.clean])⟩
  case writeRaw str line pos =>
    simp only [execWriteRaw, hq]
    exact writeRawBody_move hc str hi
  case wait t => exact ⟨_, hop _, .waited t⟩
  case nibble x m =>
    refine ⟨_, hop _, .pushed _ ?_⟩
    cases s.par.prewrite <;> simp [Stmt.clean]
  case renderLine str line =>
    simp only [execRenderLine, hop]
    exact renderBody_move hc str line
  case rotStep =>
    have hm : s.mode = .rotating := by simpa [Stmt.clean] using hi
    obtain ⟨r, hr'⟩ := Option.isSome_iff_exists.mp (hr hm)
    unfold execRotStep
    rw [hop, withRot_some hr', withCfg_some hc]
    refine ⟨_, rfl, OpMove.turned r _ _ ?_ hm hr' rfl⟩
    simp [Stmt.clean, hm]
  case nibbleEnSet d m => exact hwrite d true m.isData
  case nibbleEnClear d m => exact hwrite d false m.isData
  case nibblePrewrite d m => exact hwrite d false m.isData
  case commandFrame h l m => exact ⟨_, hop _, .pushed _ (by simp [Stmt.clean])⟩
  case backlightOn =>
    simp only [execBacklightOn, hop]
    exact busWriteOp_move hc fun hp => rwOf_backlightByte hp _
  case backlightOff =>
    simp only [execBacklightOff, hop]
    exact busWriteOp_move hc fun hp => rwOf_backlightByte hp _
  case wake => exact hframe _ _
  case set4bit => exact hframe _ _
  case functionSet n => exact hframe _ _
  case displayOn => exact hframe _ _
  case clearDisplay => exact hframe _ _
  case entryModeLeft => exact hframe _ _
  case returnHome => exact hframe _ _
  case setCgram a => exact hframe _ _
  case setDdram a => exact hframe _ _
  case data d => exact hframe _ _
  all_goals simp [Stmt.clean] at hi

end Sys2Proof.Machine
end

