-- ==== Sys2Proof/Laws/Steps.lean ====
section
/-! SUPPORT. What one step of the block with one requester can be: inside an operation, and at the request port. -/

namespace Sys2Proof.Machine

/-! ### Inside an operation -/

/-- One step of operation `q`. -/
inductive OpStep (s : State) (q : Seq) : State → Prop where
  /-- Its next statement runs. -/
  | ran (st : Stmt) (rest : List Stmt) (t : State) (h : q.todo = st :: rest) (ht : OpMove (s.setTodo rest) t) : OpStep s q t
  /-- It releases the lock. -/
  | released (rest : List Stmt) (h : q.todo = .release :: rest) : OpStep s q (s.setTodo rest).releaseLock
  /-- It returns. -/
  | finished (st : Status) (v : Value) (h : q.todo = []) (hr : q.ret = .done st v) : OpStep s q (s.finish st v)
  /-- Its rotate loop ends. -/
  | rotated (r : Rot) (h : q.todo = []) (hret : q.ret = .rotate) (hr : s.rot = some r)
      (hc : s.cancel = true ∨ (0 < r.budget ∧ r.iter = r.budget)) : OpStep s q (s.finish .rotated (.count r.iter))
  /-- Its rotate loop goes round. -/
  | looped (h : q.todo = []) (hret : q.ret = .rotate) : OpStep s q (s.push [.call .rotStep])
  /-- A CANCEL is taken. -/
  | cancelled (rest : List Arrival) (h : dueCancel s.trace.length s.port = some rest) :
      OpStep s q (({ s with port := rest, cancel := if s.mode = .rotating then true else s.cancel } : State).report
        (.ok .done .none))

theorem State.Inv.setTodo {s : State} {q : Seq} {l : List Stmt} (h : s.Inv) (hq : s.seq = some q)
    (hl : ∀ st ∈ l, st.clean s.mode = true) : (s.setTodo l).Inv := by
  obtain ⟨h1, h2, h3, h4, h5, h6, h7, h8, h9⟩ := h
  refine ⟨h1, ?_, h3, h4, h5, h6, h7, h8, ?_⟩
  · simp only [State.seqOk, hq] at h2
    simpa [State.seqOk, hq] using ⟨h2.1, h2.2.1, hl, h2.2.2.2⟩
  · simpa [State.lockOk] using h9

/-- What the invariant says of an operation in progress. -/
theorem State.Inv.inOp {s : State} {q : Seq} (h : s.Inv) (hq : s.seq = some q) :
    (s.mode = .busy ∨ s.mode = .rotating) ∧ (q.ret = .rotate ↔ s.mode = .rotating)
      ∧ (∀ st ∈ q.todo, st.clean s.mode = true) ∧ (isInitOp q.op = true → s.mode = .busy)
      ∧ s.cfg.isSome = true ∧ (s.mode = .rotating → s.rot.isSome = true) ∧ (s.lock = none → s.tx = none) := by
  have h2 := h.seqOk
  simp only [State.seqOk, hq] at h2
  refine ⟨h2.1, h2.2.1, h2.2.2.1, h2.2.2.2, h.cfg ?_, fun hm => h.rot.mpr hm, h.lockOk.2.1⟩
  rcases h2.1 with hm | hm <;> simp [hm]

theorem stepCur_some {s : State} {q : Seq} (hq : s.seq = some q) :
    stepCur s = (match dueCancel s.trace.length s.port with
      | some rest => exec .cancel { s with port := rest }
      | none => runNext q s) := by
  unfold stepCur
  split
  · simp_all
  · rename_i q' hq'
    obtain rfl : q = q' := Option.some.inj (hq ▸ hq')
    rfl

/-- Inside an operation there always is a step, and it is one of these. -/
theorem stepCur_inOp {s : State} {q : Seq} (h : s.Inv) (hq : s.seq = some q) :
    ∃ t, stepCur s = .next t ∧ OpStep s q t := by
  obtain ⟨hm, hret, htodo, -, hc, hrot, htx⟩ := h.inOp hq
  rw [stepCur_some hq]
  cases hd : dueCancel s.trace.length s.port with
  | some rest => exact ⟨_, rfl, .cancelled rest hd⟩
  | none =>
    unfold runNext
    have hrest : ∀ rest : List Stmt, (s.setTodo rest).seq = some { q with todo := rest } := fun _ => by simp [hq]
    obtain ⟨c, hc⟩ := Option.isSome_iff_exists.mp hc
    match ht : q.todo with
    | .call i :: rest =>
      obtain ⟨t, h1, h2⟩ := exec_move (i := i) (hrest rest) (by simp [hc]) hrot htx (htodo _ (by simp [ht]))
      exact ⟨t, h1, .ran _ rest t ht h2⟩
    | .release :: rest => exact ⟨_, rfl, .released rest ht⟩
    | .configure c :: rest => simpa [Stmt.clean] using htodo (.configure c) (by simp [ht])
    | .functionSet :: rest =>
      obtain ⟨t, h1, h2⟩ := functionSetOp_move (s := s.setTodo rest) (hrest rest) hc
      exact ⟨t, h1, .ran _ rest t ht h2⟩
    | .rotWait :: rest =>
      exact ⟨_, withCfg_some (s := s.setTodo rest) hc _, .ran _ rest _ ht (.waited _)⟩
    | .rotCount :: rest =>
      have hmr : s.mode = .rotating := by simpa [Stmt.clean] using htodo .rotCount (by simp [ht])
      obtain ⟨r, hr⟩ := Option.isSome_iff_exists.mp (hrot hmr)
      have e : rotCountOp (s.setTodo rest) = .next (({ s.setTodo rest with
          rot := some { r with elapsed := r.elapsed + c.rotInterval, iter := r.iter + 1 } } : State).push []) := by
        unfold rotCountOp
        rw [withRot_some (s := s.setTodo rest) hr, withCfg_some (s := s.setTodo rest) hc]
        simp [State.push, hq]
      exact ⟨_, e, .ran _ rest _ ht (OpMove.turned r _ [] (by simp) hmr hr rfl)⟩
    | [] =>
      match hr : q.ret with
      | .done st v => exact ⟨_, rfl, .finished st v ht hr⟩
      | .rotate =>
        have hmr : s.mode = .rotating := hret.mp hr
        obtain ⟨r, hrr⟩ := Option.isSome_iff_exists.mp (hrot hmr)
        simp only [rotCheck, withRot_some hrr]
        split
        · exact ⟨_, rfl, .rotated r ht hr hrr ‹_›⟩
        · exact ⟨_, rfl, .looped ht hr⟩

/-! ### At the request port -/

/-- What taking a request can do, with no operation in progress. -/
inductive HostMove (s : State) : State → Prop where
  /-- It is answered at once. -/
  | answered (r : Result) : HostMove s (s.report r)
  /-- It is a CANCEL. -/
  | cancelled : HostMove s (({ s with cancel := if s.mode = .rotating then true else s.cancel } : State).report (.ok .done .none))
  /-- Its operation starts with a list of calls, the window being `w`. -/
  | started (w : Option Window) (op : Instr) (st : Status) (v : Value) (l : List Stmt) (hm : s.mode ≠ .uninit)
      (hop : isInitOp op = false) (hl : ∀ x ∈ l, x.clean .busy = true)
      (hw : ∀ x, w = some x → x.legal = true ∧ ∀ c, s.cfg = some c → x.lcdLen = c.lineLength) :
      HostMove s ((({ s with win := w } : State).startOp op (.done st v)).push l)
  /-- Its operation starts by taking the lock. -/
  | took (op : Instr) (st : Status) (v : Value) (tx : Option TxFrame) (l : List Stmt) (hm : s.mode ≠ .uninit)
      (hop : isInitOp op = false) (hl : ∀ x ∈ l, x.clean .busy = true) (htx : ∀ f, tx = some f → f.phase = 0) :
      HostMove s (({ s.startOp op (.done st v) with lock := some s.cur, tx := tx } : State).push l)
  /-- Its operation ends at a check, the window being `w`. -/
  | raised (w : Option Window) (op : Instr) (ret : Ret) (e : ErrCode) (hm : s.mode ≠ .uninit) (hop : isInitOp op = false)
      (hw : ∀ x, w = some x → x.legal = true ∧ ∀ c, s.cfg = some c → x.lcdLen = c.lineLength) :
      HostMove s ((({ s with win := w } : State).startOp op ret).raise e)
  /-- It is an accepted INIT. -/
  | inited (c : Cfg) (op : Instr) (st : Status) (v : Value) (l : List Stmt) (hc : c.legal = true)
      (hl : ∀ x ∈ l, x.clean .busy = true) :
      HostMove s ((({ s with cfg := some c, win := none, cancel := false } : State).startOp op (.done st v)).push l)
  /-- It is a rotating DISPLAY. -/
  | rotates (op : Instr) (r : Rot) (hm : s.mode ≠ .uninit) (hop : isInitOp op = false) :
      HostMove s { ((({ s with win := none, rot := some r, cancel := false } : State).startOp op .rotate).push
        [.call .rotStep]) with mode := .rotating }

theorem newWindow_legal {str : Str} {c : Cfg} (line : Nat) (hc : c.legal = true) (h : c.lineLength < str.length) :
    (newWindow str c.lineLength line c.beginM c.endM).legal = true := by
  simp only [Cfg.legal, Bool.and_eq_true, decide_eq_true_eq] at hc
  simp [Window.legal, newWindow, winCreatePre, Window.recompute, Window.beginWidth, hc.1.2, hc.2, h]

theorem recompute_legal {w : Window} (h : winCreatePre w.buf w.lcdLen w.beginM w.endM = true) (hws : w.ws ≤ w.buf.length) :
    w.recompute.legal = true := by
  by_cases h0 : 0 < w.ws
  · by_cases h1 : w.ws + (w.lcdLen - w.beginM.length) < w.buf.length <;>
      simp [Window.legal, Window.recompute, Window.beginWidth, h0, h1, h, hws]
  · by_cases h1 : w.ws + w.lcdLen < w.buf.length <;>
      simp [Window.legal, Window.recompute, Window.beginWidth, h0, h1, h, hws]

theorem recompute_lcdLen (w : Window) : w.recompute.lcdLen = w.lcdLen := by
  unfold Window.recompute
  simp only
  split <;> rfl

theorem Window.legal_pre {w : Window} (h : w.legal = true) :
    winCreatePre w.buf w.lcdLen w.beginM w.endM = true ∧ w.ws ≤ w.buf.length ∧ w.recompute = w := by
  simpa [Window.legal, and_assoc] using h

theorem fwd_legal {w w' : Window} {n : Nat} (hw : w.legal = true) (h : w.fwd n = some w') :
    w'.legal = true ∧ w'.lcdLen = w.lcdLen := by
  unfold Window.fwd at h
  split at h
  · simp at h
  · obtain rfl := Option.some.inj h
    refine ⟨recompute_legal (w.legal_pre hw).1 ?_, recompute_lcdLen _⟩
    simp only
    omega

theorem bwd_legal {w w' : Window} {n : Nat} (hw : w.legal = true) (h : w.bwd n = some w') :
    w'.legal = true ∧ w'.lcdLen = w.lcdLen := by
  unfold Window.bwd at h
  split at h
  · simp at h
  · obtain rfl := Option.some.inj h
    refine ⟨recompute_legal (w.legal_pre hw).1 ?_, recompute_lcdLen _⟩
    have := (w.legal_pre hw).2.1
    simp only
    omega

theorem raw_clean {lines line pos : Nat} {a : BitVec 7} (str : Str) (m : Mode) (h : cursorCheck lines line pos = .pass a) :
    ∀ st ∈ Stmt.call (.posCursor line pos) :: str.map (fun b => Stmt.call (.data b)), st.clean m = true := by
  intro st hst
  rcases List.mem_cons.mp hst with rfl | hst
  · exact cursorCheck_pass_fits h
  · exact data_clean _ _ st hst

/-- Refusing inside an operation that has just started puts back MODE. -/
theorem refuse_started {s : State} (hs : s.seq = none) (hm : s.mode = .idle) (hl : s.lock = none) (op : Instr) (ret : Ret)
    (r : Reason) : (s.startOp op ret).refuse r = s.report (.refused r) := by
  obtain ⟨par, cfg, mode, win, rot, cancel, tx, lock, seq, status, trace, results, port, bus, draws, cur, parked, turns⟩ := s
  simp only at hs hm hl
  subst hs hm hl
  simp [State.startOp, State.refuse, State.closeOp, State.releaseLock, State.report]

/-- What the invariant says of a block without an operation. -/
theorem State.Inv.idle {s : State} (h : s.Inv) (hq : s.seq = none) :
    (s.mode = .uninit ∨ s.mode = .idle) ∧ s.lock = none ∧ s.tx = none ∧ s.rot = none ∧ s.cancel = false
      ∧ (s.mode ≠ .uninit → s.cfg.isSome = true) := by
  have h2 := h.seqOk
  simp only [State.seqOk, hq] at h2
  have hnr : s.mode ≠ .rotating := by rcases h2 with h | h <;> simp [h]
  have hl : s.lock = none := by
    cases hl : s.lock with
    | none => rfl
    | some r => have := (h.lockOk.1 r hl).2; simp [hq] at this
  refine ⟨h2, hl, h.lockOk.2.1 hl, ?_, ?_, h.cfg⟩
  · cases hr : s.rot with
    | none => rfl
    | some r => exact absurd (h.rot.mp (by simp [hr])) hnr
  · cases hc : s.cancel with
    | false => rfl
    | true => exact absurd (h.cancel hc) hnr

/-- A raw string or a line written by an operation that starts with the window `w`. -/
theorem writeRawBody_start {s : State} {c : Cfg} (hs : s.seq = none) (hm : s.mode = .idle) (hl : s.lock = none)
    (hc : s.cfg = some c) (w : Option Window) (hw : ∀ x, w = some x → x.legal = true ∧ ∀ c, s.cfg = some c → x.lcdLen = c.lineLength)
    (op : Instr) (hop : isInitOp op = false) (st : Status) (v : Value) (str : Str) (line pos : Nat)
    (hwin : w = s.win ∨ cursorFits line pos = true) :
    ∃ t, writeRawBody str line pos (({ s with win := w } : State).startOp op (.done st v)) = .next t ∧ HostMove s t := by
  have hmu : s.mode ≠ .uninit := by simp [hm]
  unfold writeRawBody
  rw [withCfg_some (c := c) (by simpa [State.startOp] using hc)]
  cases hk : cursorCheck c.lines line pos with
  | raise e => exact ⟨_, rfl, .raised w op _ e hmu hop hw⟩
  | refuse r =>
    rcases hwin with rfl | hf
    · refine ⟨_, rfl, ?_⟩
      rw [refuse_started (s := s) hs hm hl]
      exact .answered _
    · exact absurd hk (cursorCheck_fits _ hf r)
  | pass a => exact ⟨_, rfl, .started w op st v _ hmu hop (raw_clean str _ hk) hw⟩

theorem renderMoved_start {s : State} {c : Cfg} (hs : s.seq = none) (hm : s.mode = .idle) (hl : s.lock = none)
    (hc : s.cfg = some c) (w : Window) (hw : w.legal = true ∧ ∀ c, s.cfg = some c → w.lcdLen = c.lineLength)
    (op : Instr) (hop : isInitOp op = false) : ∃ t, renderMoved op w s = .next t ∧ HostMove s t := by
  have hmu : s.mode ≠ .uninit := by simp [hm]
  have hw' : ∀ x, some w = some x → x.legal = true ∧ ∀ c, s.cfg = some c → x.lcdLen = c.lineLength := by
    rintro x ⟨⟩; exact hw
  unfold renderMoved renderBody
  rw [withCfg_some (c := c) (by simpa [State.startOp] using hc)]
  exact writeRawBody_start hs hm hl hc (some w) hw' op hop _ _ _ w.line 0 (.inr (cursorFits_zero _))

/-- Every request taken has a next state, and it is one of these. -/
theorem exec_host {s : State} (h : s.Inv) (hq : s.seq = none) (i : Instr) : ∃ t, exec i s = .next t ∧ HostMove s t := by
  obtain ⟨hmode, hl, htx, hrot, hcan, hcfg⟩ := h.idle hq
  have hw : ∀ x, s.win = some x → x.legal = true ∧ ∀ c, s.cfg = some c → x.lcdLen = c.lineLength :=
    fun x hx => ⟨h.window x hx, fun c hc => h.winWidth x c hx hc⟩
  have hno : ∀ k, ∃ t, inOp s k = .next t ∧ HostMove s t := fun k => ⟨_, inOp_none hq k, .answered _⟩
  have hin : ∀ k : Outc, (s.mode = .idle → ∃ t, k = .next t ∧ HostMove s t) → ∃ t, whenInit s k = .next t ∧ HostMove s t := by
    intro k hk
    rcases hmode with hm | hm
    · exact ⟨_, whenInit_uninit hm k, by rw [State.refuse_idle hq]; exact .answered _⟩
    · rw [whenInit_init (by simp [hm])]
      exact hk hm
  have hrep : ∀ r, ∃ t, Host.Outcome.next (s.refuse r) = (.next t : Outc) ∧ HostMove s t := fun r =>
    ⟨_, rfl, by rw [State.refuse_idle hq]; exact .answered _⟩
  have hself : ({ s with win := s.win } : State) = s := rfl
  cases i <;> simp only [exec]
  case writeCmd b m =>
    simp only [execWriteCmd, hq]
    refine hin _ fun hm => ⟨_, rfl, ?_⟩
    simp only [enterFrame, State.startOp, hl]
    exact .took (.writeCmd b m) .done .none _ _ (by simp [hm]) rfl (by simp [Stmt.clean]) (by simp)
  case init lines n a b e iv =>
    unfold execInit
    rw [heldWhenBusy_idle _ hq]
    split
    · rename_i hg
      refine ⟨_, rfl, ?_⟩
      rw [configureOp_free _ (by simpa [State.startOp] using hl)]
      refine .inited _ _ _ _ _ ?_ (by simp [initCalls, Stmt.clean])
      simp only [goodConfig, Bool.and_eq_true] at hg
      simp only [Cfg.legal, Bool.and_eq_true]
      exact ⟨⟨hg.1.1.1, hg.1.1.2⟩, hg.2⟩
    · exact hrep _
  case clear =>
    unfold execClear
    rw [heldWhenBusy_idle _ hq]
    exact hin _ fun hm => ⟨_, rfl, .started s.win _ _ _ _ (by simp [hm]) rfl (by simp [Stmt.clean]) hw⟩
  case backlight on =>
    simp only [execBacklight, hq]
    refine hin _ fun hm => ⟨_, rfl, ?_⟩
    simp only [enterBacklight, State.startOp, hl]
    have := HostMove.took (s := s) (.backlight on) .done .none none [.call (if on then .backlightOn else .backlightOff), .release]
      (by simp [hm]) rfl (by cases on <;> simp [Stmt.clean]) (by simp)
    simpa [State.startOp, htx] using this
  case loadChars gs =>
    unfold execLoadChars
    rw [heldWhenBusy_idle _ hq]
    refine hin _ fun hm => ?_
    split
    · exact hrep _
    · split
      · exact hrep _
      · refine ⟨_, rfl, .started s.win _ _ _ _ (by simp [hm]) rfl ?_ hw⟩
        intro st hst
        rcases List.mem_cons.mp hst with rfl | hst
        · rfl
        · exact data_clean _ _ st hst
  case posCursor line col =>
    simp only [execPosCursor, hq]
    refine hin _ fun hm => ?_
    obtain ⟨c, hc⟩ := Option.isSome_iff_exists.mp (hcfg (by simp [hm]))
    rw [withCfg_some hc]
    cases hk : cursorCheck c.lines line col with
    | raise e => exact ⟨_, rfl, .raised s.win _ _ e (by simp [hm]) rfl hw⟩
    | refuse r => exact hrep _
    | pass a => exact ⟨_, rfl, .started s.win _ _ _ _ (by simp [hm]) rfl (by simp [Stmt.clean]) hw⟩
  case writeRaw str line pos =>
    simp only [execWriteRaw, hq]
    refine hin _ fun hm => ?_
    obtain ⟨c, hc⟩ := Option.isSome_iff_exists.mp (hcfg (by simp [hm]))
    exact writeRawBody_start hq hm hl hc s.win hw _ rfl _ _ str line pos (.inl rfl)
  case pad str n ch al =>
    unfold execPad
    rw [heldWhenBusy_idle _ hq]
    refine hin _ fun hm => ?_
    split <;> exact ⟨_, rfl, .answered _⟩
  case display str line al ov bu =>
    unfold execDisplay
    simp only
    rw [heldWhenBusy_idle _ hq]
    refine hin _ fun hm => ?_
    have hmu : s.mode ≠ .uninit := by simp [hm]
    obtain ⟨c, hc⟩ := Option.isSome_iff_exists.mp (hcfg hmu)
    rw [withCfg_some hc]
    split
    · exact ⟨_, rfl, .started none _ _ _ _ hmu rfl (by simp [Stmt.clean]) (by simp)⟩
    · split
      · unfold staticPath
        exact writeRawBody_start hq hm hl hc none (by simp) _ rfl _ _ _ line 0 (.inr (cursorFits_zero _))
      · rename_i hlen
        cases ov with
        | scroll =>
          refine renderMoved_start hq hm hl hc _ ⟨newWindow_legal line (h.cfgLegal c hc) (by omega), ?_⟩ _ rfl
          intro c' hc'
          rw [hc] at hc'
          obtain rfl := Option.some.inj hc'
          rfl
        | rotate =>
          simp only [overflowPath, rotatePath]
          split
          · exact hrep _
          · exact ⟨_, rfl, .rotates _ _ hmu rfl⟩
        | unknown v => exact ⟨_, rfl, .answered _⟩
  case scrollFwd n =>
    unfold execScrollFwd
    rw [heldWhenBusy_idle _ hq]
    refine hin _ fun hm => ?_
    obtain ⟨c, hc⟩ := Option.isSome_iff_exists.mp (hcfg (by simp [hm]))
    cases hwin : s.win with
    | none => exact hrep _
    | some w =>
      simp only
      cases hf : w.fwd n with
      | none =>
        have := HostMove.raised (s := s) s.win (.scrollFwd n) (.done .done .none) .boundaryError (by simp [hm]) rfl hw
        exact ⟨_, rfl, this⟩
      | some w' =>
        obtain ⟨h1, h2⟩ := fwd_legal (hw w hwin).1 hf
        exact renderMoved_start hq hm hl hc w' ⟨h1, fun c hc => by rw [h2]; exact (hw w hwin).2 c hc⟩ _ rfl
  case scrollBwd n =>
    unfold execScrollBwd
    rw [heldWhenBusy_idle _ hq]
    refine hin _ fun hm => ?_
    obtain ⟨c, hc⟩ := Option.isSome_iff_exists.mp (hcfg (by simp [hm]))
    cases hwin : s.win with
    | none => exact hrep _
    | some w =>
      simp only
      cases hf : w.bwd n with
      | none =>
        have := HostMove.raised (s := s) s.win (.scrollBwd n) (.done .done .none) .boundaryError (by simp [hm]) rfl hw
        exact ⟨_, rfl, this⟩
      | some w' =>
        obtain ⟨h1, h2⟩ := bwd_legal (hw w hwin).1 hf
        exact renderMoved_start hq hm hl hc w' ⟨h1, fun c hc => by rw [h2]; exact (hw w hwin).2 c hc⟩ _ rfl
  case view =>
    unfold execView
    rw [heldWhenBusy_idle _ hq]
    refine hin _ fun hm => ?_
    split
    · exact hrep _
    · exact ⟨_, rfl, .answered _⟩
  case cancel => exact ⟨_, rfl, .cancelled⟩
  all_goals exact hno _

/-! ### Whole steps -/

theorem State.Inv.turns {s : State} (h : s.Inv) (l : List Nat) : ({ s with turns := l } : State).Inv :=
  ⟨h.solo, h.seqOk, h.rot, h.cancel, h.cfg, h.cfgLegal, h.window, h.winWidth, h.lockOk⟩

theorem State.Inv.port {s : State} (h : s.Inv) (l : List Arrival) : ({ s with port := l } : State).Inv :=
  ⟨h.solo, h.seqOk, h.rot, h.cancel, h.cfg, h.cfgLegal, h.window, h.winWidth, h.lockOk⟩

theorem stepCur_none {s : State} (hq : s.seq = none) : stepCur s = fetchRequest s := by
  unfold stepCur
  split
  · rfl
  · simp_all

theorem fetchRequest_nil {s : State} (hp : s.port = []) : fetchRequest s = .next s := by
  unfold fetchRequest
  split
  · rfl
  · simp_all

theorem fetchRequest_cons {s : State} {a : Arrival} {rest : List Arrival} (hp : s.port = a :: rest) :
    fetchRequest s = (match decode (.request a.req) with
      | .ok i => exec i { s with port := rest }
      | .error _ => if hostTag a.req.tag then .refused .malformedOperands
          else .next (({ s with port := rest } : State).refuse .unknownOp)) := by
  unfold fetchRequest
  split
  · simp_all
  · rename_i a' rest' hp'
    obtain ⟨rfl, rfl⟩ : a = a' ∧ rest = rest' := by simpa [hp] using hp'
    rfl

theorem hostTag_named : ∀ b : Byte, hostTag b = true → (opOfTag b).isSome = true := by decide

theorem decodeRequest_error {r : Request} {e : Reject} (ht : hostTag r.tag = true) (h : decode (.request r) = .error e) :
    decode (.request r) = .error .malformedOperands := by
  obtain ⟨o, ho⟩ := Option.isSome_iff_exists.mp (hostTag_named _ ht)
  simp only [decode, decodeRequest, ho] at h ⊢
  split at h
  · rfl
  · simp at h

/-- Everything a step of the block can be, from a state of the invariant: `u` is the state with its turn used up. -/
theorem step_cases {s : State} (h : s.Inv) :
    ∃ u, u = { s with turns := s.turns.tail } ∧ u.Inv ∧
      ((∃ q t, s.seq = some q ∧ step s = .next t ∧ OpStep u q t)
        ∨ (s.seq = none ∧ s.port = [] ∧ step s = .next u)
        ∨ (∃ a rest t, s.seq = none ∧ s.port = a :: rest ∧ step s = .next t ∧ HostMove { u with port := rest } t)
        ∨ (∃ a rest, s.seq = none ∧ s.port = a :: rest ∧ step s = .refused .malformedOperands
            ∧ decode (.request a.req) = .error .malformedOperands)) := by
  obtain ⟨u, hu⟩ : ∃ u, u = ({ s with turns := s.turns.tail } : State) := ⟨_, rfl⟩
  have hI : u.Inv := by rw [hu]; exact h.turns _
  have hst : step s = stepCur u := by rw [step, State.takeTurn_solo h.solo, hu]
  have hseq : s.seq = u.seq := by rw [hu]
  have hport : s.port = u.port := by rw [hu]
  refine ⟨u, hu, hI, ?_⟩
  rw [hst, hseq, hport]
  clear hu hst hseq hport h
  rcases Option.eq_none_or_eq_some u.seq with hq | ⟨q, hq⟩
  · right
    rw [stepCur_none hq]
    obtain hp | ⟨a, rest, hp⟩ : u.port = [] ∨ ∃ a rest, u.port = a :: rest := by cases u.port <;> simp
    · exact .inl ⟨hq, hp, fetchRequest_nil hp⟩
    · right
      rw [fetchRequest_cons hp]
      have hI' : ({ u with port := rest } : State).Inv := hI.port rest
      cases hd : decode (.request a.req) with
      | ok i =>
        obtain ⟨t, h1, h2⟩ := exec_host hI' hq i
        exact .inl ⟨a, rest, t, hq, hp, h1, h2⟩
      | error e =>
        by_cases ht : hostTag a.req.tag = true
        · exact .inr ⟨a, rest, hq, hp, by simp [ht], decodeRequest_error ht hd⟩
        · refine .inl ⟨a, rest, _, hq, hp, by simp only [ht]; rfl, ?_⟩
          rw [State.refuse_idle (s := { u with port := rest }) hq]
          exact .answered _
  · obtain ⟨t, h1, h2⟩ := stepCur_inOp hI hq
    exact .inl ⟨q, t, hq, h1, h2⟩

end Sys2Proof.Machine
end

