-- ==== Sys2Proof/Laws/Invariant.lean ====
section
/-! SUPPORT. The invariant over the moves of the block, and what the moves do to MODE, the trace and the port. -/

namespace Sys2Proof.Machine

/-! ### The end of an operation -/

/-- Closing an operation leaves the invariant, in IDLE, or in UNINIT after an INIT. -/
theorem inv_closed {s t : State} {q : Seq} (h : s.Inv) (hq : s.seq = some q)
    (hpar : t.parked = []) (hseq : t.seq = none) (hmode : t.mode = .uninit ∨ t.mode = .idle)
    (hrot : t.rot = if s.mode = .rotating ∧ s.othersRotate = false then none else s.rot)
    (hcan : t.cancel = if s.mode = .rotating then false else s.cancel) (hcfg : t.cfg = s.cfg) (hwin : t.win = s.win)
    (hlock : t.lock = if s.lock = some s.cur then none else s.lock)
    (htx : t.tx = if s.lock = some s.cur then none else s.tx) : t.Inv := by
  obtain ⟨hm, -, -, -, hc, hr, htx'⟩ := h.inOp hq
  have hnr : t.mode ≠ .rotating := by rcases hmode with h | h <;> simp [h]
  have hl : t.lock = none := by
    rw [hlock]
    split
    · rfl
    · cases hl : s.lock with
      | none => rfl
      | some r => have := (h.lockOk.1 r hl).1; simp_all
  have ht : t.tx = none := by
    rw [htx]
    split
    · rfl
    · cases hl : s.lock with
      | none => exact htx' hl
      | some r => have := (h.lockOk.1 r hl).1; simp_all
  refine ⟨hpar, ?_, ?_, ?_, fun _ => by rw [hcfg]; exact hc, ?_, ?_, ?_, ?_⟩
  · simpa [State.seqOk, hseq] using hmode
  · rw [hrot]
    simp only [show s.othersRotate = false by simp [State.othersRotate, h.solo], and_true]
    split
    · simp [hnr]
    · rename_i hnm
      have : s.rot = none := by
        cases hsr : s.rot with
        | none => rfl
        | some r => exact absurd (h.rot.mp (by simp [hsr])) hnm
      simp [this, hnr]
  · rw [hcan]
    split
    · simp
    · rename_i hnm
      intro hc
      exact absurd (h.cancel hc) hnm
  · rw [hcfg]; exact h.cfgLegal
  · rw [hwin]; exact h.window
  · rw [hwin, hcfg]; exact h.winWidth
  · simp [State.lockOk, hl, ht]

theorem inv_raise {s : State} {q : Seq} (h : s.Inv) (hq : s.seq = some q) (e : ErrCode) : (s.raise e).Inv := by
  refine inv_closed h hq ?_ (by simp) ?_ (by simp) (by simp) (by simp) (by simp) (by simp) (by simp)
  · simp [h.solo]
  · by_cases hi : s.inInit <;> simp [hi]

theorem inv_finish {s : State} {q : Seq} (h : s.Inv) (hq : s.seq = some q) (st : Status) (v : Value) :
    (s.finish st v).Inv := by
  refine inv_closed h hq ?_ (by simp) (by simp) (by simp) (by simp) (by simp) (by simp) (by simp) (by simp)
  simp [h.solo]

/-! ### Going on -/

/-- A move that goes on with the operation keeps the invariant. -/
theorem inv_goes_on {s t : State} {q q' : Seq} (h : s.Inv) (hq : s.seq = some q) (hq' : t.seq = some q')
    (hop : q'.op = q.op) (hret : q'.ret = q.ret) (htodo : ∀ st ∈ q'.todo, st.clean s.mode = true)
    (hpk : t.parked = s.parked) (hmode : t.mode = s.mode) (hrot : t.rot.isSome = s.rot.isSome) (hcan : t.cancel = s.cancel)
    (hcfg : t.cfg = s.cfg) (hwin : t.win = s.win) (hlock : t.lockOk) : t.Inv := by
  obtain ⟨h1, h2, h3, h4, -⟩ := h.inOp hq
  refine ⟨by rw [hpk, h.solo], ?_, ?_, ?_, ?_, ?_, ?_, ?_, hlock⟩
  · simp only [State.seqOk, hq', hmode, hop, hret]
    exact ⟨h1, h2, htodo, h4⟩
  · rw [hrot, hmode]; exact h.rot
  · rw [hcan, hmode]; exact h.cancel
  · rw [hmode, hcfg]; exact h.cfg
  · rw [hcfg]; exact h.cfgLegal
  · rw [hwin]; exact h.window
  · rw [hwin, hcfg]; exact h.winWidth

theorem frameWrites_pos (p : Params) : 0 < frameWrites p := by unfold frameWrites; split <;> decide

/-- Every move of a statement keeps the invariant. -/
theorem OpMove.inv {s t : State} {q : Seq} (hm : OpMove s t) (h : s.Inv) (hq : s.seq = some q) : t.Inv := by
  have htodo := (h.inOp hq).2.2.1
  have happ : ∀ l : List Stmt, (∀ st ∈ l, st.clean s.mode = true) → ∀ st ∈ l ++ q.todo, st.clean s.mode = true :=
    fun l hl st hst => by
      rcases List.mem_append.mp hst with h | h
      · exact hl st h
      · exact htodo st h
  obtain ⟨l1, l2, l3⟩ := h.lockOk
  cases hm with
  | pushed l hl =>
    exact inv_goes_on h hq (q' := { q with todo := l ++ q.todo }) (by simp [hq]) rfl rfl (happ l hl) rfl rfl rfl rfl rfl rfl
      (by simpa [State.lockOk, hq] using ⟨fun r hr => (l1 r hr).1, l2, l3⟩)
  | waited t =>
    exact inv_goes_on h hq (q' := { q with pos := q.pos + 1 }) (by simp [hq]) rfl rfl htodo rfl rfl rfl rfl rfl rfl
      (by simpa [State.lockOk, hq] using ⟨fun r hr => (l1 r hr).1, l2, l3⟩)
  | wrote c v hc hv =>
    refine inv_goes_on h hq (q' := { q with pos := q.pos + 1, todo := .call (.wait Config.tSettle) :: q.todo })
      (by simp [hq]) rfl rfl (happ [.call (.wait Config.tSettle)] (by simp [Stmt.clean])) (by simp) (by simp) (by simp)
      (by simp) (by simp) (by simp) ?_
    refine ⟨fun r hr => ⟨by simpa using (l1 r (by simpa using hr)).1, by simp [hq]⟩, fun hl => ?_, fun t ht => ?_⟩
    · simpa using l2 (by simpa using hl)
    · obtain ⟨f, hf, rfl⟩ : ∃ f, s.tx = some f ∧ t = if f.phase + 1 < frameWrites s.par then { f with phase := f.phase + 1 } else f := by
        cases hs : s.tx with
        | none => simp [hs] at ht
        | some f => exact ⟨f, rfl, by simpa [hs, eq_comm] using ht⟩
      simp only [State.push_par, State.nextPhase_par, State.emit_par, State.drawn_par]
      split
      · assumption
      · exact l3 f hf
  | failed c v hc hv =>
    have hI : (s.drawn.emit (.busWrite c.addr v .busError)).Inv := by
      refine inv_goes_on h hq (q' := { q with pos := q.pos + 1 })
        (by simp [hq]) rfl rfl htodo (by simp) (by simp) (by simp) (by simp) (by simp) (by simp) ?_
      exact ⟨fun r hr => ⟨by simpa using (l1 r (by simpa using hr)).1, by simp [hq]⟩,
        fun hl => by simpa using l2 (by simpa using hl), fun t ht => by simpa using l3 t (by simpa using ht)⟩
    exact inv_raise hI (q := { q with pos := q.pos + 1 }) (by simp [hq]) _
  | raised e => exact inv_raise h hq e
  | took tx l hl hlock htx =>
    refine inv_goes_on h hq (q' := { q with todo := l ++ q.todo }) (by simp [hq]) rfl rfl (happ l hl) rfl rfl rfl rfl rfl rfl ?_
    refine ⟨fun r hr => ⟨?_, by simp [hq]⟩, fun hl => by simp at hl, fun t ht => ?_⟩
    · simpa [eq_comm] using hr
    · rw [htx t (by simpa using ht)]
      exact frameWrites_pos _
  | turned r r' l hl hm hr hb =>
    exact inv_goes_on h hq (q' := { q with todo := l ++ q.todo }) (by simp [hq]) rfl rfl (happ l hl) rfl rfl (by simp [hr]) rfl rfl rfl
      (by simpa [State.lockOk, hq] using ⟨fun r hr => (l1 r hr).1, l2, l3⟩)

/-- Every step of an operation keeps the invariant. -/
theorem OpStep.inv {s t : State} {q : Seq} (hm : OpStep s q t) (h : s.Inv) (hq : s.seq = some q) : t.Inv := by
  obtain ⟨hmode, hret, htodo, hinit, -, -, -⟩ := h.inOp hq
  have hrest : ∀ st rest, q.todo = st :: rest → (s.setTodo rest).Inv := fun st rest e =>
    h.setTodo hq fun x hx => htodo x (by simp [e, hx])
  cases hm with
  | ran st rest t ht hmv => exact hmv.inv (hrest st rest ht) (q := { q with todo := rest }) (by simp [hq])
  | released rest ht =>
    refine inv_goes_on (hrest _ _ ht) (q := { q with todo := rest }) (q' := { q with todo := rest }) (by simp [hq]) (by simp [hq])
      rfl rfl (fun x hx => htodo x (by simp only [] at hx; simp [ht, hx])) (by simp) (by simp) (by simp) (by simp) (by simp) (by simp) ?_
    obtain ⟨l1, l2, l3⟩ := h.lockOk
    by_cases hc : s.lock = some s.cur
    · simp [State.lockOk, hc]
    · refine ⟨fun r hr => ?_, fun hl => ?_, fun t ht => ?_⟩
      · simpa [hq] using (l1 r (by simpa [hc] using hr)).1
      · simpa [hc] using l2 (by simpa [hc] using hl)
      · simpa using l3 t (by simpa [hc] using ht)
  | finished st v ht hr => exact inv_finish h hq _ _
  | rotated r ht hr hrr hc => exact inv_finish h hq _ _
  | looped ht hr =>
    refine OpMove.inv (.pushed _ ?_) h hq
    simp [Stmt.clean, hret.mp hr]
  | cancelled rest hd =>
    obtain ⟨i1, i2, i3, i4, i5, i6, i7, i8, i9⟩ := h
    refine ⟨i1, i2, i3, ?_, i5, i6, i7, i8, i9⟩
    intro hc
    simp only [State.report_cancel] at hc
    split at hc
    · assumption
    · exact i4 hc

/-! ### At the request port -/

/-- An operation that starts keeps the invariant. -/
theorem inv_starts {s t : State} (h : s.Inv) (hq : s.seq = none) {op : Instr} {ret : Ret} {l : List Stmt} {pos : Nat}
    {val : Value} (hseq : t.seq = some { op := op, pos := pos, todo := l, ret := ret, val := val })
    (hmode : (t.mode = .busy ∧ ret ≠ .rotate ∧ t.rot = s.rot) ∨ (t.mode = .rotating ∧ ret = .rotate ∧ t.rot.isSome = true ∧ isInitOp op = false))
    (hl : ∀ x ∈ l, x.clean t.mode = true) (hpk : t.parked = s.parked) (hcan : t.cancel = false) (hcfg : t.cfg.isSome = true)
    (hleg : ∀ c, t.cfg = some c → c.legal = true)
    (hwin : ∀ w, t.win = some w → w.legal = true ∧ ∀ c, t.cfg = some c → w.lcdLen = c.lineLength) (hlock : t.lockOk) : t.Inv := by
  obtain ⟨-, -, -, hrot, -, -⟩ := h.idle hq
  refine ⟨by rw [hpk, h.solo], ?_, ?_, by simp [hcan], fun _ => hcfg, hleg, fun w hw => (hwin w hw).1,
    fun w c hw hc => (hwin w hw).2 c hc, hlock⟩
  · simp only [State.seqOk, hseq]
    rcases hmode with ⟨hm, hr, -⟩ | ⟨hm, hr, -, hi⟩
    · exact ⟨.inl hm, by simp [hm, hr], hl, fun _ => hm⟩
    · exact ⟨.inr hm, by simp [hm, hr], hl, fun hi' => by simp [hi] at hi'⟩
  · rcases hmode with ⟨hm, -, hr⟩ | ⟨hm, -, hr, -⟩
    · simp [hm, hr, hrot]
    · simp [hm, hr]

/-- Every request taken keeps the invariant. -/
theorem HostMove.inv {s t : State} (hm : HostMove s t) (h : s.Inv) (hq : s.seq = none) : t.Inv := by
  obtain ⟨hmode, hl, htx, hrot, hcan, hcfg⟩ := h.idle hq
  have hfree : ∀ u : State, u.lock = s.lock → u.tx = s.tx → u.lockOk := fun u h1 h2 => by
    simp [State.lockOk, h1, h2, hl, htx]
  cases hm with
  | answered r => exact ⟨h.solo, h.seqOk, h.rot, h.cancel, h.cfg, h.cfgLegal, h.window, h.winWidth, h.lockOk⟩
  | cancelled =>
    refine ⟨h.solo, h.seqOk, h.rot, ?_, h.cfg, h.cfgLegal, h.window, h.winWidth, h.lockOk⟩
    intro hc
    simp only [State.report_cancel] at hc
    split at hc
    · assumption
    · exact h.cancel hc
  | started w op st v l hm hop hlc hw =>
    exact inv_starts h hq (op := op) (ret := .done st v) (l := l) (pos := 0) (val := .none) (by simp) (.inl ⟨rfl, by simp, rfl⟩)
      hlc rfl hcan (hcfg hm) h.cfgLegal hw (hfree _ rfl rfl)
  | took op st v tx l hm hop hlc htx' =>
    refine inv_starts h hq (op := op) (ret := .done st v) (l := l) (pos := 0) (val := .none) (by simp) (.inl ⟨rfl, by simp, rfl⟩)
      hlc rfl hcan (hcfg hm) h.cfgLegal (fun w hw => ⟨h.window w hw, fun c hc => h.winWidth w c hw hc⟩) ?_
    refine ⟨fun r hr => ⟨?_, by simp⟩, fun hl => by simp at hl, fun t ht => ?_⟩
    · simpa [eq_comm] using hr
    · rw [htx' t (by simpa using ht)]
      exact frameWrites_pos _
  | raised w op ret e hm hop hw =>
    by_cases hr : ret = .rotate
    · subst hr
      refine ⟨by simp [hop, h.solo], by simp [State.seqOk, hop], by simp [hop, hrot], by simp [hcan], by simpa [hop] using hcfg hm,
        by simpa using h.cfgLegal, by simpa using fun x hx => (hw x hx).1, by simpa using fun x c hx => (hw x hx).2 c, ?_⟩
      simp [State.lockOk, hl, htx]
    · have hI : (({ s with win := w } : State).startOp op ret).Inv :=
        inv_starts h hq (op := op) (ret := ret) (l := []) (pos := 0) (val := .none) (by simp) (.inl ⟨rfl, hr, rfl⟩)
          (by simp) rfl hcan (hcfg hm) h.cfgLegal hw (hfree _ rfl rfl)
      exact inv_raise hI (q := { op := op, pos := 0, todo := [], ret := ret, val := .none }) (by simp) _
  | inited c op st v l hc hlc =>
    exact inv_starts h hq (op := op) (ret := .done st v) (l := l) (pos := 0) (val := .none) (by simp) (.inl ⟨rfl, by simp, rfl⟩)
      hlc rfl rfl rfl (by simpa using hc) (by simp) (hfree _ rfl rfl)
  | rotates op r hm hop =>
    exact inv_starts h hq (op := op) (ret := .rotate) (l := [.call .rotStep]) (pos := 0) (val := .none) (by simp)
      (.inr ⟨rfl, rfl, rfl, hop⟩) (by simp [Stmt.clean]) rfl rfl (hcfg hm) h.cfgLegal (by simp) (hfree _ rfl rfl)

end Sys2Proof.Machine
end

