-- ==== Sys2Proof/Laws/Lock.lean ====
section
/-! SUPPORT. What one move can do to the transport lock, to the trace and to the other requesters, whatever their number:
for a statement outside frames, for one inside a frame, and for an operation's end. -/

namespace Sys2Proof.Machine

/-- No bus write among the events. -/
def quiet (evs : List Event) : Prop := ∀ e ∈ evs, ∀ a v ans, e ≠ .busWrite a v ans

/-- What no move of a requester touches: its number, and the others' procedures. -/
structure Apart (s t : State) : Prop where
  cur : t.cur = s.cur
  parked : t.parked.map (fun r => (r.id, r.seq)) = s.parked.map (fun r => (r.id, r.seq))

/-- What a move that starts outside frames can do. -/
inductive LockMove (s t : State) : Prop where
  /-- It goes on, or ends, with nothing done to the lock. -/
  | kept (l : List Stmt) (h : Apart s t) (ht : ∃ evs, t.trace = s.trace ++ evs ∧ quiet evs) (hlock : t.lock = s.lock)
      (htx : t.tx = s.tx) (hl : outsideFrames l = true) (hs : stmtsLeft t.seq = l ++ stmtsLeft s.seq ∨ stmtsLeft t.seq = l)
  /-- It takes the free lock and starts a frame. -/
  | took (st : Stmt) (h : Apart s t) (ht : t.trace = s.trace) (hfree : s.lock = none) (hlock : t.lock = some s.cur)
      (hst : st.inFrame = true) (hs : stmtsLeft t.seq = [st, .release] ++ stmtsLeft s.seq)
  /-- Its operation ends, and its lock is free. -/
  | closed (h : Apart s t) (ht : ∃ evs, t.trace = s.trace ++ evs ∧ quiet evs) (hown : s.lock = some s.cur)
      (hlock : t.lock = none) (hs : stmtsLeft t.seq = [])

theorem quiet_nil : quiet [] := nofun

/-- The same from a state that differs in nothing the move is asked about. -/
theorem LockMove.of_same {s u t : State} (h : LockMove u t) (hc : u.cur = s.cur) (hp : u.parked = s.parked)
    (htr : u.trace = s.trace) (hl : u.lock = s.lock) (htx : u.tx = s.tx) (hs : stmtsLeft u.seq = stmtsLeft s.seq) :
    LockMove s t := by
  have ha : ∀ {t}, Apart u t → Apart s t := fun h => ⟨h.cur.trans hc, by rw [h.parked, hp]⟩
  cases h with
  | kept l h ht h1 h2 h3 h4 => exact .kept l (ha h) (htr ▸ ht) (h1.trans hl) (h2.trans htx) h3 (hs ▸ h4)
  | took st h ht h1 h2 h3 h4 => exact .took st (ha h) (ht.trans htr) (hl ▸ h1) (hc ▸ h2) h3 (hs ▸ h4)
  | closed h ht h1 h2 h3 => exact .closed (ha h) (htr ▸ ht) (by rw [← hl, ← hc]; exact h1) h2 h3

/-! ### The shared operations -/

theorem push_left (l : List Stmt) {s : State} {q : Seq} (hq : s.seq = some q) :
    stmtsLeft (s.push l).seq = l ++ stmtsLeft s.seq := by
  simp [hq, stmtsLeft]

theorem push_lock {s : State} {q : Seq} (hq : s.seq = some q) {l : List Stmt} (hl : outsideFrames l = true) :
    LockMove s (s.push l) :=
  .kept l ⟨rfl, rfl⟩ ⟨[], by simp, quiet_nil⟩ rfl rfl hl (.inl (push_left l hq))

theorem report_lock (s : State) (r : Result) : LockMove s (s.report r) :=
  .kept [] ⟨rfl, rfl⟩ ⟨[], by simp, quiet_nil⟩ rfl rfl rfl (.inl rfl)

@[simp] theorem afterInit_id (ok : Bool) (r : Requester) : (Requester.afterInit ok r).id = r.id := by
  unfold Requester.afterInit
  split <;> split <;> rfl

@[simp] theorem afterInit_seq (ok : Bool) (r : Requester) : (Requester.afterInit ok r).seq = r.seq := by
  unfold Requester.afterInit
  split <;> split <;> rfl

/-- The end of an operation. -/
theorem closeOp_lock (ok : Bool) (s : State) (m : Mode) (r : Result) : LockMove s (((s.tellOthers ok).closeOp m).report r) := by
  have ha : Apart s (((s.tellOthers ok).closeOp m).report r) := by
    refine ⟨by simp, ?_⟩
    by_cases hi : s.inInit <;> simp [hi]
  by_cases hl : s.lock = some s.cur
  · exact .closed ha ⟨[], by simp, quiet_nil⟩ hl (by simp [hl]) (by simp [stmtsLeft])
  · exact .kept [] ha ⟨[], by simp, quiet_nil⟩ (by simp [hl]) (by simp [hl]) rfl (.inr (by simp [stmtsLeft]))

theorem raise_lock (s : State) (e : ErrCode) : LockMove s (s.raise e) := closeOp_lock _ _ _ _

theorem finish_lock (s : State) (st : Status) (v : Value) : LockMove s (s.finish st v) := closeOp_lock _ _ _ _

theorem configureOp_lock {s : State} {q : Seq} (hq : s.seq = some q) (c : Cfg) : LockMove s (configureOp c s) := by
  cases h : s.lock with
  | some r => rw [configureOp_held c h]; exact push_lock hq rfl
  | none =>
    rw [configureOp_free c h]
    exact (push_lock (s := { s with cfg := some c, win := none, cancel := false }) (l := initCalls) hq rfl).of_same rfl rfl rfl rfl rfl rfl

theorem refuse_lock (s : State) (r : Reason) : LockMove s (s.refuse r) := by
  unfold State.refuse
  cases hq : s.seq with
  | none => exact report_lock _ _
  | some q =>
    have ha : Apart s ((s.closeOp .idle).report (.refused r)) := ⟨by simp, by simp⟩
    by_cases hl : s.lock = some s.cur
    · exact .closed ha ⟨[], by simp, quiet_nil⟩ hl (by simp [hl]) (by simp [stmtsLeft])
    · exact .kept [] ha ⟨[], by simp, quiet_nil⟩ (by simp [hl]) (by simp [hl]) rfl (.inr (by simp [stmtsLeft]))

theorem enterFrame_lock {s : State} {q : Seq} (hq : s.seq = some q) (b : Byte) (m : RegSel) :
    LockMove s (enterFrame b m s) := by
  unfold enterFrame
  cases h : s.lock with
  | some r => exact push_lock hq rfl
  | none => exact .took (.call (.commandFrame (highOf b) (lowOf b) m)) ⟨rfl, rfl⟩ rfl h rfl rfl (by simp [hq, stmtsLeft])

theorem enterBacklight_lock {s : State} {q : Seq} (hq : s.seq = some q) (on : Bool) : LockMove s (enterBacklight on s) := by
  unfold enterBacklight
  cases h : s.lock with
  | some r => exact push_lock hq rfl
  | none =>
    exact .took (.call (if on then .backlightOn else .backlightOff)) ⟨rfl, rfl⟩ rfl h rfl (by cases on <;> rfl)
      (by simp [hq, stmtsLeft])

theorem data_outside (str : Str) : outsideFrames (str.map (fun b => Stmt.call (.data b))) = true := by
  simp [outsideFrames, Stmt.underLock, Instr.underLock]

theorem writeRawBody_lock {s t : State} {q : Seq} (hq : s.seq = some q) {str : Str} {line pos : Nat}
    (h : writeRawBody str line pos s = .next t) : LockMove s t := by
  obtain ⟨c, -, h⟩ := withCfg_next h
  split at h <;> obtain rfl := Host.Outcome.next.inj h
  · exact raise_lock _ _
  · exact refuse_lock _ _
  · exact push_lock hq (data_outside str)

theorem renderBody_lock {s t : State} {q : Seq} (hq : s.seq = some q) {str : Str} {line : Nat}
    (h : renderBody str line s = .next t) : LockMove s t := by
  obtain ⟨c, -, h⟩ := withCfg_next h
  exact writeRawBody_lock hq h

/-- A move of an operation that has just started is one of the state it started in. -/
theorem started_lock {s t : State} (w : Option Window) {op : Instr} {ret : Ret} (hq : s.seq = none)
    (h : LockMove (({ s with win := w } : State).startOp op ret) t) : LockMove s t :=
  h.of_same rfl rfl rfl rfl rfl (by simp [State.startOp, stmtsLeft, hq])

theorem renderMoved_lock {s t : State} {op : Instr} {w : Window} (hq : s.seq = none) (h : renderMoved op w s = .next t) :
    LockMove s t :=
  started_lock (some w) hq (renderBody_lock rfl h)

theorem whenInit_lock {s t : State} {k : Outc} (hk : k = .next t → LockMove s t) (h : whenInit s k = .next t) :
    LockMove s t := by
  unfold whenInit at h
  split at h
  · obtain rfl := Host.Outcome.next.inj h
    exact refuse_lock _ _
  · exact hk h

theorem inOp_lock {s t : State} {k : Outc} (hk : ∀ q, s.seq = some q → k = .next t → LockMove s t)
    (h : inOp s k = .next t) : LockMove s t := by
  unfold inOp at h
  split at h
  · obtain rfl := Host.Outcome.next.inj h
    exact refuse_lock _ _
  · exact hk _ ‹_› h

theorem heldWhenBusy_lock {i : Instr} {s t : State} {k : Outc} (hk : s.seq = none → k = .next t → LockMove s t)
    (h : heldWhenBusy i s k = .next t) : LockMove s t := by
  unfold heldWhenBusy at h
  split at h
  · exact hk ‹_› h
  · split at h <;> obtain rfl := Host.Outcome.next.inj h <;>
      exact .kept [] ⟨rfl, rfl⟩ ⟨[], by simp, quiet_nil⟩ rfl rfl rfl (.inl rfl)

/-- A state that differs in nothing the lock is about. -/
theorem same_lock {s t : State} (ha : Apart s t) (htr : t.trace = s.trace) (hl : t.lock = s.lock) (htx : t.tx = s.tx)
    (hs : stmtsLeft t.seq = stmtsLeft s.seq) : LockMove s t :=
  .kept [] ha ⟨[], by simp [htr], quiet_nil⟩ hl htx rfl (.inl (by simpa using hs))

/-- Every instruction but those that write the bus under a lock already taken. -/
theorem exec_lock {i : Instr} {s t : State} (hi : i.underLock = false) (h : exec i s = .next t) : LockMove s t := by
  have hframe : ∀ {b m}, inOp s (.next (enterFrame b m s)) = .next t → LockMove s t := fun h =>
    inOp_lock (fun q hq h => by obtain rfl := Host.Outcome.next.inj h; exact enterFrame_lock hq _ _) h
  cases i <;> simp only [Instr.underLock, Bool.true_eq_false] at hi <;> simp only [exec] at h
  case writeCmd b m =>
    unfold execWriteCmd at h
    split at h
    · obtain rfl := Host.Outcome.next.inj h
      exact enterFrame_lock ‹_› _ _
    · refine whenInit_lock (fun h => ?_) h
      obtain rfl := Host.Outcome.next.inj h
      exact started_lock s.win ‹_› (enterFrame_lock rfl _ _)
  case init lines n a b e iv =>
    refine heldWhenBusy_lock (fun hq h => ?_) h
    split at h <;> obtain rfl := Host.Outcome.next.inj h
    · exact started_lock s.win hq (configureOp_lock rfl _)
    · exact refuse_lock _ _
  case clear =>
    refine heldWhenBusy_lock (fun hq h => whenInit_lock (fun h => ?_) h) h
    obtain rfl := Host.Outcome.next.inj h
    exact started_lock s.win hq (push_lock rfl rfl)
  case backlight on =>
    unfold execBacklight at h
    split at h
    · obtain rfl := Host.Outcome.next.inj h
      exact enterBacklight_lock ‹_› _
    · refine whenInit_lock (fun h => ?_) h
      obtain rfl := Host.Outcome.next.inj h
      exact started_lock s.win ‹_› (enterBacklight_lock rfl _)
  case loadChars gs =>
    refine heldWhenBusy_lock (fun hq h => whenInit_lock (fun h => ?_) h) h
    split at h
    · obtain rfl := Host.Outcome.next.inj h
      exact refuse_lock _ _
    · split at h <;> obtain rfl := Host.Outcome.next.inj h
      · exact refuse_lock _ _
      · exact started_lock s.win hq (push_lock rfl (data_outside _))
  case posCursor line col =>
    unfold execPosCursor at h
    split at h
    · obtain ⟨c, -, h⟩ := withCfg_next h
      split at h <;> obtain rfl := Host.Outcome.next.inj h
      · exact raise_lock _ _
      · exact refuse_lock _ _
      · exact push_lock ‹_› rfl
    · refine whenInit_lock (fun h => ?_) h
      obtain ⟨c, -, h⟩ := withCfg_next h
      split at h <;> obtain rfl := Host.Outcome.next.inj h
      · exact started_lock s.win ‹_› (raise_lock _ _)
      · exact refuse_lock _ _
      · exact started_lock s.win ‹_› (push_lock rfl rfl)
  case writeRaw str line pos =>
    unfold execWriteRaw at h
    split at h
    · exact writeRawBody_lock ‹_› h
    · exact whenInit_lock (fun h => started_lock s.win ‹_› (writeRawBody_lock rfl h)) h
  case pad str n ch al =>
    refine heldWhenBusy_lock (fun hq h => whenInit_lock (fun h => ?_) h) h
    split at h <;> obtain rfl := Host.Outcome.next.inj h <;> exact report_lock _ _
  case display str line al ov bu =>
    unfold execDisplay at h
    simp only at h
    refine heldWhenBusy_lock (fun hq h => whenInit_lock (fun h => ?_) h) h
    obtain ⟨c, -, h⟩ := withCfg_next h
    split at h
    · obtain rfl := Host.Outcome.next.inj h
      exact started_lock none hq (push_lock rfl rfl)
    · split at h
      · unfold staticPath at h
        exact started_lock none hq (writeRawBody_lock rfl h)
      · cases ov with
        | scroll => exact renderMoved_lock hq h
        | rotate =>
          unfold overflowPath rotatePath at h
          simp only at h
          split at h <;> obtain rfl := Host.Outcome.next.inj h
          · exact refuse_lock _ _
          · exact .kept [.call .rotStep] ⟨rfl, rfl⟩ ⟨[], by simp [State.push, State.startOp], quiet_nil⟩ rfl rfl rfl (.inr rfl)
        | unknown v =>
          obtain rfl := Host.Outcome.next.inj h
          exact report_lock _ _
  case scrollFwd n =>
    refine heldWhenBusy_lock (fun hq h => whenInit_lock (fun h => ?_) h) h
    split at h
    · obtain rfl := Host.Outcome.next.inj h
      exact refuse_lock _ _
    · split at h
      · obtain rfl := Host.Outcome.next.inj h
        exact started_lock s.win hq (raise_lock _ _)
      · exact renderMoved_lock hq h
  case scrollBwd n =>
    refine heldWhenBusy_lock (fun hq h => whenInit_lock (fun h => ?_) h) h
    split at h
    · obtain rfl := Host.Outcome.next.inj h
      exact refuse_lock _ _
    · split at h
      · obtain rfl := Host.Outcome.next.inj h
        exact started_lock s.win hq (raise_lock _ _)
      · exact renderMoved_lock hq h
  case view =>
    refine heldWhenBusy_lock (fun hq h => whenInit_lock (fun h => ?_) h) h
    split at h <;> obtain rfl := Host.Outcome.next.inj h
    · exact refuse_lock _ _
    · exact report_lock _ _
  case cancel =>
    obtain rfl := Host.Outcome.next.inj h
    exact same_lock ⟨rfl, rfl⟩ rfl rfl rfl rfl
  case wait n =>
    refine inOp_lock (fun q hq h => ?_) h
    obtain rfl := Host.Outcome.next.inj h
    exact .kept [] ⟨rfl, rfl⟩ ⟨[.wait n], rfl, by simp [quiet]⟩ rfl rfl rfl (.inl (by simp [hq, stmtsLeft]))
  case winCreate buf n line b e =>
    refine inOp_lock (fun q hq h => ?_) h
    split at h
    · obtain rfl := Host.Outcome.next.inj h
      exact same_lock ⟨rfl, rfl⟩ rfl rfl rfl rfl
    · simp at h
  case winView =>
    refine inOp_lock (fun q hq h => ?_) h
    obtain ⟨w, -, h⟩ := withWin_next h
    obtain rfl := Host.Outcome.next.inj h
    exact same_lock ⟨rfl, rfl⟩ rfl rfl rfl (by simp [hq, stmtsLeft])
  case winFwd n =>
    refine inOp_lock (fun q hq h => ?_) h
    obtain ⟨w, -, h⟩ := withWin_next h
    split at h <;> obtain rfl := Host.Outcome.next.inj h
    · exact raise_lock _ _
    · exact same_lock ⟨rfl, rfl⟩ rfl rfl rfl rfl
  case winBwd n =>
    refine inOp_lock (fun q hq h => ?_) h
    obtain ⟨w, -, h⟩ := withWin_next h
    split at h <;> obtain rfl := Host.Outcome.next.inj h
    · exact raise_lock _ _
    · exact same_lock ⟨rfl, rfl⟩ rfl rfl rfl rfl
  case renderLine str line => exact inOp_lock (fun q hq h => renderBody_lock hq h) h
  case rotStep =>
    refine inOp_lock (fun q hq h => ?_) h
    obtain ⟨r, -, h⟩ := withRot_next h
    obtain ⟨c, -, h⟩ := withCfg_next h
    obtain rfl := Host.Outcome.next.inj h
    exact (push_lock (s := ({ s with rot := some { r with s := rotl1 r.s } } : State)) hq rfl).of_same rfl rfl rfl rfl rfl rfl
  all_goals exact hframe h

/-! ### Inside a frame -/

/-- What a statement inside a frame, its lock held, can do. -/
inductive FrameMove (s t : State) : Prop where
  /-- It goes on inside the frame. -/
  | on (l : List Stmt) (h : Apart s t) (ht : ∃ evs, t.trace = s.trace ++ evs) (hlock : t.lock = s.lock)
      (hl : ∀ st ∈ l, st.inFrame = true) (hs : stmtsLeft t.seq = l ++ stmtsLeft s.seq)
  /-- Its operation ends. -/
  | ended (h : Apart s t) (ht : ∃ evs, t.trace = s.trace ++ evs) (hs : stmtsLeft t.seq = [])

theorem busWriteOp_frame {s t : State} {q : Seq} (hq : s.seq = some q) {v : Byte} (h : busWriteOp v s = .next t) :
    FrameMove s t := by
  obtain ⟨c, -, h⟩ := withCfg_next h
  simp only at h
  split at h <;> obtain rfl := Host.Outcome.next.inj h
  · exact .on [.call (.wait Config.tSettle)] ⟨by simp, by simp⟩ ⟨_, by simp; rfl⟩ (by simp) (by simp [Stmt.inFrame])
      (by simp [hq, stmtsLeft])
  · refine .ended ⟨by simp, ?_⟩ ⟨_, by simp; rfl⟩ (by simp [stmtsLeft])
    by_cases hi : (s.drawn.emit (.busWrite c.addr v s.answer)).inInit <;> simp [hi]

theorem exec_frame {i : Instr} {s t : State} {q : Seq} (hq : s.seq = some q) (hi : (Stmt.call i).inFrame = true)
    (h : exec i s = .next t) : FrameMove s t := by
  have hop : ∀ {k : Outc}, inOp s k = .next t → k = .next t := fun h => by rwa [inOp_some hq] at h
  cases i <;> simp only [Stmt.inFrame, Stmt.underLock, Instr.underLock, Bool.false_eq_true] at hi <;> simp only [exec] at h
  case wait n =>
    obtain rfl := Host.Outcome.next.inj (hop h)
    exact .on [] ⟨rfl, rfl⟩ ⟨[.wait n], rfl⟩ rfl nofun (by simp [hq, stmtsLeft])
  case nibble x m =>
    obtain rfl := Host.Outcome.next.inj (hop h)
    refine .on _ ⟨rfl, rfl⟩ ⟨[], by simp⟩ rfl ?_ (push_left _ hq)
    cases s.par.prewrite <;> simp [Stmt.inFrame, Stmt.underLock, Instr.underLock]
  case commandFrame a b m =>
    obtain rfl := Host.Outcome.next.inj (hop h)
    exact .on _ ⟨rfl, rfl⟩ ⟨[], by simp⟩ rfl (by simp [Stmt.inFrame, Stmt.underLock, Instr.underLock]) (push_left _ hq)
  all_goals exact busWriteOp_frame hq (hop h)

end Sys2Proof.Machine
end

