-- ==== Sys2Proof/Laws/PerInstr.lean ====
section
/-! SUPPORT. A statement of every instruction as syntax, made per constructor: where its code is a request, the request's
tag is in the tables of 30_encoding R113. -/

namespace Sys2Proof.Laws.F

/-- A request is encoded under a tag that spells an operation (30_encoding R113, R117); of an instruction encoded as bits
(30_encoding R101 to R111) this says nothing. -/
def Statement (i : Instr) : Prop := ∀ r, encode i = .request r → (opOfTag r.tag).isSome = true

theorem writeCmd : ∀ x0 x1, Statement (.writeCmd x0 x1) := by
  intro x0 x1 r h
  cases h
  rfl

theorem init : ∀ x0 x1 x2 x3 x4 x5, Statement (.init x0 x1 x2 x3 x4 x5) := by
  intro x0 x1 x2 x3 x4 x5 r h
  cases h
  rfl

theorem clear : Statement (.clear) := by
  intro r h
  cases h
  rfl

theorem backlight : ∀ x0, Statement (.backlight x0) := by
  intro x0 r h
  cases h
  rfl

theorem loadChars : ∀ x0, Statement (.loadChars x0) := by
  intro x0 r h
  cases h
  rfl

theorem posCursor : ∀ x0 x1, Statement (.posCursor x0 x1) := by
  intro x0 x1 r h
  cases h
  rfl

theorem writeRaw : ∀ x0 x1 x2, Statement (.writeRaw x0 x1 x2) := by
  intro x0 x1 x2 r h
  cases h
  rfl

theorem pad : ∀ x0 x1 x2 x3, Statement (.pad x0 x1 x2 x3) := by
  intro x0 x1 x2 x3 r h
  cases h
  rfl

theorem display : ∀ x0 x1 x2 x3 x4, Statement (.display x0 x1 x2 x3 x4) := by
  intro x0 x1 x2 x3 x4 r h
  cases h
  rfl

theorem scrollFwd : ∀ x0, Statement (.scrollFwd x0) := by
  intro x0 r h
  cases h
  rfl

theorem scrollBwd : ∀ x0, Statement (.scrollBwd x0) := by
  intro x0 r h
  cases h
  rfl

theorem view : Statement (.view) := by
  intro r h
  cases h
  rfl

theorem cancel : Statement (.cancel) := by
  intro r h
  cases h
  rfl

theorem busWrite : ∀ x0, Statement (.busWrite x0) := by
  intro x0 r h
  cases h
  rfl

theorem wait : ∀ x0, Statement (.wait x0) := by
  intro x0 r h
  cases h
  rfl

theorem nibble : ∀ x0 x1, Statement (.nibble x0 x1) := by
  intro x0 x1 r h
  cases h
  rfl

theorem winCreate : ∀ x0 x1 x2 x3 x4, Statement (.winCreate x0 x1 x2 x3 x4) := by
  intro x0 x1 x2 x3 x4 r h
  cases h
  rfl

theorem winView : Statement (.winView) := by
  intro r h
  cases h
  rfl

theorem winFwd : ∀ x0, Statement (.winFwd x0) := by
  intro x0 r h
  cases h
  rfl

theorem winBwd : ∀ x0, Statement (.winBwd x0) := by
  intro x0 r h
  cases h
  rfl

theorem renderLine : ∀ x0 x1, Statement (.renderLine x0 x1) := by
  intro x0 x1 r h
  cases h
  rfl

theorem rotStep : Statement (.rotStep) := by
  intro r h
  cases h
  rfl

theorem busByte : ∀ x0 x1 x2 x3 x4, Statement (.busByte x0 x1 x2 x3 x4) := by
  intro x0 x1 x2 x3 x4 r h
  cases h

theorem nibbleEnSet : ∀ x0 x1, Statement (.nibbleEnSet x0 x1) := by
  intro x0 x1 r h
  cases h

theorem nibbleEnClear : ∀ x0 x1, Statement (.nibbleEnClear x0 x1) := by
  intro x0 x1 r h
  cases h

theorem nibblePrewrite : ∀ x0 x1, Statement (.nibblePrewrite x0 x1) := by
  intro x0 x1 r h
  cases h

theorem commandFrame : ∀ x0 x1 x2, Statement (.commandFrame x0 x1 x2) := by
  intro x0 x1 x2 r h
  cases h

theorem backlightOn : Statement (.backlightOn) := by
  intro r h
  cases h

theorem backlightOff : Statement (.backlightOff) := by
  intro r h
  cases h

theorem wake : Statement (.wake) := by
  intro r h
  cases h

theorem set4bit : Statement (.set4bit) := by
  intro r h
  cases h

theorem functionSet : ∀ x0, Statement (.functionSet x0) := by
  intro x0 r h
  cases h

theorem displayOn : Statement (.displayOn) := by
  intro r h
  cases h

theorem clearDisplay : Statement (.clearDisplay) := by
  intro r h
  cases h

theorem entryModeLeft : Statement (.entryModeLeft) := by
  intro r h
  cases h

theorem returnHome : Statement (.returnHome) := by
  intro r h
  cases h

theorem setCgram : ∀ x0, Statement (.setCgram x0) := by
  intro x0 r h
  cases h

theorem setDdram : ∀ x0, Statement (.setDdram x0) := by
  intro x0 r h
  cases h

theorem data : ∀ x0, Statement (.data x0) := by
  intro x0 r h
  cases h

end Sys2Proof.Laws.F
end

