-- ==== Sys2Proof/Laws/Refusals.lean ====
section
/-! SUPPORT. What the relation `State.mayStep` of 60_exceptions R278 says of runs. -/

namespace Sys2Proof.Machine

/-- Where no request is refused the relation is the step. -/
theorem mayStep_iff {s t : State} (h : ¬ s.refusesNow) : s.mayStep t ↔ step s = .next t := by
  simp [State.mayStep, h]

theorem mayStep_of_refusesNow {s : State} (h : s.refusesNow) (t : State) : s.mayStep t := .inr h

/-- After a refused request every state may follow. -/
theorem MayRun.of_refusesNow {s u : State} (h : s.refusesNow) : MayRun s u :=
  .cons (mayStep_of_refusesNow h u) (.refl u)

end Sys2Proof.Machine
end

