-- ==== Sys2Proof/Laws/Shared.lean ====
section
/-! SUPPORT. The invariant of what any number of requesters share, over the moves of one requester and the change of turns. -/

namespace Sys2Proof.Machine

/-- CFG holding a value takes nothing from a requester. -/
theorem regsOk_mono {c d : Bool} {m : Mode} {q : Option Seq} (h : regsOk c m q) (hcd : c = true → d = true) : regsOk d m q := by
  cases q with
  | none => exact h.imp id fun ⟨a, b⟩ => ⟨a, hcd b⟩
  | some q =>
    obtain ⟨h1, h2, h3, h4⟩ := h
    exact ⟨h1, h2, h3, h4.imp (fun ⟨a, b⟩ => ⟨hcd a, b⟩) id⟩

/-- An ended INIT moves the other requesters' modes only between legal ones. -/
theorem regsOk_afterInit {r : Requester} (ok : Bool) (h : regsOk true r.mode r.seq) :
    regsOk true (r.afterInit ok).mode (r.afterInit ok).seq := by
  obtain ⟨id, mode, seq, st, po⟩ := r
  cases ok <;> cases mode <;> cases seq <;> simp_all [Requester.afterInit, regsOk] <;>
    (rcases h.2.2 with h' | h' <;> simp_all)

/-- A move of the requester in place: what it must leave as it was, and what it must make true. -/
theorem State.Shared.of {s t : State} (h : s.Shared) (hcur : t.cur = s.cur) (hcfg : s.cfg.isSome = true → t.cfg.isSome = true)
    (hpk : t.parked = s.parked ∨ ∃ ok, t.cfg.isSome = true ∧ t.parked = s.parked.map (Requester.afterInit ok))
    (mine : regsOk t.cfg.isSome t.mode t.seq)
    (hrot : t.rot.isSome = true ↔ (t.mode = .rotating ∨ s.othersRotate = true))
    (hcan : t.cancel = true → (t.mode = .rotating ∨ s.othersRotate = true)) (htx : t.lock = none → t.tx = none) : t.Shared := by
  have ho : t.othersRotate = s.othersRotate := by
    rcases hpk with e | ⟨ok, -, e⟩
    · exact State.othersRotate_congr e
    · simp [State.othersRotate, e, List.any_map, Function.comp_def]
  have hids : t.parked.map (fun r => r.id) = s.parked.map (fun r => r.id) := by
    rcases hpk with e | ⟨ok, -, e⟩
    · rw [e]
    · rw [e, List.map_map]
      congr 1
      funext r
      simp only [Function.comp, Requester.afterInit]
      split <;> split <;> rfl
  refine ⟨by rw [hcur, hids]; exact h.ids, mine, ?_, by rw [ho]; exact hrot, by rw [ho]; exact hcan, htx⟩
  rcases hpk with e | ⟨ok, hc, e⟩
  · rw [e]; exact fun r hr => regsOk_mono (h.others r hr) hcfg
  · rw [e]
    intro r hr
    obtain ⟨r', hr', rfl⟩ := List.mem_map.mp hr
    rw [hc]
    exact regsOk_afterInit ok (regsOk_mono (h.others r' hr') fun _ => rfl)

/-- Closing an operation. -/
theorem State.Shared.ends {s t : State} (hcur : t.cur = s.cur) (h : s.Shared) (hc : s.cfg.isSome = true)
    (hcfg : t.cfg = s.cfg) (hseq : t.seq = none) (hmode : t.mode = .uninit ∨ t.mode = .idle)
    (hpk : t.parked = s.parked ∨ ∃ ok, t.parked = s.parked.map (Requester.afterInit ok))
    (hrot : t.rot = if s.mode = .rotating ∧ s.othersRotate = false then none else s.rot)
    (hcan : t.cancel = if s.mode = .rotating then false else s.cancel)
    (hlock : t.lock = if s.lock = some s.cur then none else s.lock)
    (htx : t.tx = if s.lock = some s.cur then none else s.tx) : t.Shared := by
  have hnr : t.mode ≠ .rotating := by rcases hmode with h | h <;> simp [h]
  refine State.Shared.of h hcur (by rw [hcfg]; exact id) (hpk.imp id fun ⟨ok, e⟩ => ⟨ok, by rw [hcfg]; exact hc, e⟩) ?_ ?_ ?_ ?_
  · simp only [hseq, regsOk, hcfg, hc]; rcases hmode with e | e <;> simp [e]
  · have := h.rot
    rw [hrot]
    by_cases hm : s.mode = .rotating <;> cases ho : s.othersRotate <;> simp_all
  · have := h.cancel
    rw [hcan]
    by_cases hm : s.mode = .rotating <;> simp_all
  · intro hl
    rw [htx]
    split
    · rfl
    · rw [hlock] at hl; simp_all [h.tx]

/-- `raise` ends the operation in progress. -/
theorem State.Shared.raised {s : State} {q : Seq} (h : s.Shared) (_hq : s.seq = some q) (hc : s.cfg.isSome = true) (e : ErrCode) : (s.raise e).Shared := by
  refine State.Shared.ends (by simp) h hc (by simp) (by simp) ?_ ?_ (by simp) (by simp) (by simp) (by simp)
  · by_cases hi : s.inInit <;> simp [hi]
  · by_cases hi : s.inInit
    · exact .inr ⟨false, by simp [hi]⟩
    · exact .inl (by simp [hi])

/-- `return` ends the operation in progress. -/
theorem State.Shared.finished {s : State} {q : Seq} (h : s.Shared) (_hq : s.seq = some q) (hc : s.cfg.isSome = true) (st : Status) (v : Value) : (s.finish st v).Shared := by
  refine State.Shared.ends (by simp) h hc (by simp) (by simp) (by simp) ?_ (by simp) (by simp) (by simp) (by simp)
  by_cases hi : s.inInit
  · exact .inr ⟨true, by simp [hi]⟩
  · exact .inl (by simp [hi])

/-- A move that goes on with the operation. -/
theorem State.Shared.goes_on {s t : State} {q q' : Seq} (hcur : t.cur = s.cur) (h : s.Shared) (hq : s.seq = some q) (hc : s.cfg.isSome = true) (hq' : t.seq = some q')
    (hop : q'.op = q.op) (hret : q'.ret = q.ret) (htodo : ∀ st ∈ q'.todo, st.clean s.mode = true)
    (hpk : t.parked = s.parked) (hmode : t.mode = s.mode) (hrot : t.rot.isSome = s.rot.isSome) (hcan : t.cancel = s.cancel)
    (hcfg : t.cfg = s.cfg) (htx : t.lock = none → t.tx = none) : t.Shared := by
  have hm := h.mine
  simp only [hq, regsOk] at hm
  refine State.Shared.of h hcur (by rw [hcfg]; exact id) (.inl hpk) ?_ (by rw [hrot, hmode]; exact h.rot) (by rw [hcan, hmode]; exact h.cancel) htx
  simp only [hq', regsOk, hmode, hop, hret, hcfg]
  exact ⟨hm.1, hm.2.1, hm.2.2.1, .inl ⟨hc, htodo⟩⟩

/-- Every move of a statement. -/
theorem OpMove.shared {s t : State} {q : Seq} (hm : OpMove s t) (h : s.Shared) (hq : s.seq = some q) (hc : s.cfg.isSome = true)
    (htodo : ∀ st ∈ q.todo, st.clean s.mode = true) : t.Shared := by
  have happ : ∀ l : List Stmt, (∀ st ∈ l, st.clean s.mode = true) → ∀ st ∈ l ++ q.todo, st.clean s.mode = true :=
    fun l hl st hst => by
      rcases List.mem_append.mp hst with h | h
      · exact hl st h
      · exact htodo st h
  cases hm with
  | pushed l hl => exact State.Shared.goes_on (by simp) h hq hc (q' := { q with todo := l ++ q.todo }) (by simp [hq]) rfl rfl (happ l hl) rfl rfl rfl rfl rfl h.tx
  | waited t => exact State.Shared.goes_on (by simp) h hq hc (q' := { q with pos := q.pos + 1 }) (by simp [hq]) rfl rfl htodo rfl rfl rfl rfl rfl h.tx
  | wrote c v hc' hv =>
    refine State.Shared.goes_on (by simp) h hq hc (q' := { q with pos := q.pos + 1, todo := .call (.wait Config.tSettle) :: q.todo })
      (by simp [hq]) rfl rfl (happ [.call (.wait Config.tSettle)] (by simp [Stmt.clean])) (by simp) (by simp) (by simp)
      (by simp) (by simp) ?_
    intro hl
    simpa using h.tx (by simpa using hl)
  | failed c v hc' hv =>
    have hI : (s.drawn.emit (.busWrite c.addr v .busError)).Shared :=
      State.Shared.goes_on (by simp) h hq hc (q' := { q with pos := q.pos + 1 }) (by simp [hq]) rfl rfl htodo (by simp) (by simp) (by simp) (by simp) (by simp)
        (fun hl => by simpa using h.tx (by simpa using hl))
    exact State.Shared.raised hI (q := { q with pos := q.pos + 1 }) (by simp [hq]) (by simpa using hc) _
  | raised e => exact State.Shared.raised h hq hc e
  | took tx l hl hlock htx =>
    exact State.Shared.goes_on (by simp) h hq hc (q' := { q with todo := l ++ q.todo }) (by simp [hq]) rfl rfl (happ l hl) rfl rfl rfl rfl rfl (fun hl => by simp at hl)
  | turned r r' l hl hm hr hb =>
    exact State.Shared.goes_on (by simp) h hq hc (q' := { q with todo := l ++ q.todo }) (by simp [hq]) rfl rfl (happ l hl) rfl rfl (by simp [hr]) rfl rfl h.tx

/-- A result returned changes nothing of it. -/
theorem State.Shared.report {s : State} (h : s.Shared) (r : Result) : (s.report r).Shared := ⟨h.ids, h.mine, h.others, h.rot, h.cancel, h.tx⟩

/-- A CANCEL latches ROT.cancel in ROTATING only. -/
theorem State.Shared.cancel_taken {s : State} (h : s.Shared) (p : List Arrival) : (({ s with port := p, cancel := if s.mode = .rotating then true else s.cancel } : State).report (.ok .done .none)).Shared := by
  refine ⟨h.ids, h.mine, h.others, h.rot, ?_, h.tx⟩
  intro hc
  simp only [State.report_cancel] at hc
  split at hc
  · left; assumption
  · exact h.cancel hc

/-- The next statement taken out of the list. -/
theorem State.Shared.setTodo {s : State} {q : Seq} {l : List Stmt} (h : s.Shared) (hq : s.seq = some q) (hc : s.cfg.isSome = true)
    (hl : ∀ st ∈ l, st.clean s.mode = true) : (s.setTodo l).Shared :=
  State.Shared.goes_on (by simp) h hq hc (q' := { q with todo := l }) (by simp [hq]) rfl rfl hl rfl rfl rfl rfl rfl h.tx

/-- INIT's calls are statements of a rule. -/
theorem init_clean : ∀ st ∈ initCalls, st.clean .busy = true := by decide

/-- Inside an operation there always is a step, and it keeps the invariant. -/
theorem State.Shared.stepCur_inOp {s : State} {q : Seq} (h : s.Shared) (hq : s.seq = some q) : ∃ t, stepCur s = .next t ∧ t.Shared := by
  have hm := h.mine
  simp only [hq, regsOk] at hm
  obtain ⟨h1, hret, h3, h4⟩ := hm
  rw [stepCur_some hq]
  cases hd : dueCancel s.trace.length s.port with
  | some rest => exact ⟨_, rfl, State.Shared.cancel_taken h rest⟩
  | none =>
    rcases h4 with ⟨hc, htodo⟩ | ⟨hi, c, hc⟩
    · have hrot : s.mode = .rotating → s.rot.isSome = true := fun hm => h.rot.mpr (.inl hm)
      have hS : ∀ rest, (∀ st ∈ rest, st.clean s.mode = true) → (s.setTodo rest).Shared := fun rest hr => State.Shared.setTodo h hq hc hr
      have hrest : ∀ rest : List Stmt, (s.setTodo rest).seq = some { q with todo := rest } := fun _ => by simp [hq]
      have go : ∀ rest t, (∀ st ∈ rest, st.clean s.mode = true) → OpMove (s.setTodo rest) t → t.Shared := fun rest t hr hm =>
        hm.shared (hS rest hr) (hrest rest) hc hr
      obtain ⟨c, hc'⟩ := Option.isSome_iff_exists.mp hc
      unfold runNext
      match ht : q.todo with
      | .call i :: rest =>
        obtain ⟨t, e1, e2⟩ := exec_move (i := i) (hrest rest) hc hrot h.tx (htodo _ (by simp [ht]))
        exact ⟨t, e1, go rest t (fun x hx => htodo x (by simp [ht, hx])) e2⟩
      | .release :: rest =>
        refine ⟨_, rfl, ?_⟩
        have hr : ∀ x ∈ rest, x.clean s.mode = true := fun x hx => htodo x (by simp [ht, hx])
        refine State.Shared.goes_on (by simp) (hS rest hr) (hrest rest) hc (q' := { q with todo := rest }) (by simp [hq]) rfl rfl hr (by simp) (by simp) (by simp) (by simp) (by simp) ?_
        intro hl
        by_cases hk : s.lock = some s.cur
        · simp [hk]
        · simpa [hk] using h.tx (by simpa [hk] using hl)
      | .configure c :: rest => simpa [Stmt.clean] using htodo (.configure c) (by simp [ht])
      | .functionSet :: rest =>
        obtain ⟨t, e1, e2⟩ := functionSetOp_move (s := s.setTodo rest) (hrest rest) hc'
        exact ⟨t, e1, go rest t (fun x hx => htodo x (by simp [ht, hx])) e2⟩
      | .rotWait :: rest => exact ⟨_, withCfg_some (s := s.setTodo rest) hc' _, go rest _ (fun x hx => htodo x (by simp [ht, hx])) (.waited _)⟩
      | .rotCount :: rest =>
        have hmr : s.mode = .rotating := by simpa [Stmt.clean] using htodo .rotCount (by simp [ht])
        obtain ⟨r, hr⟩ := Option.isSome_iff_exists.mp (hrot hmr)
        have e : rotCountOp (s.setTodo rest) = .next (({ s.setTodo rest with
            rot := some { r with elapsed := r.elapsed + c.rotInterval, iter := r.iter + 1 } } : State).push []) := by
          unfold rotCountOp
          rw [withRot_some (s := s.setTodo rest) hr, withCfg_some (s := s.setTodo rest) hc']
          simp [State.push, hq]
        exact ⟨_, e, go rest _ (fun x hx => htodo x (by simp [ht, hx])) (OpMove.turned r _ [] (by simp) hmr hr rfl)⟩
      | [] =>
        match hr : q.ret with
        | .done st v => exact ⟨_, rfl, State.Shared.finished h hq hc st v⟩
        | .rotate =>
          have hmr : s.mode = .rotating := hret.mp hr
          obtain ⟨r, hrr⟩ := Option.isSome_iff_exists.mp (hrot hmr)
          simp only [rotCheck, withRot_some hrr]
          split
          · exact ⟨_, rfl, State.Shared.finished h hq hc _ _⟩
          · exact ⟨_, rfl, (OpMove.pushed [.call .rotStep] (by simp [Stmt.clean, hmr])).shared h hq hc htodo⟩
    · unfold runNext
      rw [hc]
      simp only [execStmt]
      refine ⟨_, rfl, ?_⟩
      have hb := h3 hi
      have hnr : q.ret ≠ .rotate := fun e => by rw [hret.mp e] at hb; simp at hb
      cases hl : s.lock with
      | some r =>
        rw [configureOp_held (r := r) c (by simpa using hl)]
        refine State.Shared.of h (by simp) (by simp) (.inl rfl) ?_ (by simpa using h.rot) (by simpa using h.cancel) (by simpa using h.tx)
        simp [hq, regsOk, hb, hnr, hi]
      | none =>
        rw [configureOp_free c (by simpa using hl)]
        refine State.Shared.of h (by simp) (by simp) (.inl rfl) ?_ (by simpa using h.rot) (by simp) (by simpa using h.tx)
        simp only [State.push_cfg, State.push_mode, State.push_seq, State.setTodo_mode, State.setTodo_seq, hq, regsOk, hb, hi, Option.map_some]
        exact ⟨.inl trivial, by simp [hnr], fun _ => trivial, .inl ⟨rfl, by simpa using init_clean⟩⟩


/-- An operation that starts. -/
theorem State.Shared.starts {s t : State} (hcur : t.cur = s.cur) (h : s.Shared) {op : Instr} {ret : Ret} {l : List Stmt} {pos : Nat}
    {val : Value} (hseq : t.seq = some { op := op, pos := pos, todo := l, ret := ret, val := val })
    (hmode : (t.mode = .busy ∧ ret ≠ .rotate ∧ t.rot.isSome = s.rot.isSome) ∨ (t.mode = .rotating ∧ ret = .rotate ∧ t.rot.isSome = true ∧ isInitOp op = false))
    (hnr : s.mode ≠ .rotating)
    (hl : ∀ x ∈ l, x.clean t.mode = true) (hpk : t.parked = s.parked) (hcan : t.cancel = s.cancel ∨ t.cancel = false)
    (hcfg : t.cfg.isSome = true) (htx : t.lock = none → t.tx = none) : t.Shared := by
  refine State.Shared.of h hcur (fun _ => hcfg) (.inl hpk) ?_ ?_ ?_ htx
  · simp only [hseq, regsOk]
    rcases hmode with ⟨hm, hr, -⟩ | ⟨hm, hr, -, hi⟩
    · exact ⟨.inl hm, by simp [hm, hr], fun _ => hm, .inl ⟨hcfg, hl⟩⟩
    · exact ⟨.inr hm, by simp [hm, hr], fun hi' => by simp [hi] at hi', .inl ⟨hcfg, hl⟩⟩
  · have := h.rot
    rcases hmode with ⟨hm, -, hr⟩ | ⟨hm, -, hr, -⟩
    · simp_all
    · simp [hm, hr]
  · rcases hcan with e | e
    · intro hc
      have := h.cancel (e ▸ hc)
      right; simpa [hnr] using this
    · simp [e]

/-- An operation that ends at its first check. -/
theorem State.Shared.raised_start {s : State} (h : s.Shared) (w : Option Window) (op : Instr) (ret : Ret) (hr : ret ≠ .rotate) (e : ErrCode) (hm : s.mode = .idle) (hc : s.cfg.isSome = true) :
    ((({ s with win := w } : State).startOp op ret).raise e).Shared := by
  have hI : (({ s with win := w } : State).startOp op ret).Shared :=
    State.Shared.starts (by simp) h (op := op) (ret := ret) (l := []) (pos := 0) (val := .none) rfl (.inl ⟨rfl, hr, rfl⟩) (by simp [hm]) (by simp) rfl (.inl rfl) hc h.tx
  exact State.Shared.raised hI (q := { op := op, pos := 0, todo := [], ret := ret, val := .none }) rfl hc e

/-- An operation that starts with a list of calls. -/
theorem State.Shared.pushed_start {s : State} (h : s.Shared) (w : Option Window) (op : Instr) (st : Status) (v : Value) (l : List Stmt) (hm : s.mode = .idle) (hc : s.cfg.isSome = true) (hl : ∀ x ∈ l, x.clean .busy = true) :
    ((({ s with win := w } : State).startOp op (.done st v)).push l).Shared :=
  State.Shared.starts (by simp) h (op := op) (ret := .done st v) (l := l) (pos := 0) (val := .none) (by simp) (.inl ⟨rfl, by simp, rfl⟩) (by simp [hm]) hl rfl (.inl rfl) hc h.tx

/-- Closing an operation that has just started. -/
theorem State.Shared.refused_start {s : State} (h : s.Shared) (hm : s.mode = .idle) (hc : s.cfg.isSome = true) (w : Option Window) (op : Instr) (st : Status) (v : Value)
    (r : Reason) : ((({ s with win := w } : State).startOp op (.done st v)).refuse r).Shared := by
  have hI : (({ s with win := w } : State).startOp op (.done st v)).Shared :=
    State.Shared.starts (by simp) h (op := op) (ret := .done st v) (l := []) (pos := 0) (val := .none) rfl (.inl ⟨rfl, by simp, rfl⟩) (by simp [hm]) (by simp) rfl (.inl rfl) hc h.tx
  have e : (({ s with win := w } : State).startOp op (.done st v)).refuse r = ((({ s with win := w } : State).startOp op (.done st v)).closeOp .idle).report (.refused r) := rfl
  rw [e]
  exact State.Shared.ends (by simp) hI hc (by simp) (by simp) (by simp) (.inl (by simp)) (by simp) (by simp) (by simp) (by simp)

/-- A raw string or a line written by an operation that starts. -/
theorem State.Shared.raw_start {s : State} (h : s.Shared) (hm : s.mode = .idle) (hc : s.cfg.isSome = true) (w : Option Window) (op : Instr) (st : Status) (v : Value)
    (str : Str) (line pos : Nat) : ∃ t, writeRawBody str line pos (({ s with win := w } : State).startOp op (.done st v)) = .next t ∧ t.Shared := by
  obtain ⟨c, hc'⟩ := Option.isSome_iff_exists.mp hc
  unfold writeRawBody
  rw [withCfg_some (c := c) (by simpa [State.startOp] using hc')]
  cases hk : cursorCheck c.lines line pos with
  | raise e => exact ⟨_, rfl, State.Shared.raised_start h w op _ (by simp) e hm hc⟩
  | refuse r => exact ⟨_, rfl, State.Shared.refused_start h hm hc w op st v r⟩
  | pass a => exact ⟨_, rfl, State.Shared.pushed_start h w op st v _ hm hc (raw_clean str _ hk)⟩

/-- A scroll operation that starts. -/
theorem State.Shared.moved_start {s : State} (h : s.Shared) (hm : s.mode = .idle) (hc : s.cfg.isSome = true) (w : Window) (op : Instr) : ∃ t, renderMoved op w s = .next t ∧ t.Shared := by
  obtain ⟨c, hc'⟩ := Option.isSome_iff_exists.mp hc
  unfold renderMoved renderBody
  rw [withCfg_some (c := c) (by simpa [State.startOp] using hc')]
  exact State.Shared.raw_start h hm hc (some w) op _ _ _ _ _

/-- Every request taken has a next state, and keeps the invariant. -/
theorem State.Shared.exec_host {s : State} (h : s.Shared) (hq : s.seq = none) (i : Instr) : ∃ t, exec i s = .next t ∧ t.Shared := by
  have hmode : s.mode = .uninit ∨ (s.mode = .idle ∧ s.cfg.isSome = true) := by simpa [hq, regsOk] using h.mine
  have hno : ∀ k, ∃ t, inOp s k = .next t ∧ t.Shared := fun k => ⟨_, inOp_none hq k, State.Shared.report h _⟩
  have hrep : ∀ r, ∃ t, Host.Outcome.next (s.refuse r) = (.next t : Outc) ∧ t.Shared := fun r =>
    ⟨_, rfl, by rw [State.refuse_idle hq]; exact State.Shared.report h _⟩
  have hin : ∀ k : Outc, (s.mode = .idle → s.cfg.isSome = true → ∃ t, k = .next t ∧ t.Shared) → ∃ t, whenInit s k = .next t ∧ t.Shared := by
    intro k hk
    rcases hmode with hm | ⟨hm, hc⟩
    · rw [whenInit_uninit hm]; exact hrep _
    · rw [whenInit_init (by simp [hm])]
      exact hk hm hc
  have hself : ({ s with win := s.win } : State) = s := rfl
  cases i <;> simp only [exec]
  case writeCmd b m =>
    simp only [execWriteCmd, hq]
    refine hin _ fun hm hc => ⟨_, rfl, ?_⟩
    have hI := State.Shared.pushed_start h s.win (.writeCmd b m) .done .none [] hm hc (by simp)
    rw [hself] at hI
    have := (enterFrame_move b m (s.startOp (.writeCmd b m) (.done .done .none))).shared (q := { op := .writeCmd b m, pos := 0, todo := [], ret := .done .done .none, val := .none }) (by simpa [State.push, State.startOp] using hI) rfl hc (by simp)
    exact this
  case init lines n a b e iv =>
    unfold execInit
    rw [heldWhenBusy_idle _ hq]
    split
    · refine ⟨_, rfl, ?_⟩
      have hnr : s.mode ≠ .rotating := by rcases hmode with h | h <;> simp [h]
      cases hl : s.lock with
      | some r =>
        rw [configureOp_held (r := r) _ (by simpa [State.startOp] using hl)]
        refine State.Shared.of h (by simp) (by simp) (.inl rfl) ?_ ?_ ?_ (by simpa using h.tx)
        · simp [regsOk, isInitOp, State.push, State.startOp]
        · simpa [hnr] using h.rot
        · simpa [hnr] using h.cancel
      | none =>
        rw [configureOp_free _ (by simpa [State.startOp] using hl)]
        exact State.Shared.starts (by simp) h (op := .init lines n a b e iv) (ret := .done .initialized .none) (l := initCalls) (pos := 0) (val := .none) (by simp) (.inl ⟨rfl, by simp, rfl⟩) hnr init_clean rfl (.inr rfl) rfl h.tx
    · exact hrep _
  case clear =>
    unfold execClear
    rw [heldWhenBusy_idle _ hq]
    exact hin _ fun hm hc => ⟨_, rfl, State.Shared.pushed_start h s.win _ _ _ _ hm hc (by simp [Stmt.clean])⟩
  case backlight on =>
    simp only [execBacklight, hq]
    refine hin _ fun hm hc => ⟨_, rfl, ?_⟩
    have hI := State.Shared.pushed_start h s.win (.backlight on) .done .none [] hm hc (by simp)
    rw [hself] at hI
    exact (enterBacklight_move (s := s.startOp (.backlight on) (.done .done .none)) h.tx on).shared (q := { op := .backlight on, pos := 0, todo := [], ret := .done .done .none, val := .none }) (by simpa [State.push, State.startOp] using hI) rfl hc (by simp)
  case loadChars gs =>
    unfold execLoadChars
    rw [heldWhenBusy_idle _ hq]
    refine hin _ fun hm hc => ?_
    split
    · exact hrep _
    · split
      · exact hrep _
      · refine ⟨_, rfl, State.Shared.pushed_start h s.win _ _ _ _ hm hc ?_⟩
        intro st hst
        rcases List.mem_cons.mp hst with rfl | hst
        · rfl
        · exact data_clean _ _ st hst
  case posCursor line col =>
    simp only [execPosCursor, hq]
    refine hin _ fun hm hc => ?_
    obtain ⟨c, hc'⟩ := Option.isSome_iff_exists.mp hc
    rw [withCfg_some hc']
    cases hk : cursorCheck c.lines line col with
    | raise e => exact ⟨_, rfl, State.Shared.raised_start h s.win _ _ (by simp) e hm hc⟩
    | refuse r => exact hrep _
    | pass a => exact ⟨_, rfl, State.Shared.pushed_start h s.win _ _ _ _ hm hc (by simp [Stmt.clean])⟩
  case writeRaw str line pos =>
    simp only [execWriteRaw, hq]
    exact hin _ fun hm hc => State.Shared.raw_start h hm hc s.win _ _ _ _ _ _
  case pad str n ch al =>
    unfold execPad
    rw [heldWhenBusy_idle _ hq]
    refine hin _ fun hm hc => ?_
    split <;> exact ⟨_, rfl, State.Shared.report h _⟩
  case display str line al ov bu =>
    unfold execDisplay
    simp only
    rw [heldWhenBusy_idle _ hq]
    refine hin _ fun hm hc => ?_
    obtain ⟨c, hc'⟩ := Option.isSome_iff_exists.mp hc
    rw [withCfg_some hc']
    split
    · exact ⟨_, rfl, State.Shared.pushed_start h none _ _ _ _ hm hc (by simp [Stmt.clean])⟩
    · split
      · unfold staticPath
        exact State.Shared.raw_start h hm hc none _ _ _ _ _ _
      · cases ov with
        | scroll => exact State.Shared.moved_start h hm hc _ _
        | rotate =>
          simp only [overflowPath, rotatePath]
          split
          · exact hrep _
          · exact ⟨_, rfl, State.Shared.starts (by simp) h (op := .display str line al .rotate bu) (ret := .rotate) (l := [.call .rotStep]) (pos := 0) (val := .none) rfl (.inr ⟨rfl, rfl, rfl, rfl⟩) (by simp [hm]) (by simp [Stmt.clean]) rfl (.inr rfl) hc h.tx⟩
        | unknown v => exact ⟨_, rfl, State.Shared.report h _⟩
  case scrollFwd n =>
    unfold execScrollFwd
    rw [heldWhenBusy_idle _ hq]
    refine hin _ fun hm hc => ?_
    split
    · exact hrep _
    · split
      · exact ⟨_, rfl, State.Shared.raised_start h s.win _ _ (by simp) _ hm hc⟩
      · exact State.Shared.moved_start h hm hc _ _
  case scrollBwd n =>
    unfold execScrollBwd
    rw [heldWhenBusy_idle _ hq]
    refine hin _ fun hm hc => ?_
    split
    · exact hrep _
    · split
      · exact ⟨_, rfl, State.Shared.raised_start h s.win _ _ (by simp) _ hm hc⟩
      · exact State.Shared.moved_start h hm hc _ _
  case view =>
    unfold execView
    rw [heldWhenBusy_idle _ hq]
    refine hin _ fun hm hc => ?_
    split
    · exact hrep _
    · exact ⟨_, rfl, State.Shared.report h _⟩
  case cancel => exact ⟨_, rfl, State.Shared.cancel_taken h s.port⟩
  all_goals exact hno _

/-- A request taken out of the port. -/
theorem State.Shared.setPort {s : State} (h : s.Shared) (l : List Arrival) : ({ s with port := l } : State).Shared := ⟨h.ids, h.mine, h.others, h.rot, h.cancel, h.tx⟩

/-- Another requester comes to move. -/
theorem State.Shared.takeTurn {s : State} (h : s.Shared) : s.takeTurn.Shared := by
  unfold State.takeTurn
  split
  · exact h
  · rename_i k rest ht
    unfold State.switchTo
    split
    · exact ⟨h.ids, h.mine, h.others, h.rot, h.cancel, h.tx⟩
    · rename_i r hr
      have hmem : r ∈ s.parked := List.mem_of_find?_eq_some hr
      have hid : r.id = k := by simpa using List.find?_some hr
      refine ⟨?_, h.others r hmem, ?_, ?_, ?_, h.tx⟩
      · have hn := h.ids
        simp only [List.map_cons, State.park, List.nodup_cons] at hn ⊢
        have hk : ∀ x ∈ s.parked.filter (fun r => r.id != k), x ∈ s.parked ∧ x.id ≠ k := fun x hx => by simpa using hx
        refine ⟨?_, ?_, ?_⟩
        · rw [List.mem_cons, not_or]
          refine ⟨fun e => hn.1 (e ▸ List.mem_map_of_mem hmem), fun hx => ?_⟩
          obtain ⟨x, hx, e⟩ := List.mem_map.mp hx
          exact (hk x hx).2 (e.trans hid)
        · intro hx
          obtain ⟨x, hx, e⟩ := List.mem_map.mp hx
          exact hn.1 (e ▸ List.mem_map_of_mem (hk x hx).1)
        · exact hn.2.sublist (List.Sublist.map _ List.filter_sublist)
      · intro x hx
        rcases List.mem_cons.mp hx with rfl | hx
        · exact h.mine
        · exact h.others x (List.mem_filter.mp hx).1
      all_goals
        have key : (s.mode = .rotating ∨ s.othersRotate = true) ↔ (r.mode = .rotating ∨ (s.park :: s.parked.filter (fun r => r.id != k)).any (fun r => decide (r.mode = .rotating)) = true) := by
          have huniq : ∀ x ∈ s.parked, x.id = k → x = r := fun x hx e =>
            List.inj_on_of_nodup_map (List.nodup_cons.mp h.ids).2 hx hmem (e.trans hid.symm)
          simp only [State.othersRotate, List.any_cons, Bool.or_eq_true, List.any_eq_true, decide_eq_true_eq, State.park]
          constructor
          · rintro (e | ⟨x, hx, e⟩)
            · exact .inr (.inl e)
            · by_cases hk : x.id = k
              · left; rw [← huniq x hx hk]; exact e
              · exact .inr (.inr ⟨x, by simpa using ⟨hx, hk⟩, e⟩)
          · rintro (e | e | ⟨x, hx, e⟩)
            · exact .inr ⟨r, hmem, e⟩
            · exact .inl e
            · exact .inr ⟨x, (List.mem_filter.mp hx).1, e⟩
      · exact h.rot.trans key
      · exact fun hc => key.mp (h.cancel hc)

end Sys2Proof.Machine
end

