-- ==== Sys2Proof/Laws/Windows.lean ====
section
/-! SUPPORT. Laws of the scroll window: its view, and its moves as offset and fresh width. -/

namespace Sys2Proof.Machine

theorem slice_add (s : Str) (i k : Nat) : slice s i (i + k) = (s.drop i).take k := by
  simp [slice, List.drop_take]

/-- The view by cases on the markers (43_scroll_window R212). -/
theorem Window.view_eq (w : Window) : w.view = (if 0 < w.ws then w.beginM else []) ++ (w.buf.drop w.ws).take w.wl
    ++ (if w.ws + w.wl < w.buf.length then w.endM else []) := by
  simp [Window.view, Window.leftVisible, Window.rightVisible, slice_add]

theorem Window.recompute_moved (w : Window) (k : Nat) : ({ w with ws := k } : Window).recompute = w.movedTo k := by
  unfold Window.recompute Window.movedTo Window.beginWidth
  simp only
  split <;> split <;> simp_all

theorem Window.recompute_self {w : Window} (h : w.recompute = w) : w.movedTo w.ws = w := by
  rw [← Window.recompute_moved]
  exact h

/-- WIN_FWD as a move (43_scroll_window R213). -/
theorem Window.fwd_eq (w : Window) (n : Nat) :
    w.fwd n = if w.buf.length < w.ws + w.wl + n then none else some (w.movedTo (w.ws + n)) := by
  simp [Window.fwd, Window.recompute_moved]

/-- WIN_BWD as a move (43_scroll_window R214). -/
theorem Window.bwd_eq (w : Window) (n : Nat) : w.bwd n = if w.ws < n then none else some (w.movedTo (w.ws - n)) := by
  simp [Window.bwd, Window.recompute_moved]

/-- What a move leaves (43_scroll_window R211, R213). -/
theorem Window.movedTo_frame (w : Window) (k : Nat) : (w.movedTo k).ws = k ∧ (w.movedTo k).buf = w.buf
    ∧ (w.movedTo k).line = w.line ∧ (w.movedTo k).beginM = w.beginM ∧ (w.movedTo k).endM = w.endM
    ∧ (w.movedTo k).lcdLen = w.lcdLen := ⟨rfl, rfl, rfl, rfl, rfl, rfl⟩

/-- The width at the buffer's start (43_scroll_window R210, R211). -/
theorem Window.movedTo_zero_wl {w : Window} (h : w.lcdLen < w.buf.length) :
    (w.movedTo 0).wl = w.lcdLen - w.endM.length := by
  simp [Window.movedTo, h]

/-- The width away from it (43_scroll_window R211). -/
theorem Window.movedTo_pos_wl {w : Window} {k : Nat} (h : 0 < k) :
    (w.movedTo k).wl = if k + (w.lcdLen - w.beginM.length) < w.buf.length
      then w.lcdLen - w.beginM.length - w.endM.length else w.lcdLen - w.beginM.length := by
  simp [Window.movedTo, h]

/-- The named states by offset and right edge (43_scroll_window R219). -/
theorem Window.phase_start {w : Window} : w.phase = .start ↔ w.ws = 0 := by
  unfold Window.phase
  split_ifs <;> simp_all

theorem Window.phase_middle {w : Window} : w.phase = .middle ↔ 0 < w.ws ∧ w.ws + w.wl < w.buf.length := by
  unfold Window.phase Window.rightVisible
  split_ifs <;> simp_all
  omega

theorem Window.phase_finish {w : Window} : w.phase = .finish ↔ 0 < w.ws ∧ w.ws + w.wl = w.buf.length := by
  unfold Window.phase Window.rightVisible
  split_ifs <;> simp_all <;> omega

theorem Window.phase_overshoot {w : Window} : w.phase = .overshoot ↔ 0 < w.ws ∧ w.buf.length < w.ws + w.wl := by
  unfold Window.phase Window.rightVisible
  split_ifs <;> simp_all <;> omega

/-- A legal window, field by field (43_scroll_window R210, R215). -/
theorem Window.legal_iff (w : Window) : w.legal = true ↔
    w.lcdLen < w.buf.length ∧ 1 ≤ w.lcdLen ∧ w.beginM.length + w.endM.length + 1 ≤ w.lcdLen ∧ w.ws ≤ w.buf.length
      ∧ w.movedTo w.ws = w := by
  rw [← Window.recompute_moved]
  simp [Window.legal, winCreatePre]
  tauto

end Sys2Proof.Machine
end

