-- ==== Sys2Proof/Machine/Asm.lean ====
section
/-! DEFINITION. The assembler syntax of 30_encoding R119: one operation per line, its mnemonic, then operands separated
by commas; a line to a request (tag and operand record). Details R119 leaves open: log 22. -/

namespace Sys2Proof.Machine.Asm

/-- The lexical elements of a line. -/
inductive Tok where
  /-- A mnemonic or the name of an alignment or overflow policy. -/
  | word (w : List Char)
  | num (n : Nat)
  | str (s : Str)
  | comma
  | openB
  | closeB
  deriving DecidableEq, Repr

/-- Where the reader stands inside a line. -/
inductive Lex where
  | between
  /-- Inside a word or number, its characters in reverse. -/
  | word (rev : List Char)
  /-- Inside quotes, the bytes in reverse. -/
  | quoted (rev : Str)
  /-- After a backslash inside quotes. -/
  | escape (rev : Str)
  /-- After `\x` inside quotes, and after its first digit. -/
  | hex1 (rev : Str)
  | hex2 (rev : Str) (hi : Nat)
  deriving DecidableEq, Repr

def decDigit (c : Char) : Option Nat :=
  if 48 ≤ c.toNat ∧ c.toNat ≤ 57 then some (c.toNat - 48) else none

def hexDigit (c : Char) : Option Nat :=
  match decDigit c with
  | some d => some d
  | none =>
    if 65 ≤ c.toNat ∧ c.toNat ≤ 70 then some (c.toNat - 55)
    else if 97 ≤ c.toNat ∧ c.toNat ≤ 102 then some (c.toNat - 87) else none

/-- Digits, most significant first, in a base. -/
def digits (dig : Char → Option Nat) (base : Nat) : Nat → List Char → Option Nat
  | acc, [] => some acc
  | acc, c :: rest => (dig c).bind fun d => digits dig base (acc * base + d) rest

/-- "decimal or `0x` hexadecimal". -/
def number : List Char → Option Nat
  | '0' :: 'x' :: c :: rest => digits hexDigit 16 0 (c :: rest)
  | cs => digits decDigit 10 0 cs

/-- A finished word or number. -/
def wordTok (rev : List Char) : Option Tok :=
  let cs := rev.reverse
  match cs with
  | [] => none
  | c :: _ => if (decDigit c).isSome then (number cs).map .num else some (.word cs)

/-- A character of a word or number: a letter, a digit or `_`. -/
def wordChar (c : Char) : Bool :=
  (hexDigit c).isSome || (decide (65 ≤ c.toNat) && decide (c.toNat ≤ 90))
    || (decide (97 ≤ c.toNat) && decide (c.toNat ≤ 122)) || c == '_'

/-- A character met between elements: the element it is, if any, and the state after it. A carriage return is a blank (log
22). -/
def startChar (c : Char) : Option (List Tok × Lex) :=
  if c = ' ' ∨ c = '\t' ∨ c = '\r' then some ([], .between)
  else if c = ',' then some ([.comma], .between)
  else if c = '[' then some ([.openB], .between)
  else if c = ']' then some ([.closeB], .between)
  else if c = '"' then some ([], .quoted [])
  else if wordChar c then some ([], .word [c])
  else none

/-- One character. The digits of `\xHH` are of either case (log 22). -/
def lexChar : Lex → Char → Option (List Tok × Lex)
  | .between, c => startChar c
  | .word rev, c =>
    if wordChar c then some ([], .word (c :: rev))
    else (wordTok rev).bind fun t => (startChar c).map fun r => (t :: r.1, r.2)
  | .quoted rev, c =>
    if c = '"' then some ([.str rev.reverse], .between)
    else if c = '\\' then some ([], .escape rev)
    else if c.toNat < 128 then some ([], .quoted (BitVec.ofNat 8 c.toNat :: rev))
    else none
  | .escape rev, c =>
    if c = '"' then some ([], .quoted (0x22#8 :: rev))
    else if c = 'x' then some ([], .hex1 rev)
    else none
  | .hex1 rev, c => (hexDigit c).map fun d => ([], .hex2 rev d)
  | .hex2 rev hi, c => (hexDigit c).map fun d => ([], .quoted (BitVec.ofNat 8 (16 * hi + d) :: rev))

/-- The elements of a line. -/
def lex : Lex → List Char → Option (List Tok)
  | .between, [] => some []
  | .word rev, [] => (wordTok rev).map fun t => [t]
  | _, [] => none
  | st, c :: rest => (lexChar st c).bind fun r => (lex r.2 rest).map fun ts => r.1 ++ ts

/-- An operand as written. -/
inductive Arg where
  | val (o : Operand)
  /-- `left`, `center`, `right`, `scroll`, `rotate`. -/
  | name (w : List Char)
  deriving DecidableEq, Repr

/-- Where the reader stands inside an operand list; lists are kept in reverse. -/
inductive Parse where
  | wantFirst
  | want (acc : List Arg)
  | got (acc : List Arg)
  /-- Inside a bracketed list of byte lists: expecting a byte list, or after one. -/
  | outer (acc : List Arg) (gs : List Str) (after : Bool)
  /-- Inside a byte list: expecting a byte, or after one. -/
  | inner (acc : List Arg) (gs : List Str) (g : Str) (after : Bool)
  deriving DecidableEq, Repr

/-- The operands `acc` read so far, and one more. -/
def operand (acc : List Arg) : Tok → Option Parse
  | .num n => some (.got (.val (.num n) :: acc))
  | .str s => some (.got (.val (.str s) :: acc))
  | .word w => some (.got (.name w :: acc))
  | .openB => some (.outer acc [] false)
  | .comma | .closeB => none

def parseTok : Parse → Tok → Option Parse
  | .wantFirst, t => operand [] t
  | .want acc, t => operand acc t
  | .got acc, .comma => some (.want acc)
  | .got _, _ => none
  | .outer acc gs false, .openB => some (.inner acc gs [] false)
  | .outer acc [] false, .closeB => some (.got (.val (.strs []) :: acc))
  | .outer acc gs true, .comma => some (.outer acc gs false)
  | .outer acc gs true, .closeB => some (.got (.val (.strs gs.reverse) :: acc))
  | .outer _ _ _, _ => none
  | .inner acc gs g false, .num n => (byteOf n).map fun b => .inner acc gs (b :: g) true
  | .inner acc gs [] false, .closeB => some (.outer acc ([] :: gs) true)
  | .inner acc gs g true, .comma => some (.inner acc gs g false)
  | .inner acc gs g true, .closeB => some (.outer acc (g.reverse :: gs) true)
  | .inner _ _ _ _, _ => none

def parseArgs : Parse → List Tok → Option (List Arg)
  | .wantFirst, [] => some []
  | .got acc, [] => some acc.reverse
  | _, [] => none
  | p, t :: rest => (parseTok p t).bind fun p => parseArgs p rest

/-- The mnemonics of 30_encoding R113 and their tags. -/
def mnemonics : List (String × Op) :=
  [("WRITE_CMD", .writeCmd), ("INIT", .init), ("CLEAR", .clear), ("BACKLIGHT", .backlight),
   ("LOAD_CHARS", .loadChars), ("POS_CURSOR", .posCursor), ("WRITE_RAW", .writeRaw), ("PAD", .pad),
   ("DISPLAY", .display), ("SCROLL_FWD", .scrollFwd), ("SCROLL_BWD", .scrollBwd), ("VIEW", .view),
   ("CANCEL", .cancel)]
  ++ [("BUS_WRITE", .busWrite), ("WAIT", .wait), ("NIBBLE", .nibble), ("WIN_CREATE", .winCreate),
   ("WIN_VIEW", .winView), ("WIN_FWD", .winFwd), ("WIN_BWD", .winBwd), ("RENDER_LINE", .renderLine),
   ("ROT_STEP", .rotStep)]

def opOfMnemonic (w : List Char) : Option Op := (mnemonics.find? (fun m => m.1.toList == w)).map Prod.snd

/-- The tag of an operation (30_encoding R113). -/
def tagOf (o : Op) : Option Byte := (tagTable.find? (fun row => row.2 == o)).map Prod.fst

/-- "`align` is written `left`, `center` or `right`" (PAD's fourth operand, DISPLAY's third). -/
def alignName (w : List Char) : Option Nat :=
  if w = "left".toList then some 0 else if w = "center".toList then some 1 else if w = "right".toList then some 2 else none

/-- "`overflow` is written `scroll`, `rotate` or a number" (DISPLAY's fourth operand). -/
def overflowName (w : List Char) : Option Nat :=
  if w = "scroll".toList then some 0 else if w = "rotate".toList then some 1 else none

/-- A named operand stands only where its names mean something. -/
def resolve (o : Op) (idx : Nat) : Arg → Option Operand
  | .val v => some v
  | .name w =>
    if (o = .pad ∧ idx = 3) ∨ (o = .display ∧ idx = 2) then (alignName w).map .num
    else if o = .display ∧ idx = 3 then (overflowName w).map .num
    else none

def resolveAll (o : Op) : Nat → List Arg → Option (List Operand)
  | _, [] => some []
  | idx, a :: rest => (resolve o idx a).bind fun v => (resolveAll o (idx + 1) rest).map fun vs => v :: vs

/-- What a line is. -/
inductive Line where
  /-- A comment ("A line starting with `;`") or an empty line. -/
  | empty
  | request (r : Request)
  /-- Not of the form of R119. -/
  | bad
  deriving DecidableEq, Repr

def lineOf (o : Option Line) : Line :=
  match o with
  | some l => l
  | none => .bad

/-- One line of a program (30_encoding R119). -/
def assembleLine (cs : List Char) : Line :=
  match cs with
  | ';' :: _ => .empty
  | _ =>
    lineOf ((lex .between cs).bind fun ts =>
      match ts with
      | [] => some .empty
      | .word w :: rest =>
        (opOfMnemonic w).bind fun o => (tagOf o).bind fun tag => (parseArgs .wantFirst rest).bind fun args =>
          (resolveAll o 0 args).map fun vs => .request { tag := tag, args := vs }
      | _ => none)

/-- The lines of a text, each ended by a line feed (log 22). -/
def splitLines : List Char → List (List Char)
  | [] => [[]]
  | c :: rest =>
    if c = '\n' then [] :: splitLines rest
    else
      match splitLines rest with
      | [] => [[c]]
      | l :: ls => (c :: l) :: ls

/-- The requests of a program, in order; none when a line is not of the form of R119. -/
def assemble (text : List Char) : Option (List Request) :=
  (splitLines text).foldr
    (fun l acc => acc.bind fun rs =>
      match assembleLine l with
      | .empty => some rs
      | .request r => some (r :: rs)
      | .bad => none)
    (some [])

end Sys2Proof.Machine.Asm
end

