-- ==== Sys2Proof/Tests/Slice0.lean ====
section
/-! SUPPORT. The model's own tests: terms that WellFormed refuses, words written out from 30_encoding, one-step vectors of
95_test_vectors, and a witness for the hypotheses of every statement. -/

namespace Sys2Proof.Tests

open Sys2Proof.Machine

/-! ### WellFormed: for each check a term it refuses -/

theorem test_wf_unknown_policy_is_not_scroll : (Instr.display [] 1 .left (.unknown 0#8) 0).wf = false := by decide

theorem test_wf_unknown_policy_is_not_rotate : (Instr.display [] 1 .left (.unknown 1#8) 0).wf = false := by decide

theorem test_wf_nibble_low_bits : (Instr.nibble 0x41#8 .data).wf = false := by decide

theorem test_wf_create_short_buffer : (Instr.winCreate [1#8, 2#8] 2 1 [] []).wf = false := by decide

theorem test_wf_create_zero_width : (Instr.winCreate [1#8] 0 1 [] []).wf = false := by decide

theorem test_wf_create_wide_markers : (Instr.winCreate [1#8, 2#8, 3#8] 2 1 [0x3C#8] [0x3E#8]).wf = false := by decide

theorem test_wf_bus_byte_rw : (Instr.busByte 0#4 false false true false).wf = false := by decide

/-! ### Decoding: 30_encoding R113's tags, each with a full record -/

/-- A request decodes to an instruction. -/
def reads (tag : Byte) (args : List Operand) (i : Instr) : Bool :=
  decide (decode (.request { tag := tag, args := args }) = .ok i)

theorem test_decode_host_tags :
    reads 0x01#8 [.num 0x80, .num 0] (.writeCmd 0x80#8 .instruction)
      && reads 0x02#8 [.num 2, .num 16, .num 0x27, .str [0x3C#8], .str [0x3E#8], .num 7]
          (.init 2 16 0x27 [0x3C#8] [0x3E#8] 7)
      && reads 0x03#8 [] .clear && reads 0x04#8 [.num 1] (.backlight true)
      && reads 0x05#8 [.strs [[1#8]]] (.loadChars [[1#8]]) && reads 0x06#8 [.num 2, .num 5] (.posCursor 2 5)
      && reads 0x07#8 [.str [0x48#8], .num 1, .num 3] (.writeRaw [0x48#8] 1 3) = true := by decide

theorem test_decode_more_host_tags :
    reads 0x08#8 [.str [], .num 3, .str [0x2D#8], .num 3] (.pad [] 3 [0x2D#8] .leftDefault)
      && reads 0x09#8 [.str [], .num 9, .num 1, .num 7, .num 4] (.display [] 9 .center (.unknown 7#8) 4)
      && reads 0x0A#8 [.num 35] (.scrollFwd 35) && reads 0x0B#8 [.num 36] (.scrollBwd 36) && reads 0x0C#8 [] .view
      && reads 0x0D#8 [] .cancel = true := by decide

theorem test_decode_internal_tags :
    reads 0x81#8 [.num 8] (.busWrite 8#8) && reads 0x82#8 [.num 500] (.wait 500)
      && reads 0x83#8 [.num 0x40, .num 1] (.nibble 0x40#8 .data)
      && reads 0x84#8 [.str [1#8, 2#8], .num 1, .num 1, .str [], .str []] (.winCreate [1#8, 2#8] 1 1 [] [])
      && reads 0x85#8 [] .winView && reads 0x86#8 [.num 1] (.winFwd 1) && reads 0x87#8 [] (.winBwd 1)
      && reads 0x88#8 [.str [0x61#8], .num 1] (.renderLine [0x61#8] 1) && reads 0x89#8 [] .rotStep = true := by decide

/-- 30_encoding R101, R103, R106: bits DDDD BL EN RW RS. -/
theorem test_decode_bus_bytes :
    decode (.bus 0b01001101#8) = .ok (.nibbleEnSet 0x4#4 .data)
      ∧ decode (.bus 0b10001000#8) = .ok (.nibbleEnClear 0x8#4 .instruction)
      ∧ decode (.bus 0b01010101#8) = .ok (.busByte 0x5#4 false true false true)
      ∧ decode (.bus 0b00000000#8) = .ok .backlightOff ∧ decode (.bus 0b00001010#8) = .error .rwSet := by decide

/-- 30_encoding R103, R106: the two rows whose codes are of the form of NIBBLE_EN_CLEAR (log 20). -/
theorem test_shared_bus_codes :
    encode (.nibblePrewrite 0x4#4 .data) = .bus 0b01001001#8 ∧ encode .backlightOn = .bus 0b00001000#8
      ∧ decode (.bus 0b00001000#8) = .ok (.nibbleEnClear 0#4 .instruction) := by decide

/-- 30_encoding R107 to R111. -/
theorem test_decode_lcd_bytes :
    decode (.lcd .instruction 0x03#8) = .ok .wake ∧ decode (.lcd .instruction 0x0C#8) = .ok .displayOn
      ∧ decode (.lcd .instruction 0x01#8) = .ok .clearDisplay ∧ decode (.lcd .instruction 0x06#8) = .ok .entryModeLeft
      ∧ decode (.lcd .instruction 0x02#8) = .ok .returnHome ∧ encode .set4bit = .lcd .instruction 0x02#8
      ∧ decode (.lcd .instruction 0x20#8) = .ok (.functionSet false)
      ∧ decode (.lcd .instruction 0b01000101#8) = .ok (.setCgram 5#6)
      ∧ decode (.lcd .instruction 0b11001111#8) = .ok (.setDdram 0x4F#7)
      ∧ decode (.lcd .instruction 0x0F#8) = .error .notEmitted := by decide

/-- 30_encoding R104: `0xA5` in instruction mode is `AC A8 5C 58` (V-TX-7). -/
theorem test_decode_frame :
    decode (.frame 0xACA85C58#32) = .ok (.commandFrame 0xA#4 0x5#4 .instruction)
      ∧ decode (.frame 0xACA85C59#32) = .error .notAFrame := by decide

/-- Table words: a tag first, then an LCD command, then a bus byte (log 12). -/
theorem test_decode_table_words :
    decodeTableWord 8 0x0C = some .view ∧ decodeTableWord 8 0x28 = some (.functionSet true)
      ∧ decodeTableWord 8 0x4D = some (.setCgram 0x0D#6) ∧ decodeTableWord 8 0x1C = some (.nibbleEnSet 1#4 .instruction)
      ∧ decodeTableWord 8 0x100 = none ∧ decodeTableWord 16 0 = none := by decide

/-- 30_encoding R119's example and a custom glyph. -/
theorem test_assembler :
    Asm.assembleLine "DISPLAY \"Hello\", 1, left, scroll".toList
        = .request { tag := 0x09#8,
                     args := [.str [0x48#8, 0x65#8, 0x6C#8, 0x6C#8, 0x6F#8], .num 1, .num 0, .num 0] }
      ∧ Asm.assembleLine "LOAD_CHARS [[0x00,0x0A]]".toList
        = .request { tag := 0x05#8, args := [.strs [[0#8, 0x0A#8]]] }
      ∧ Asm.assembleLine "; INIT 2".toList = .empty := by decide

/-! ### Small states -/

/-- `S2` of 95_test_vectors. -/
def cfg2 : Cfg :=
  { lines := 2, lineLength := 16, addr := 0x27#7, beginM := [0x3C#8], endM := [0x3E#8], rotInterval := 1000 }

/-- An idle block, with the bus's coming answers. -/
def idle (c : Cfg) (bus : List BusAnswer) : State := { State.reset with mode := .idle, cfg := some c, bus := bus }

/-- `n` writes that answer ok. -/
def oks (n : Nat) : List BusAnswer := List.replicate n .ok

/-- `n` writes that answer ok, and one that fails. -/
def failing (n : Nat) : List BusAnswer := List.replicate n .ok ++ [.busError]

def clearSeq : Seq := { op := .clear, pos := 0, todo := [], ret := .done .done .none, val := .none }

/-- CLEAR in progress between two frames. -/
def between (bus : List BusAnswer) : State := { idle cfg2 bus with mode := .busy, seq := some clearSeq }

/-- CLEAR in progress inside a frame. -/
def inFrame (bus : List BusAnswer) : State :=
  { between bus with lock := some 0, tx := some { byte := 0x48#8, mode := .data, phase := 0 } }

/-- `"ABCDEFGHIJKLMNOPQRST"` of 95_test_vectors. -/
def letters : Str := (List.range 20).map (fun k => BitVec.ofNat 8 (0x41 + k))

def win20 (ws wl : Nat) : Window :=
  { buf := letters, ws := ws, wl := wl, line := 1, beginM := [0x3C#8], endM := [0x3E#8], lcdLen := 16 }

/-- `"Rotating text demo"` of 95_test_vectors. -/
def rotS : Str :=
  [0x52#8, 0x6F#8, 0x74#8, 0x61#8, 0x74#8, 0x69#8, 0x6E#8, 0x67#8, 0x20#8, 0x74#8, 0x65#8, 0x78#8, 0x74#8, 0x20#8, 0x64#8,
   0x65#8, 0x6D#8, 0x6F#8]

def rot0 (budget iter line : Nat) : Rot :=
  { s := rotS ++ [0x20#8, 0x20#8], line := line, iter := iter, elapsed := iter * 1000, budget := budget }

def rotSeq (todo : List Stmt) : Seq :=
  { op := .display rotS 2 .left .rotate 0, pos := 0, todo := todo, ret := .rotate, val := .none }

/-- A rotating DISPLAY. -/
def rotating (r : Rot) (todo : List Stmt) (cancel : Bool) (bus : List BusAnswer) : State :=
  { idle cfg2 bus with mode := .rotating, rot := some r, cancel := cancel, seq := some (rotSeq todo) }

/-- Requesters 0 and 1 both rotate: 0's rotate in place with ROT `r`, 1's with its next ROT_STEP to run. -/
def bothRotate (r : Rot) (todo : List Stmt) (cancel : Bool) (bus : List BusAnswer) (turns : List Nat) : State :=
  { rotating r todo cancel bus with
    turns := turns
    parked := [{ id := 1, mode := .rotating, seq := some (rotSeq [.call .rotStep]), status := none, port := [] }] }

/-- What a step or an exec answers, where it is a next state. -/
def after (o : Outc) : Option State :=
  match o with
  | .next t => some t
  | .fault _ => none
  | .refused _ => none

/-- The events a next state has. -/
def traceOf (o : Outc) : Option (List Event) := (after o).map (fun t => t.trace)

/-- The last result returned. -/
def resultOf (o : Outc) : Option Result := (after o).bind (fun t => t.status)

/-- The statements a next state has left. -/
def todoOf (o : Outc) : Option (List Stmt) := (after o).bind (fun t => t.seq.map (fun q => q.todo))

/-! ### One step: the transport and the forms (95 V-TX) -/

theorem test_bus_write : traceOf (exec (.busWrite 0x08#8) (inFrame [.ok])) = some [.busWrite 0x27#7 0x08#8 .ok] := by decide

theorem test_bus_write_error :
    (after (exec (.busWrite 0x8D#8) (inFrame [.busError]))).map (fun t => (t.status, t.trace, t.lock, t.mode, t.seq))
      = some (some (.err .transportError), [.busWrite 0x27#7 0x8D#8 .busError], none, .idle, none) := by decide

theorem test_wait : traceOf (exec (.wait 500) (inFrame [])) = some [.wait 500] := by decide

theorem test_nibble : todoOf (exec (.nibble 0x40#8 .data) (inFrame []))
    = some [.call (.nibbleEnSet 4#4 .data), .call (.wait 500), .call (.nibbleEnClear 4#4 .data), .call (.wait 100)] := by
  decide

theorem test_en_set : traceOf (exec (.nibbleEnSet 4#4 .data) (inFrame [.ok])) = some [.busWrite 0x27#7 0x4D#8 .ok] := by
  decide

theorem test_en_clear : traceOf (exec (.nibbleEnClear 4#4 .data) (inFrame [.ok])) = some [.busWrite 0x27#7 0x49#8 .ok] := by
  decide

theorem test_prewrite : traceOf (exec (.nibblePrewrite 8#4 .data) (inFrame [.ok])) = some [.busWrite 0x27#7 0x89#8 .ok] := by
  decide

theorem test_bus_byte : traceOf (exec (.busByte 5#4 false true false true) (inFrame [.ok]))
    = some [.busWrite 0x27#7 0x55#8 .ok] := by decide

theorem test_backlight_bytes :
    traceOf (exec .backlightOn (inFrame [.ok])) = some [.busWrite 0x27#7 0x08#8 .ok]
      ∧ traceOf (exec .backlightOff (inFrame [.ok])) = some [.busWrite 0x27#7 0x00#8 .ok] := by decide

theorem test_command_frame : todoOf (exec (.commandFrame 0xA#4 0x5#4 .instruction) (inFrame []))
    = some [.call (.nibble 0xA0#8 .instruction), .call (.nibble 0x50#8 .instruction)] := by decide

/-- The frame a call of `i` starts: its byte, its mode, and its nibbles. -/
def frameOf (i : Instr) : Option (Byte × RegSel) := (after (exec i (between []))).bind (fun t => t.tx.map (fun f => (f.byte, f.mode)))

/-- 30_encoding R107 to R111. -/
theorem test_lcd_frames :
    frameOf .wake = some (0x03#8, .instruction) ∧ frameOf .set4bit = some (0x02#8, .instruction)
      ∧ frameOf (.functionSet true) = some (0x28#8, .instruction) ∧ frameOf (.functionSet false) = some (0x20#8, .instruction)
      ∧ frameOf .displayOn = some (0x0C#8, .instruction) ∧ frameOf .clearDisplay = some (0x01#8, .instruction)
      ∧ frameOf .entryModeLeft = some (0x06#8, .instruction) ∧ frameOf .returnHome = some (0x02#8, .instruction)
      ∧ frameOf (.setCgram 5#6) = some (0x45#8, .instruction) ∧ frameOf (.setDdram 0x54#7) = some (0xD4#8, .instruction)
      ∧ frameOf (.data 0xFF#8) = some (0xFF#8, .data) := by decide

theorem test_write_cmd : todoOf (exec (.writeCmd 0xA5#8 .instruction) (idle cfg2 []))
    = some [.call (.commandFrame 0xA#4 0x5#4 .instruction), .release] := by decide

/-- V-TX-8: the bus bytes with the pre-write. -/
theorem test_prewrite_frame :
    busBytes (frameEvents { Params.default with prewrite := true } 0x27#7 .data 0x48#8)
      = [0x49#8, 0x4D#8, 0x49#8, 0x89#8, 0x8D#8, 0x89#8] := by decide

/-- 20_memory R79, 40_transport R145, 70_reset_and_hazards R310, R313, R318: the nibble phase, unknown before a complete INIT
and after a failed write, known after an INIT. -/
theorem test_nibble_phase :
    halfByte Params.default 0x27#7 [] = none
      ∧ halfByte Params.default 0x27#7 (nibbleEvents Params.default 0x27#7 .data 4#4) = none
      ∧ halfByte Params.default 0x27#7 (initEvents Params.default 0x27#7 1 ++ nibbleEvents Params.default 0x27#7 .data 4#4)
          = some true
      ∧ halfByte Params.default 0x27#7 (initEvents Params.default 0x27#7 1 ++ [.busWrite 0x27#7 0x4D#8 .busError]) = none
      ∧ halfByte Params.default 0x27#7 (.busWrite 0x27#7 0x4D#8 .busError :: initEvents Params.default 0x27#7 2)
          = some false := by decide +kernel

/-- V-TX-10: a BACKLIGHT byte between two frames latches nothing. -/
theorem test_decoded_stream :
    decodedStream Params.default 0x27#7 (frameEvents Params.default 0x27#7 .data 0x48#8 ++ writeEvents 0x27#7 0x00#8
      ++ frameEvents Params.default 0x27#7 .data 0x65#8) = some [(.data, 0x48#8), (.data, 0x65#8)] := by decide

/-! ### One step: the display controller (95 V-INIT to V-WR) -/

theorem test_init : (after (exec (.init 1 16 0x27 [0x3C#8] [0x3E#8] 7) State.reset)).map (fun t => (t.mode, t.win, t.cfg))
    = some (.busy, none, some { lines := 1, lineLength := 16, addr := 0x27#7, beginM := [0x3C#8], endM := [0x3E#8],
                                rotInterval := 7 }) := by decide

/-- V-INIT-4: 1 + 1 + 1 = 3 > 2, and V-EXC-8. -/
theorem test_init_refused :
    resultOf (exec (.init 2 2 0x27 [0x3C#8] [0x3E#8] 7) State.reset) = some (.refused .badConfig)
      ∧ (after (exec (.init 3 16 0x27 [] [] 7) State.reset)).map (fun t => t.mode) = some .uninit := by decide

theorem test_clear : todoOf (exec .clear (idle cfg2 [])) = some [.call .clearDisplay, .call .returnHome] := by decide

theorem test_backlight : todoOf (exec (.backlight false) (idle cfg2 [])) = some [.call .backlightOff, .release] := by decide

theorem test_load_chars : todoOf (exec (.loadChars [[1#8, 2#8, 3#8, 4#8, 5#8, 6#8, 7#8, 8#8]]) (idle cfg2 []))
    = some (.call (.setCgram 0#6) :: [1#8, 2#8, 3#8, 4#8, 5#8, 6#8, 7#8, 8#8].map (fun b => .call (.data b))) := by decide

/-- V-LC-7: the count is checked first; V-LC-6. -/
theorem test_load_chars_refused :
    resultOf (exec (.loadChars (List.replicate 9 [1#8])) (idle cfg2 [])) = some (.refused .glyphCount)
      ∧ resultOf (exec (.loadChars [[1#8]]) (idle cfg2 [])) = some (.refused .glyphSize) := by decide

/-- V-PC-7. -/
theorem test_pos_cursor : todoOf (exec (.posCursor 2 0x3F) (idle cfg2 [])) = some [.call (.setDdram 0x7F#7)] := by decide

/-- V-PC-6, V-PC-12. -/
theorem test_pos_cursor_checks :
    resultOf (exec (.posCursor 2 0x40) (idle cfg2 [])) = some (.refused .ddramRange)
      ∧ resultOf (exec (.posCursor 5 0x7F) (idle cfg2 [])) = some (.err .invalidLineError) := by decide

theorem test_write_raw : todoOf (exec (.writeRaw [0x48#8, 0x69#8] 1 0) (idle cfg2 []))
    = some [.call (.posCursor 1 0), .call (.data 0x48#8), .call (.data 0x69#8)] := by decide

/-- V-PAD-3, V-PAD-5, V-PAD-9: center with a literal space, the default arm. -/
theorem test_pad :
    resultOf (exec (.pad [0x61#8, 0x62#8] 5 [0x2A#8] .center) (idle cfg2 []))
        = some (.ok .padded (.str [0x2A#8, 0x61#8, 0x62#8, 0x20#8, 0x2A#8]))
      ∧ resultOf (exec (.pad [0x61#8, 0x62#8] 3 [0x2A#8] .center) (idle cfg2 []))
        = some (.ok .padded (.str [0x61#8, 0x62#8, 0x20#8]))
      ∧ resultOf (exec (.pad [0x61#8, 0x62#8] 5 [0x2A#8] .leftDefault) (idle cfg2 []))
        = some (.ok .padded (.str [0x61#8, 0x62#8, 0x2A#8, 0x2A#8, 0x2A#8])) := by decide

/-- V-PAD-12, V-PAD-13, V-EXC-7. -/
theorem test_pad_checks :
    resultOf (exec (.pad [1#8, 2#8, 3#8] 2 [1#8, 2#8] .left) (idle cfg2 [])) = some (.err .tooLongError)
      ∧ resultOf (exec (.pad [1#8, 2#8] 2 [1#8, 2#8] .left) (idle cfg2 [])) = some (.err .invalidPadCharError)
      ∧ resultOf (exec (.pad [1#8] 2 [0x20#8] .left) State.reset) = some (.refused .notInit) := by decide

/-! ### One step: the scroll window (95 V-WIN) -/

/-- V-WIN-22: `"abcd"` in 3 columns. -/
theorem test_win_create : (after (exec (.winCreate [0x61#8, 0x62#8, 0x63#8, 0x64#8] 3 1 [0x3C#8] [0x3E#8]) (between []))).map
    (fun t => t.win.map (fun w => (w.ws, w.wl, w.view))) = some (some (0, 2, [0x61#8, 0x62#8, 0x3E#8])) := by decide

/-- V-WIN-16: the overshoot state. -/
theorem test_win_fwd : (after (exec (.winFwd 2) { between [] with win := some (win20 4 14) })).map
    (fun t => t.win.map (fun w => (w.ws, w.wl, w.view.length, w.phase))) = some (some (6, 15, 15, .overshoot)) := by decide

/-- V-WIN-17. -/
theorem test_win_fwd_raises : resultOf (exec (.winFwd 0) { between [] with win := some (win20 6 15) })
    = some (.err .boundaryError) := by decide

/-- V-WIN-18. -/
theorem test_win_bwd : (after (exec (.winBwd 1) { between [] with win := some (win20 6 15) })).map
    (fun t => t.win.map (fun w => (w.ws, w.wl, w.phase))) = some (some (5, 15, .finish)) := by decide

theorem test_win_bwd_raises : resultOf (exec (.winBwd 2) { between [] with win := some (win20 1 14) })
    = some (.err .boundaryError) := by decide

theorem test_win_view : (after (exec .winView { between [] with win := some (win20 5 15) })).map
    (fun t => t.seq.map (fun q => q.val)) = some (some (.str (0x3C#8 :: letters.drop 5))) := by decide

/-! ### One step: the render policy (95 V-DSP, V-SCR, V-ROT) -/

/-- V-DSP-2, V-DSP-7. -/
theorem test_display_destroys_window :
    (after (exec (.display [] 9 .left .scroll 0) { idle cfg2 [] with win := some (win20 4 14) })).map (fun t => t.win)
        = some none
      ∧ (after (exec (.display [0x48#8] 3 .left .scroll 0) { idle cfg2 [] with win := some (win20 4 14) })).map
          (fun t => (t.win, t.status)) = some (none, some (.err .invalidLineError)) := by decide

/-- V-DSP-13's width and V-DSP-11. -/
theorem test_display_overflow :
    (after (exec (.display letters 1 .left .scroll 0) (idle cfg2 []))).map (fun t => t.win) = some (some (win20 0 15))
      ∧ resultOf (exec (.display letters 1 .left (.unknown 7#8) 0) (idle cfg2 [])) = some (.ok .notDisplayed .none) := by
  decide

/-- V-SCR-10: the 15-byte view and one space. -/
theorem test_scroll_fwd : todoOf (exec (.scrollFwd 2) { idle cfg2 [] with win := some (win20 4 14) })
    = some (.call (.posCursor 1 0) :: (0x3C#8 :: (letters.drop 6 ++ [0x20#8])).map (fun b => .call (.data b))) := by decide

theorem test_scroll_bwd_raises : resultOf (exec (.scrollBwd 1) { idle cfg2 [] with win := some (win20 0 15) })
    = some (.err .boundaryError) := by decide

theorem test_view :
    resultOf (exec .view { idle cfg2 [] with win := some (win20 0 15) }) = some (.ok .viewed (.str (letters.take 15 ++ [0x3E#8])))
      ∧ resultOf (exec .view (idle cfg2 [])) = some (.refused .noWindow) := by decide

/-- V-SCR-10's trace: a short view completed with spaces. -/
theorem test_render_line : todoOf (exec (.renderLine [0x61#8] 2) (between []))
    = some (.call (.posCursor 2 0) :: (0x61#8 :: List.replicate 15 0x20#8).map (fun b => .call (.data b))) := by decide

/-- Frame 1 of the rotate table: `"<otating text d>"`. -/
theorem test_rot_step : todoOf (exec .rotStep (rotating (rot0 3 0 2) [] false []))
    = some [.call (.renderLine ([0x3C#8] ++ (rotS.drop 1).take 14 ++ [0x3E#8]) 2), .rotWait, .rotCount] := by decide

/-- 41_display_controller R163, 44_render_policy R246: the line count and the interval are those CFG holds when the statement
runs. -/
theorem test_late_cfg_reads :
    (after (step { between [] with cfg := some { cfg2 with lines := 1 }, seq := some { clearSeq with todo := [.functionSet] } })).bind
        (fun t => t.tx.map (fun f => f.byte)) = some 0x20#8
      ∧ traceOf (step { rotating (rot0 3 0 2) [.rotWait] false [] with cfg := some { cfg2 with rotInterval := 9 } })
          = some [.wait 9] := by decide

/-- V-ROT-9. -/
theorem test_rotate_width :
    resultOf (exec (.display [0x61#8, 0x62#8] 1 .left .rotate 1) (idle { cfg2 with lineLength := 1, beginM := [], endM := [] } []))
      = some (.refused .rotateWidth) := by decide

/-- V-CAN-1, V-CAN-3, and the latch in ROTATING. -/
theorem test_cancel :
    (after (exec .cancel (idle cfg2 []))).map (fun t => (t.cancel, t.status)) = some (false, some (.ok .done .none))
      ∧ (after (exec .cancel State.reset)).map (fun t => (t.cancel, t.mode)) = some (false, .uninit)
      ∧ (after (exec .cancel (rotating (rot0 0 1 2) [] false []))).map (fun t => (t.cancel, t.mode))
        = some (true, .rotating) := by decide

/-! ### One step: the port -/

/-- V-EXC-3, V-EXC-5: an internal tag, and an unknown one before INIT. -/
theorem test_unknown_op :
    resultOf (step { idle cfg2 [] with port := [{ req := { tag := 0x81#8, args := [.num 8] }, notBefore := 0 }] })
        = some (.refused .unknownOp)
      ∧ resultOf (step { State.reset with port := [{ req := { tag := 0x0E#8, args := [] }, notBefore := 0 }] })
        = some (.refused .unknownOp) := by decide

/-- V-EXC-10: held while the rotate runs. -/
theorem test_held : (after (step { rotating (rot0 0 1 2) [] false [] with
    port := [{ req := { tag := 0x03#8, args := [] }, notBefore := 0 }] })).map (fun t => (t.port.length, t.mode))
    = some (1, .rotating) := by decide

/-- V-RST-1: no event, no change, until the host issues a request. -/
theorem test_reset_waits : step State.reset = .next State.reset := by rfl

/-- Words of the opcode table placed to run next, from reset. -/
theorem test_fetch_word :
    (after (step (State.reset.withFetchWord 8 0x02))).map (fun t => t.results.length) = some 1
      ∧ (after (step (State.reset.withFetchWord 8 0x28))).bind (fun t => t.tx.map (fun f => f.byte)) = some 0x28#8
      ∧ todoOf (step (State.reset.withFetchWord 32 0xACA85C58))
        = some [.call (.nibble 0xA0#8 .instruction), .call (.nibble 0x50#8 .instruction)] := by decide

/-! ### Witnesses: shared parts -/

/-- A run of `evs` from states `mk bus` can be asked for: `n` writes, all answered; the first failing; the last
failing. -/
def Writes (mk : List BusAnswer → State) (evs : List Event) (n : Nat) : Prop :=
  busWrites evs = n ∧ 1 ≤ n ∧ (mk (oks n)).answersOk n ∧ (mk (failing 0)).failsAt 0 ∧ (mk (failing (n - 1))).failsAt (n - 1)

theorem writes_of (mk : List BusAnswer → State) (evs : List Event) (n : Nat) (hb : ∀ b, (mk b).bus = b)
    (hw : busWrites evs = n ∧ 1 ≤ n) : Writes mk evs n :=
  ⟨hw.1, hw.2, by simp [State.answersOk, hb, oks], by simp [State.failsAt, hb, failing],
    by simp [State.failsAt, hb, failing, List.take_append]⟩

/-- One witness line: the events named have `n` writes. -/
theorem idle_writes (c : Cfg) {evs : List Event} {n : Nat} (hw : busWrites evs = n ∧ 1 ≤ n) : Writes (idle c) evs n :=
  writes_of _ _ _ (fun _ => rfl) hw

theorem frame_writes {evs : List Event} {n : Nat} (hw : busWrites evs = n ∧ 1 ≤ n) : Writes inFrame evs n :=
  writes_of _ _ _ (fun _ => rfl) hw

theorem between_writes {evs : List Event} {n : Nat} (hw : busWrites evs = n ∧ 1 ≤ n) : Writes between evs n :=
  writes_of _ _ _ (fun _ => rfl) hw

theorem idle_ready (c : Cfg) (bus : List BusAnswer) : (idle c bus).Ready c := ⟨rfl, rfl, rfl, rfl, rfl, rfl, nofun⟩

/-- The same with a window. -/
theorem idle_win_ready (bus : List BusAnswer) (w : Window) : ({ idle cfg2 bus with win := some w } : State).Ready cfg2 :=
  ⟨rfl, rfl, rfl, rfl, rfl, rfl, nofun⟩

theorem inFrame_inOp (bus : List BusAnswer) : (inFrame bus).InOp cfg2 clearSeq := ⟨rfl, rfl, .inl rfl, rfl, nofun⟩

theorem between_inCall (bus : List BusAnswer) : (between bus).InCall cfg2 clearSeq := ⟨rfl, rfl, rfl, rfl, rfl, nofun⟩

theorem between_inOp (bus : List BusAnswer) : (between bus).InOp cfg2 clearSeq := ⟨rfl, rfl, .inr ⟨rfl, rfl⟩, rfl, nofun⟩

theorem idle_inv (bus : List BusAnswer) (w : Option Window) (hw : ∀ x, w = some x → x.legal = true ∧ x.lcdLen = 16) :
    ({ idle cfg2 bus with win := w } : State).Inv := by
  refine ⟨rfl, .inr rfl, by simp [idle, State.reset, State.resetWith], by simp [idle, State.reset, State.resetWith],
    fun _ => rfl, ?_, fun x h => (hw x h).1, ?_, by simp [State.lockOk, idle, State.reset, State.resetWith]⟩
  · rintro c ⟨⟩
    decide
  · rintro x c h ⟨⟩
    exact (hw x h).2

theorem win_inv (bus : List BusAnswer) (w : Window) (hl : w.legal = true) (hn : w.lcdLen = 16) :
    ({ idle cfg2 bus with win := some w } : State).Inv := by
  refine idle_inv bus (some w) ?_
  rintro x ⟨⟩
  exact ⟨hl, hn⟩

theorem rotating_inv (r : Rot) (todo : List Stmt) (cancel : Bool) (bus : List BusAnswer)
    (h : ∀ st ∈ todo, st.clean .rotating = true) : (rotating r todo cancel bus).Inv := by
  refine ⟨rfl, ⟨.inr rfl, by simp [rotSeq, rotating], h, by simp [rotSeq, isInitOp]⟩,
    by simp [rotating], fun _ => rfl, fun _ => rfl, ?_,
    by simp [rotating, idle, State.reset, State.resetWith], by simp [rotating, idle, State.reset, State.resetWith],
    by simp [State.lockOk, rotating, idle, State.reset, State.resetWith]⟩
  rintro c ⟨⟩
  decide

/-- A legal choice of the flag bits that is not the default (30_encoding R102). -/
def parOther : Params :=
  { Params.default with bitRs := 0x08#8, bitRw := 0x04#8, bitEn := 0x02#8, bitBl := 0x01#8, prewrite := true }

theorem witness_params : Params.default.wf = true ∧ parOther.wf = true
    ∧ ({ Params.default with bitRs := 0x04#8 } : Params).wf = false := by decide

/-! ### Witnesses: encoding -/

/-- The boundary tags of UnknownTagsAreRefused; a VIEW that is refused at reset; a run through that request. -/
theorem witness_UnknownTagsAreRefused (tag : Byte) :
    let s : State := { State.reset with port := [{ req := { tag := tag, args := [] }, notBefore := 0 }] }
    (s.seq = none ∧ s.turns = [] ∧ ∃ a, s.port = a :: [] ∧ a.req.tag = tag)
      ∧ (∀ t ∈ [0x0E#8, 0x81#8, 0x89#8, 0xFF#8], 0x0E ≤ BitVec.toNat t)
      ∧ (let v : State := { State.reset with port := [{ req := { tag := 0x0C#8, args := [] }, notBefore := 0 }] }
         decode (.request { tag := 0x0C#8, args := [] }) = .ok .view
           ∧ exec .view State.reset = .next (State.reset.afterOp [] 0 (.refused .notInit))
           ∧ v.refusesNow ∧ Reaches v v ∧ MayRun v State.reset) :=
  have hv : State.refusesNow { State.reset with port := [{ req := { tag := 0x0C#8, args := [] }, notBefore := 0 }] } :=
    ⟨_, 0, .notInit, rfl, rfl⟩
  ⟨⟨rfl, rfl, _, rfl, rfl⟩, by decide, by decide, rfl, hv, ⟨0, rfl⟩, .cons (.inr hv) (.refl _)⟩

/-- 30_encoding R115, R116: the first and last codes of `align`, and each kind of overflow byte at its boundary. -/
theorem witness_OmittedOperandsTakeDefaults :
    (0, Align.left) ∈ [(0, Align.left), (1, .center), (2, .right), (3, .leftDefault)]
      ∧ (3, Align.leftDefault) ∈ [(0, Align.left), (1, .center), (2, .right), (3, .leftDefault)]
      ∧ (reads 0x09#8 [.str [], .num 1, .num 2, .num 0] (.display [] 1 .right .scroll 0)
          && reads 0x09#8 [.str [], .num 1, .num 3, .num 1] (.display [] 1 .leftDefault .rotate 0)
          && reads 0x09#8 [.str [], .num 1, .num 0, .num 2] (.display [] 1 .left (.unknown 2#8) 0)
          && reads 0x09#8 [.str [], .num 1, .num 0, .num 255] (.display [] 1 .left (.unknown 0xFF#8) 0)) = true := by decide

theorem witness_EncodedInstructionsDecodeBack :
    ((Instr.init 2 16 0x27 [0x3C#8] [0x3E#8] 1000).wf = true ∧ (Instr.init 2 16 0x27 [0x3C#8] [0x3E#8] 1000).sharesCode = false)
      ∧ (Instr.nibble 0xF0#8 .data).wf = true ∧ (Instr.winCreate [1#8, 2#8] 1 1 [] []).wf = true
      ∧ (Instr.busByte 0xF#4 false true false true).wf = true
      ∧ (Instr.busByte 0xF#4 false true false true).sharesCode = false
      ∧ (Instr.set4bit.wf = true ∧ Instr.set4bit.sharesCode = true) := by decide

/-- An accepted and a rejected code of each layer below the tags. -/
theorem witness_EncodedInstructionsDecodeBack_codes :
    (decode (.bus 0xFD#8) = .ok (.nibbleEnSet 0xF#4 .data) ∧ decode (.bus 0x02#8) = .error .rwSet)
      ∧ (decode (.frame 0xFDF9FDF9#32) = .ok (.commandFrame 0xF#4 0xF#4 .data)
          ∧ decode (.frame 0x0C08FDF9#32) = .error .notAFrame)
      ∧ (decode (.lcd .instruction 0x02#8) = .ok .returnHome ∧ decode (.lcd .data 0x02#8) = .ok (.data 0x02#8)
          ∧ decode (.lcd .instruction 0x10#8) = .error .notEmitted) := by decide

/-! ### Witnesses: the transport -/

/-- TX without a value, and at every bus write of a frame, its last among them. -/
theorem witness_BusWriteSettlesOrEnds : (∀ bus, (inFrame bus).InOp cfg2 clearSeq)
    ∧ Writes inFrame [.busWrite cfg2.addr 0xFF#8 .ok, .wait 100] 1
    ∧ ∀ tx : Option TxFrame, let s : State := { inFrame [.ok] with tx := tx }
        s.InOp cfg2 clearSeq ∧ s.answersOk 1 ∧ s.tx = tx :=
  ⟨inFrame_inOp, frame_writes (by decide), fun _ => ⟨⟨rfl, rfl, .inl rfl, rfl, nofun⟩, rfl, rfl⟩⟩

theorem witness_BusByteRowsAreBusWrites : (∀ bus, (between bus).InOp cfg2 clearSeq)
    ∧ Writes between [.busWrite cfg2.addr 0x00#8 .ok, .wait 100] 1 := ⟨between_inOp, between_writes (by decide)⟩

theorem witness_WaitIsOneEvent : (inFrame []).seq = some clearSeq := rfl

/-- With and without the pre-write. -/
theorem witness_NibbleIsOneEnableStrobe :
    ((∀ bus, (inFrame bus).InOp cfg2 clearSeq ∧ (inFrame bus).par.wf = true) ∧ lowNibbleClear 0xF0#8 = true
        ∧ Writes inFrame (nibbleEvents Params.default 0x27#7 .data 0xF#4) 2)
      ∧ (let mk := fun bus => ({ inFrame bus with par := parOther } : State)
         (∀ bus, (mk bus).InOp cfg2 clearSeq ∧ (mk bus).par.wf = true) ∧ lowNibbleClear 0x00#8 = true
           ∧ Writes mk (nibbleEvents parOther 0x27#7 .data 0x0#4) 3) :=
  ⟨⟨fun b => ⟨inFrame_inOp b, rfl⟩, by decide, frame_writes (by decide)⟩,
    fun _ => ⟨⟨rfl, rfl, .inl rfl, rfl, nofun⟩, rfl⟩, by decide, writes_of _ _ _ (fun _ => rfl) (by decide)⟩

theorem witness_CommandFrameIsTwoNibbleFrames : (∀ bus, (inFrame bus).InOp cfg2 clearSeq)
    ∧ Writes inFrame (nibbleEvents Params.default 0x27#7 .data 0x4#4 ++ nibbleEvents Params.default 0x27#7 .data 0x8#4) 4 :=
  ⟨inFrame_inOp, frame_writes (by decide)⟩

theorem witness_LcdBytesAreCommandFrames : (∀ bus, (between bus).InCall cfg2 clearSeq)
    ∧ Writes between (frameEvents Params.default 0x27#7 .data 0xFF#8) 4 := ⟨between_inCall, between_writes (by decide)⟩

theorem witness_WriteCmdSendsOneFrame : (∀ bus, (idle cfg2 bus).Ready cfg2)
    ∧ Writes (idle cfg2) (frameEvents Params.default 0x27#7 .instruction 0x00#8) 4 :=
  ⟨idle_ready cfg2, idle_writes cfg2 (by decide)⟩

/-- A lock held by another requester, and a free one. -/
theorem witness_HeldLockHoldsRequester : (Instr.data 0x48#8).takesLock = true ∧ (Instr.backlight true).takesLock = true
    ∧ (let s : State := { between [] with lock := some 1 }
       s.seq = some clearSeq ∧ s.lock = some 1)
    ∧ (between []).seq = some clearSeq ∧ (between []).lock = none := by decide

/-- Requester `cur` in place with procedure `mine`, the other of 0 and 1 parked with `theirs`, the lock as given. -/
def pair (cur : Nat) (lock : Option Nat) (mine theirs : List Stmt) (turns : List Nat) : State :=
  { inFrame [.ok] with
    cur := cur
    lock := lock
    seq := some { clearSeq with todo := mine }
    turns := turns
    parked := [{ id := 1 - cur, mode := .busy, seq := some { clearSeq with todo := theirs }, status := none, port := [] }] }

/-- The rest of a frame: its last nibble's EN clear, its waits, its release; then the caller's next frame. -/
def midFrame : List Stmt :=
  [.call (.nibbleEnClear 0x1#4 .instruction), .call (.wait 100), .release, .call .returnHome]

theorem pair_exclusive {cur : Nat} (hc : cur = 0 ∨ cur = 1) {lock : Option Nat} {mine theirs : List Stmt}
    {turns : List Nat} (hm : framesLocked lock cur (some { clearSeq with todo := mine }))
    (ht : framesLocked lock (1 - cur) (some { clearSeq with todo := theirs })) :
    (pair cur lock mine theirs turns).Exclusive := by
  refine ⟨?_, hm, ?_⟩
  · rcases hc with rfl | rfl <;> simp [pair]
  · simpa [pair] using ht

/-- The holder writes the bus; a non-holder, brought in by a turn, holds at the lock; and with the lock free a requester
takes it. -/
theorem witness_HeldLockHoldsRequester_exclusive :
    ((pair 0 (some 0) midFrame [.functionSet] []).Exclusive
        ∧ traceOf (step (pair 0 (some 0) midFrame [.functionSet] [])) = some [.busWrite 0x27#7 0x18#8 .ok])
      ∧ ((pair 0 (some 0) midFrame [.functionSet] [1]).Exclusive
        ∧ (pair 0 (some 0) midFrame [.functionSet] [1]).takeTurn.cur = 1
        ∧ todoOf (step (pair 0 (some 0) midFrame [.functionSet] [1])) = some [.functionSet])
      ∧ ((pair 1 none [.functionSet] [.call .returnHome] []).Exclusive
        ∧ todoOf (step (pair 1 none [.functionSet] [.call .returnHome] []))
            = some [.call (.commandFrame 0x2#4 0x8#4 .instruction), .release]) :=
  ⟨⟨pair_exclusive (.inl rfl) (.inr ⟨rfl, rfl⟩) (.inl rfl), by decide⟩,
    ⟨pair_exclusive (.inl rfl) (.inr ⟨rfl, rfl⟩) (.inl rfl), by decide, by decide⟩,
    ⟨pair_exclusive (.inr rfl) (.inl rfl) (.inl rfl), by decide⟩⟩

/-! ### Witnesses: the display controller -/

/-- Each refused clause at its boundary, on the record whose other operands are good. -/
theorem witness_InitChecksAndConfigures_refused : State.reset.seq = none
    ∧ (∀ l ∈ [0, 3, 5], ¬ (l = 1 ∨ l = 2 ∨ l = 4)) ∧ (0 : Nat) < 1 ∧ 0x7F < 0x80
    ∧ 2 < ([0x3C#8] : Str).length + ([0x3E#8] : Str).length + 1 := by decide

/-- And the accepted ones: 3 columns are the least for two markers, 1 column for none. -/
theorem witness_InitChecksAndConfigures : State.reset.seq = none ∧ (idle cfg2 []).seq = none
    ∧ (∀ l ∈ [1, 2, 4], (l = 1 ∨ l = 2 ∨ l = 4)) ∧ 1 ≤ 1 ∧ 0x7F ≤ 0x7F ∧ 0 ≤ 0x7F
    ∧ ([0x3C#8] : Str).length + ([0x3E#8] : Str).length + 1 ≤ 3 ∧ ([] : Str).length + ([] : Str).length + 1 ≤ 1 := by decide

/-- An INIT that finds another requester's frame under way waits for its end, and then configures (20_memory R81). -/
theorem witness_InitChecksAndConfigures_held :
    (({ State.reset with lock := some 1 } : State).seq = none ∧ ({ State.reset with lock := some 1 } : State).lock = some 1)
      ∧ (let s := pair 0 (some 1) [.configure cfg2] midFrame []
         s.seq = some { clearSeq with todo := [.configure cfg2] } ∧ s.undisturbed ∧ s.lock = some 1
           ∧ todoOf (step s) = some [.configure cfg2])
      ∧ (let s := pair 0 none [.configure { cfg2 with addr := 0x3F#7 }] [] []
         s.undisturbed ∧ s.lock = none ∧ (after (step s)).map (fun t => t.cfg.map (fun c => c.addr)) = some (some 0x3F#7)) :=
  ⟨by decide, ⟨rfl, ⟨rfl, nofun⟩, rfl, by decide⟩, ⟨rfl, nofun⟩, rfl, by decide⟩

/-- From reset and from IDLE: 32 writes (V-INIT-1). -/
theorem witness_InitSendsItsSequence :
    (let mk := fun bus => ({ State.reset with bus := bus } : State)
     (∀ bus, (mk bus).mode = .uninit ∧ (mk bus).seq = none ∧ (mk bus).lock = none ∧ (mk bus).tx = none
        ∧ (mk bus).undisturbed)
      ∧ Writes mk (streamEvents Params.default 0x27#7
          [(.instruction, 0x03#8), (.instruction, 0x03#8), (.instruction, 0x03#8), (.instruction, 0x02#8),
           (.instruction, 0x28#8), (.instruction, 0x0C#8), (.instruction, 0x01#8), (.instruction, 0x06#8)]
          ++ [.wait 200000]) 32)
      ∧ ∀ bus, (idle cfg2 bus).mode = .idle ∧ (idle cfg2 bus).seq = none ∧ (idle cfg2 bus).lock = none
          ∧ (idle cfg2 bus).tx = none ∧ (idle cfg2 bus).undisturbed :=
  ⟨⟨fun _ => ⟨rfl, rfl, rfl, rfl, rfl, nofun⟩, writes_of _ _ _ (fun _ => rfl) (by decide)⟩,
    fun _ => ⟨rfl, rfl, rfl, rfl, rfl, nofun⟩⟩

theorem witness_ClearSendsClearAndHome : (∀ bus, (idle cfg2 bus).Ready cfg2)
    ∧ Writes (idle cfg2) (streamEvents Params.default 0x27#7 [(.instruction, 0x01#8), (.instruction, 0x02#8)]) 8 :=
  ⟨idle_ready cfg2, idle_writes cfg2 (by decide)⟩

theorem witness_BacklightWritesOneByte : (∀ bus, (idle cfg2 bus).Ready cfg2)
    ∧ Writes (idle cfg2) [.busWrite cfg2.addr 0x08#8 .ok, .wait 100] 1 := ⟨idle_ready cfg2, idle_writes cfg2 (by decide)⟩

/-- Nine glyphs; seven rows and nine rows; eight good glyphs, and none (4 writes: SET_CGRAM alone). -/
theorem witness_LoadCharsStreamsGlyphs : (∀ bus, (idle cfg2 bus).Ready cfg2)
    ∧ 8 < (List.replicate 9 (List.replicate 8 0#8)).length
    ∧ (∀ n ∈ [7, 9], ∃ g ∈ [List.replicate n 0x1F#8], g.length ≠ 8)
    ∧ (let glyphs := List.replicate 8 (List.replicate 8 0x1F#8)
       glyphs.length ≤ 8 ∧ (∀ g ∈ glyphs, g.length = 8))
    ∧ Writes (idle cfg2) (streamEvents Params.default 0x27#7 ((.instruction, 0x40#8) :: dataStream ([] : List Str).flatten)) 4
    ∧ Writes (idle cfg2)
        (streamEvents Params.default 0x27#7 ((.instruction, 0x40#8) :: dataStream [List.replicate 8 0x1F#8].flatten)) 36 :=
  ⟨idle_ready cfg2, by decide, by decide, by decide, idle_writes cfg2 (by decide), idle_writes cfg2 (by decide)⟩

/-- Lines 0 and 3 of two, addresses 0x80 and 0x7F. -/
theorem witness_PosCursorSetsDdramAddress : (∀ bus, (idle cfg2 bus).Ready cfg2) ∧ cfg2.badLine 0 ∧ cfg2.badLine 3
    ∧ (1 ≤ 2 ∧ 2 ≤ cfg2.lines ∧ ddramAddr 2 0x40 = some 0x80 ∧ 0x7F < 0x80)
    ∧ cfg2.reaches 1 0 0 ∧ cfg2.reaches 2 0x3F 0x7F
    ∧ Writes (idle cfg2) (streamEvents Params.default 0x27#7 [(.instruction, 0x80#8 ||| BitVec.ofNat 8 0x7F)]) 4 :=
  ⟨idle_ready cfg2, .inl (by decide), .inr (by decide), by decide, by simp [Cfg.reaches, cfg2, ddramAddr, lineBase],
    by simp [Cfg.reaches, cfg2, ddramAddr, lineBase], idle_writes cfg2 (by decide)⟩

theorem witness_WriteRawSendsEveryByte : (∀ bus, (idle cfg2 bus).Ready cfg2) ∧ cfg2.badLine 0 ∧ cfg2.badLine 3
    ∧ (1 ≤ 1 ∧ 1 ≤ cfg2.lines ∧ ddramAddr 1 0x80 = some 0x80 ∧ 0x7F < 0x80)
    ∧ cfg2.reaches 1 0x7F 0x7F
    ∧ Writes (idle cfg2) (streamEvents Params.default 0x27#7 [(.instruction, 0x80#8)]) 4
    ∧ Writes (idle cfg2) (streamEvents Params.default 0x27#7
        ((.instruction, 0x80#8) :: ([0x48#8, 0x69#8] : Str).map (fun b => (.data, b)))) 12 :=
  ⟨idle_ready cfg2, .inl (by decide), .inr (by decide), by decide, by simp [Cfg.reaches, cfg2, ddramAddr, lineBase],
    idle_writes cfg2 (by decide), idle_writes cfg2 (by decide)⟩

/-! ### Witnesses: text layout and the scroll window -/

/-- One byte too long; equal; one byte shorter; pad strings of no and of two bytes. -/
theorem witness_PadPadsByAlignment : (idle cfg2 []).seq = none ∧ (idle cfg2 []).mode ≠ .uninit
    ∧ 1 < ([1#8, 2#8] : Str).length ∧ ([1#8, 2#8] : Str).length ≤ 2 ∧ ([1#8, 2#8] : Str).length ≤ 3
    ∧ ([] : Str).length ≠ 1 ∧ ([0x20#8, 0x20#8] : Str).length ≠ 1 := by decide

theorem witness_PadLaws : ([1#8] : Str).length ≤ 1 ∧ ([] : Str).length ≤ 0 ∧ ([1#8] : Str).length ≤ 4 := by decide

/-- One byte longer than the line, and the least width for its markers. -/
theorem witness_WinCreateStartsAtBufferStart : (between []).seq = some clearSeq
    ∧ 3 < ([0x61#8, 0x62#8, 0x63#8, 0x64#8] : Str).length ∧ 1 ≤ 3
    ∧ ([0x3C#8] : Str).length + ([0x3E#8] : Str).length ≤ 3 - 1 := by decide

theorem witness_WinViewShowsMarkersAndText (ws : Nat) :
    let s : State := { between [] with win := some (win20 ws 15) }
    s.seq = some clearSeq ∧ s.win = some (win20 ws 15) := ⟨rfl, rfl⟩

/-- The last legal move and the first that raises. -/
theorem witness_WinFwdMovesOrRaises :
    (let s : State := { between [] with win := some (win20 4 14) }
     s.InOp cfg2 clearSeq ∧ s.win = some (win20 4 14))
      ∧ (win20 4 14).ws + (win20 4 14).wl + 2 ≤ (win20 4 14).buf.length
      ∧ (win20 4 14).buf.length < (win20 4 14).ws + (win20 4 14).wl + 3 :=
  ⟨⟨⟨rfl, rfl, .inr ⟨rfl, rfl⟩, rfl, nofun⟩, rfl⟩, by decide, by decide⟩

theorem witness_WinBwdMovesOrRaises :
    (let s : State := { between [] with win := some (win20 4 14) }
     s.InOp cfg2 clearSeq ∧ s.win = some (win20 4 14)) ∧ 4 ≤ (win20 4 14).ws ∧ (win20 4 14).ws < 5 :=
  ⟨⟨⟨rfl, rfl, .inr ⟨rfl, rfl⟩, rfl, nofun⟩, rfl⟩, by decide, by decide⟩

/-- The start, the end and the overshoot of `"ABCDEFGHIJKLMNOPQRST"` in 16 columns, and the moves its clauses take. -/
theorem witness_WindowViewWidth : (win20 0 15).legal = true ∧ (win20 5 15).legal = true ∧ (win20 6 15).legal = true
    ∧ 5 + 15 ≤ (win20 5 15).buf.length ∧ (win20 6 15).buf.length < 6 + 15
    ∧ (win20 4 14).fwd 1 = some (win20 5 15) ∧ (win20 5 15).bwd 1 = some (win20 4 14) := by decide

theorem witness_ForwardCountToTheBufferEnd : winCreatePre letters 16 [0x3C#8] [0x3E#8] = true
    ∧ winCreatePre [1#8, 2#8] 1 [] [] = true := by decide

theorem witness_WindowMovesBetweenPhases :
    ((win20 5 15).phase = .finish ∧ (win20 6 15).phase = .overshoot ∧ (win20 0 15).phase = .start
        ∧ (win20 4 14).phase = .middle)
      ∧ ((win20 0 15).legal = true ∧ (win20 4 14).legal = true ∧ (win20 5 15).legal = true ∧ (win20 6 15).legal = true)
      ∧ (win20 0 15).fwd 5 = some (win20 5 15) ∧ (win20 5 15).bwd 5 = some (win20 0 15)
      ∧ (win20 5 15).bwd 4 = some (win20 1 14) := by decide

/-- The invariant of what requesters share holds of it. -/
theorem bothRotate_shared (r : Rot) (todo : List Stmt) (cancel : Bool) (bus : List BusAnswer) (turns : List Nat)
    (h : ∀ st ∈ todo, st.clean .rotating = true) : (bothRotate r todo cancel bus turns).Shared :=
  ⟨by show ([0, 1] : List Nat).Nodup; decide,
    ⟨.inr rfl, by simp [rotSeq, bothRotate, rotating], by simp [rotSeq, isInitOp], .inl ⟨rfl, h⟩⟩,
    by
      intro x hx
      obtain rfl := List.mem_singleton.mp hx
      exact ⟨.inr rfl, by simp [rotSeq], by simp [rotSeq, isInitOp], .inl ⟨rfl, by simp [rotSeq, Stmt.clean]⟩⟩,
    by simp [bothRotate, rotating], fun _ => .inl rfl, fun _ => rfl⟩

/-- 10_state R42, 60_exceptions R288: one rotate's end leaves the shared ROT to the other, whose next ROT_STEP runs; the last
one's end clears it. -/
theorem test_shared_rot :
    (after (step (bothRotate (rot0 3 3 2) [] false [] []))).map (fun t => (t.mode, t.rot)) = some (.idle, some (rot0 3 3 2))
      ∧ ((after (step (bothRotate (rot0 3 3 2) [] false [] []))).bind
          (fun t => todoOf (step { t with turns := [1] }))).isSome = true
      ∧ (after (step (rotating (rot0 3 3 2) [] false []))).map (fun t => t.rot) = some none := by decide +kernel

/-! ### Witnesses: the render policy -/

theorem witness_DisplayOfEmptyStringClears : (∀ bus, (idle cfg2 bus).Ready cfg2)
    ∧ Writes (idle cfg2) (streamEvents Params.default 0x27#7 [(.instruction, 0x01#8), (.instruction, 0x02#8)]) 8 :=
  ⟨idle_ready cfg2, idle_writes cfg2 (by decide)⟩

/-- One byte and a whole line. -/
theorem witness_DisplayThatFitsIsStatic : (∀ bus, (idle cfg2 bus).Ready cfg2)
    ∧ (1 ≤ ([0x48#8] : Str).length ∧ ([0x48#8] : Str).length ≤ cfg2.lineLength)
    ∧ (1 ≤ (letters.take 16).length ∧ (letters.take 16).length ≤ cfg2.lineLength)
    ∧ cfg2.badLine 0 ∧ cfg2.badLine 3 ∧ cfg2.reaches 2 0 0x40
    ∧ Writes (idle cfg2) (streamEvents Params.default 0x27#7
        ((.instruction, 0xC0#8) :: (letters.take 16).map (fun b => (.data, b)))) 68 :=
  ⟨idle_ready cfg2, by decide, by decide, .inl (by decide), .inr (by decide),
    by simp [Cfg.reaches, cfg2, ddramAddr, lineBase], idle_writes cfg2 (by decide +kernel)⟩

theorem witness_UnknownOverflowIsNoOp : (∀ bus, (idle cfg2 bus).Ready cfg2)
    ∧ cfg2.lineLength < (letters.take 17).length := ⟨idle_ready cfg2, by decide⟩

theorem witness_DisplayScrollCreatesWindow : (∀ bus, (idle cfg2 bus).Ready cfg2) ∧ cfg2.legal = true
    ∧ cfg2.lineLength < (letters.take 17).length ∧ cfg2.badLine 0 ∧ cfg2.badLine 3 ∧ cfg2.reaches 1 0 0
    ∧ Writes (idle cfg2) (streamEvents Params.default 0x27#7 ((.instruction, 0x80#8)
        :: (letters.take 15 ++ [0x3E#8]).map (fun b => (.data, b)))) 68 :=
  ⟨idle_ready cfg2, by decide, by decide, .inl (by decide), .inr (by decide),
    by simp [Cfg.reaches, cfg2, ddramAddr, lineBase], idle_writes cfg2 (by decide +kernel)⟩

/-- One column and two columns; one frame, its line good or bad. -/
theorem witness_DisplayRotateRendersBudgetFrames :
    (let c : Cfg := { cfg2 with lineLength := 1, beginM := [], endM := [] }
     (∀ bus, (idle c bus).Ready c) ∧ c.lineLength < rotS.length ∧ c.lineLength < 2)
      ∧ (let c : Cfg := { cfg2 with lineLength := 2, beginM := [], endM := [] }
         (∀ bus, (idle c bus).Ready c) ∧ c.lineLength < rotS.length ∧ 2 ≤ c.lineLength ∧ c.badLine 0 ∧ c.badLine 3
           ∧ c.reaches 2 0 0x40)
      ∧ 1 ≤ 1
      ∧ (let c : Cfg := { cfg2 with lineLength := 2, beginM := [], endM := [] }
         let s := fun bus => ({ idle c bus with parked := (bothRotate (rot0 0 0 2) [] false [] []).parked } : State)
         ∀ bus, (s bus).Ready c ∧ (s bus).othersRotate = true ∧ (idle c bus).othersRotate = false)
      ∧ Writes (idle { cfg2 with lineLength := 2, beginM := [], endM := [] }) ((List.range 1).map (fun _ =>
          streamEvents Params.default 0x27#7 [(.instruction, 0xC0#8), (.data, 0x3C#8), (.data, 0x3E#8)]
            ++ [.wait 1000])).flatten 12 :=
  ⟨⟨idle_ready _, by decide, by decide⟩,
    ⟨idle_ready _, by decide, by decide, .inl (by decide), .inr (by decide),
      by simp [Cfg.reaches, cfg2, ddramAddr, lineBase]⟩,
    by decide, fun bus => ⟨⟨rfl, rfl, rfl, rfl, rfl, rfl, nofun⟩, rfl, rfl⟩, idle_writes _ (by decide)⟩

theorem witness_RotStepRendersOneFrame (line : Nat) :
    (∀ bus, (rotating (rot0 3 0 line) [] false bus).InCall cfg2 (rotSeq [])
        ∧ (rotating (rot0 3 0 line) [] false bus).mode = .rotating
        ∧ (rotating (rot0 3 0 line) [] false bus).rot = some (rot0 3 0 line))
      ∧ (∀ bus, (bothRotate (rot0 3 0 line) [] false bus []).InCall cfg2 (rotSeq [])
          ∧ (bothRotate (rot0 3 0 line) [] false bus []).rot = some (rot0 3 0 line))
      ∧ 2 ≤ cfg2.lineLength ∧ cfg2.lineLength ≤ (rot0 3 0 line).s.length
      ∧ cfg2.badLine 0 ∧ cfg2.badLine 3 ∧ cfg2.reaches 2 0 0x40
      ∧ Writes (rotating (rot0 3 0 line) [] false) (streamEvents Params.default 0x27#7 ((.instruction, 0xC0#8)
          :: ([0x3C#8] ++ (rotS.drop 1).take 14 ++ [0x3E#8]).map (fun b => (.data, b))) ++ [.wait 1000]) 68 :=
  ⟨fun _ => ⟨⟨rfl, rfl, rfl, rfl, rfl, nofun⟩, rfl, rfl⟩, fun _ => ⟨⟨rfl, rfl, rfl, rfl, rfl, nofun⟩, rfl⟩, by decide, Nat.le_of_ble_eq_true rfl, .inl (by decide), .inr (by decide),
    by simp [Cfg.reaches, cfg2, ddramAddr, lineBase], writes_of _ _ _ (fun _ => rfl) (by decide +kernel)⟩

/-- Cancelled; at its budget; one frame before it; unbounded; alone, and beside another rotate. -/
theorem witness_RotationEndsOnlyAsItsRuleSays_check (r : Rot) (cancel : Bool) :
    (let s := rotating r [] cancel []
     s.seq = some (rotSeq []) ∧ (rotSeq []).todo = [] ∧ (rotSeq []).ret = .rotate ∧ isInitOp (rotSeq []).op = false
       ∧ s.mode = .rotating ∧ s.rot = some r ∧ s.cancel = cancel ∧ s.lock = none ∧ s.undisturbed ∧ s.othersRotate = false)
      ∧ (let s := bothRotate r [] cancel [] []
         s.seq = some (rotSeq []) ∧ s.mode = .rotating ∧ s.rot = some r ∧ s.cancel = cancel ∧ s.lock = none ∧ s.undisturbed
           ∧ s.othersRotate = true)
      ∧ (0 < (rot0 3 3 2).budget ∧ (rot0 3 3 2).iter = (rot0 3 3 2).budget)
      ∧ ¬ (0 < (rot0 3 2 2).budget ∧ (rot0 3 2 2).iter = (rot0 3 2 2).budget)
      ∧ ¬ (0 < (rot0 0 0 2).budget ∧ (rot0 0 0 2).iter = (rot0 0 0 2).budget) :=
  ⟨⟨rfl, rfl, rfl, rfl, rfl, rfl, rfl, rfl, ⟨rfl, nofun⟩, rfl⟩, ⟨rfl, rfl, rfl, rfl, rfl, ⟨rfl, nofun⟩, rfl⟩, by decide, by decide,
    by decide⟩

/-- A step out of ROTATING: by CANCEL, and by a write that fails. -/
theorem witness_RotationEndsOnlyAsItsRuleSays_out :
    (let s := rotating (rot0 0 1 2) [] true []
     s.Inv ∧ s.mode = .rotating ∧ ∃ t, step s = .next t ∧ t.mode ≠ .rotating)
      ∧ (let s := rotating (rot0 0 1 2) [.call (.nibbleEnSet 0#4 .data)] false [.busError]
         s.Inv ∧ s.mode = .rotating ∧ ∃ t, step s = .next t ∧ t.mode ≠ .rotating) :=
  ⟨⟨rotating_inv _ _ _ _ nofun, rfl, _, rfl, by decide⟩,
    rotating_inv _ _ _ _ (by decide), rfl, _, rfl, by decide⟩

theorem witness_CalledRendersRunOrRaise : (∀ bus, (between bus).InCall cfg2 clearSeq)
    ∧ cfg2.badLine 0 ∧ cfg2.badLine 3 ∧ (letters.take 16).length ≤ cfg2.lineLength
    ∧ cfg2.lineLength < (letters.take 17).length ∧ cfg2.reaches 2 0x3F 0x7F ∧ cfg2.reaches 1 0 0
    ∧ Writes between (streamEvents Params.default 0x27#7 [(.instruction, 0xFF#8)]) 4
    ∧ Writes between (streamEvents Params.default 0x27#7
        ((.instruction, 0x80#8) :: (letters.take 16).map (fun b => (.data, b)))) 68 :=
  ⟨between_inCall, .inl (by decide), .inr (by decide), by decide, by decide,
    by simp [Cfg.reaches, cfg2, ddramAddr, lineBase], by simp [Cfg.reaches, cfg2, ddramAddr, lineBase],
    between_writes (by decide +kernel), between_writes (by decide +kernel)⟩

/-- No window; the last legal move and the first that raises (V-SCR-10); the render's line good and bad. -/
theorem witness_ScrollFwdMovesAndRenders :
    (∀ bus, (idle cfg2 bus).Ready cfg2 ∧ (idle cfg2 bus).Inv ∧ (idle cfg2 bus).win = none)
      ∧ (∀ bus (w : Window), w = win20 4 14 ∨ w = { win20 4 14 with line := 3 } →
          ({ idle cfg2 bus with win := some w } : State).Ready cfg2 ∧ ({ idle cfg2 bus with win := some w } : State).Inv)
      ∧ 4 + 14 + 2 ≤ (win20 4 14).buf.length ∧ (win20 4 14).buf.length < 4 + 14 + 3
      ∧ cfg2.reaches (win20 4 14).line 0 0 ∧ cfg2.badLine ({ win20 4 14 with line := 3 } : Window).line
      ∧ Writes (fun bus => { idle cfg2 bus with win := some (win20 4 14) }) (streamEvents Params.default 0x27#7
          ((.instruction, 0x80#8) :: (((win20 4 14).movedTo 6).view ++ [0x20#8]).map (fun b => (.data, b)))) 68 :=
  ⟨fun b => ⟨idle_ready _ b, idle_inv b none nofun, rfl⟩,
    fun b w h => ⟨idle_win_ready b w, by rcases h with rfl | rfl <;> exact win_inv b _ (by decide) rfl⟩,
    by decide, by decide, by simp [Cfg.reaches, cfg2, win20, ddramAddr, lineBase], .inr (by decide),
    writes_of _ _ _ (fun _ => rfl) (by decide +kernel)⟩

theorem witness_ScrollBwdMovesAndRenders :
    (∀ bus, (idle cfg2 bus).Ready cfg2 ∧ (idle cfg2 bus).Inv ∧ (idle cfg2 bus).win = none)
      ∧ (∀ bus (w : Window), w = win20 6 15 ∨ w = { win20 6 15 with line := 0 } →
          ({ idle cfg2 bus with win := some w } : State).Ready cfg2 ∧ ({ idle cfg2 bus with win := some w } : State).Inv)
      ∧ 6 ≤ (win20 6 15).ws ∧ (win20 6 15).ws < 7
      ∧ cfg2.reaches (win20 6 15).line 0 0 ∧ cfg2.badLine ({ win20 6 15 with line := 0 } : Window).line
      ∧ Writes (fun bus => { idle cfg2 bus with win := some (win20 6 15) }) (streamEvents Params.default 0x27#7
          ((.instruction, 0x80#8) :: ((win20 6 15).movedTo 0).view.map (fun b => (.data, b)))) 68 :=
  ⟨fun b => ⟨idle_ready _ b, idle_inv b none nofun, rfl⟩,
    fun b w h => ⟨idle_win_ready b w, by rcases h with rfl | rfl <;> exact win_inv b _ (by decide) rfl⟩,
    by decide, by decide, by simp [Cfg.reaches, cfg2, win20, ddramAddr, lineBase], .inl (by decide),
    writes_of _ _ _ (fun _ => rfl) (by decide +kernel)⟩

theorem witness_ViewReturnsCurrentView (w : Option Window) :
    let s : State := { idle cfg2 [] with win := w }
    s.seq = none ∧ s.mode ≠ .uninit ∧ s.win = w := ⟨rfl, nofun, rfl⟩

/-! ### Witnesses: rules of the whole machine -/

/-- A next state of an instruction that moves the window, of one that does not, and of one that is INIT. -/
theorem witness_WindowAndConfigLifecycle :
    (let s : State := { idle cfg2 [] with win := some (win20 4 14) }
     (∃ t, exec (.scrollFwd 2) s = .next t ∧ t.win = some (win20 6 15)) ∧ (∃ t, exec .clear s = .next t ∧ t.win = s.win)
       ∧ ∃ t, exec (.backlight true) s = .next t)
      ∧ isInitOp (.scrollFwd 2) = false ∧ isInitOp .clear = false :=
  ⟨⟨⟨_, rfl, by decide⟩, ⟨_, rfl, by decide⟩, _, rfl⟩, rfl, rfl⟩

theorem witness_NothingRunsBeforeInit : State.reset.mode = .uninit ∧ State.reset.seq = none
    ∧ (∀ i ∈ [Instr.clear, .pad [] 0 [] .left, .view, .cancel], i.hostOp = true ∧ isInitOp i = false) := by decide

/-- A request; a statement; a table word of each kind; a turn of another and of the current requester; no work at all. -/
theorem witness_StepRunsTheFetchedInstruction :
    (let s : State := { idle cfg2 [] with port := [{ req := { tag := 0x03#8, args := [] }, notBefore := 0 }] }
     s.seq = none ∧ s.turns = [] ∧ s.port = [{ req := { tag := 0x03#8, args := [] }, notBefore := 0 }]
       ∧ decode (.request { tag := 0x03#8, args := [] }) = .ok .clear)
      ∧ (let s := rotating (rot0 0 0 2) [.call (.data 0x48#8), .release] false []
         s.undisturbed ∧ s.seq = some (rotSeq [.call (.data 0x48#8), .release]))
      ∧ (decodeTableWord 8 0x01 = some (.writeCmd 0#8 .instruction) ∧ decodeTableWord 8 0xFF = some (.setDdram 0x7F#7)
          ∧ decodeTableWord 32 0xACA85C58 = some (.commandFrame 0xA#4 0x5#4 .instruction))
      ∧ (let s := pair 0 (some 0) midFrame [.functionSet] [1]
         s.turns = 1 :: [] ∧ ∃ r, s.parked.find? (fun r => r.id == 1) = some r)
      ∧ (let s := pair 0 (some 0) midFrame [.functionSet] [0]
         s.turns = 0 :: [] ∧ ∀ r ∈ s.parked, r.id ≠ 0)
      ∧ (State.reset.seq = none ∧ State.reset.turns = [] ∧ State.reset.port = []) :=
  ⟨by decide, ⟨⟨rfl, nofun⟩, rfl⟩, by decide, ⟨rfl, _, rfl⟩, by decide, rfl, rfl, rfl⟩

/-- A CANCEL behind a CLEAR, arriving exactly now. -/
theorem witness_CancelIsTakenAtOnce :
    let clear : Arrival := { req := { tag := 0x03#8, args := [] }, notBefore := 0 }
    let cancel : Arrival := { req := Request.cancel, notBefore := 1 }
    let s : State := { rotating (rot0 0 1 2) [] false [] with trace := [.wait 0], port := [clear, cancel, clear] }
    s.seq = some (rotSeq []) ∧ s.turns = [] ∧ s.port = [clear] ++ cancel :: [clear]
      ∧ (∀ b ∈ [clear], b.req ≠ Request.cancel) ∧ cancel.req = Request.cancel ∧ cancel.notBefore ≤ s.trace.length := by
  decide

/-- A CLEAR, and a CANCEL that arrives after the next event, wait while a rotating DISPLAY makes a step. -/
theorem witness_OtherRequestsAreHeld :
    let s : State := { rotating (rot0 0 1 2) [] false [] with
      port := [{ req := { tag := 0x03#8, args := [] }, notBefore := 0 }, { req := Request.cancel, notBefore := 1 }] }
    s.Inv ∧ s.seq.isSome = true ∧ (∀ a ∈ s.port, a.req = Request.cancel → s.trace.length < a.notBefore)
      ∧ ∃ t, step s = .next t := by
  have h := rotating_inv (rot0 0 1 2) [] false [] nofun
  exact ⟨⟨h.solo, h.seqOk, h.rot, h.cancel, h.cfg, h.cfgLegal, h.window, h.winWidth, h.lockOk⟩, rfl, by decide, _, rfl⟩

/-- Steps that move MODE: out of ROTATING, and one that keeps it. -/
theorem witness_ModeChangesOnlyAsListed :
    ((idle cfg2 []).Inv ∧ ∃ t, step (idle cfg2 []) = .next t)
      ∧ (let s := rotating (rot0 3 3 2) [] false []
         s.Inv ∧ ∃ t, step s = .next t ∧ t.mode = .idle)
      ∧ (let s := rotating (rot0 3 2 2) [] false []
         s.Inv ∧ ∃ t, step s = .next t ∧ t.mode = .rotating) :=
  ⟨⟨idle_inv [] none nofun, _, rfl⟩, ⟨rotating_inv _ _ _ _ nofun, _, rfl, by decide⟩, rotating_inv _ _ _ _ nofun, _, rfl, by decide⟩

theorem witness_InvariantKeptByEveryStep :
    (let s := rotating (rot0 3 0 2) [.call .rotStep] false [.ok]
     s.Inv ∧ ∃ t, step s = .next t)
      ∧ (let s := bothRotate (rot0 3 3 2) [] false [] []
         s.Shared ∧ ∃ t, step s = .next t)
      ∧ (let s := bothRotate (rot0 3 3 2) [] false [] [1]
         s.Shared ∧ ∃ t, step s = .next t) :=
  ⟨⟨rotating_inv _ _ _ _ (by decide), _, rfl⟩, ⟨bothRotate_shared _ _ _ _ _ nofun, _, rfl⟩,
    bothRotate_shared _ _ _ _ _ nofun, _, rfl⟩

/-- The two clauses: a step, and a record that is of no tag's list. -/
theorem witness_NoElementIsReadWithoutValue :
    ((idle cfg2 []).Inv ∧ ∃ t, step (idle cfg2 []) = .next t)
      ∧ (let s : State := { idle cfg2 [] with port := [{ req := { tag := 0x03#8, args := [.num 1] }, notBefore := 0 }] }
         s.Inv ∧ step s = .refused .malformedOperands)
      ∧ (let s := bothRotate (rot0 3 0 2) [.call .rotStep] false [] [1]
         s.Shared ∧ ∃ t, step s = .next t)
      ∧ (let s : State := { State.reset with port := [{ req := { tag := 0x03#8, args := [.num 1] }, notBefore := 0 }] }
         s.Shared ∧ step s = .refused .malformedOperands) :=
  by
  have h := idle_inv [] none nofun
  exact ⟨⟨h, _, rfl⟩, ⟨⟨h.solo, h.seqOk, h.rot, h.cancel, h.cfg, h.cfgLegal, h.window, h.winWidth, h.lockOk⟩, rfl⟩,
    ⟨bothRotate_shared (rot0 3 0 2) [.call .rotStep] false [] [1] (by decide), _, rfl⟩,
    ⟨by show ([0] : List Nat).Nodup; decide, .inl rfl, by simp [State.reset, State.resetWith, Params.default],
      by simp [State.reset, State.resetWith, State.othersRotate, Params.default],
      by simp [State.reset, State.resetWith], fun _ => rfl⟩, rfl⟩

/-- A step with a write, and with a wait. -/
theorem witness_OneEventAtMostAStep :
    (let s := rotating (rot0 3 0 2) [.call (.nibbleEnClear 0xF#4 .data)] false [.ok]
     s.Inv ∧ ∃ t, step s = .next t ∧ t.trace = [.busWrite cfg2.addr 0xF9#8 .ok])
      ∧ (let s := rotating (rot0 3 0 2) [.call (.wait 0)] false []
         s.Inv ∧ ∃ t, step s = .next t ∧ t.trace = [.wait 0]) :=
  ⟨⟨rotating_inv _ _ _ _ (by decide), _, rfl, by decide⟩, rotating_inv _ _ _ _ (by decide), _, rfl, by decide⟩

theorem witness_RwIsNeverSet :
    let s := rotating (rot0 3 0 2) [.call (.nibbleEnClear 0xF#4 .data)] false [.ok]
    s.Inv ∧ s.par.wf = true ∧ s.rwClear ∧ ∃ t, step s = .next t :=
  ⟨rotating_inv _ _ _ _ (by decide), by decide, nofun, _, rfl⟩

/-- Each element without a value, in states no run reaches where it is CFG, in an operation and at the start of one, the
last window moves its precondition admits; and each clause of WIN_CREATE's precondition failing at its boundary. -/
theorem witness_MicroOperationsStopWithoutTheirState :
    ((between []).seq = some clearSeq ∧ (between []).win = none ∧ (between []).rot = none)
      ∧ (let s : State := { rotating (rot0 3 0 2) [] false [] with cfg := none }
         s.seq = some (rotSeq []) ∧ s.cfg = none ∧ s.rot.isSome = true)
      ∧ (let s : State := { idle cfg2 [] with cfg := none, win := some (win20 4 14) }
         s.seq = none ∧ s.mode ≠ .uninit ∧ s.cfg = none ∧ s.win = some (win20 4 14)
           ∧ (win20 4 14).ws + (win20 4 14).wl + 2 ≤ (win20 4 14).buf.length ∧ 4 ≤ (win20 4 14).ws)
      ∧ ¬ (2 < ([1#8, 2#8] : Str).length) ∧ ¬ (1 ≤ 0)
      ∧ ¬ (([0x3C#8] : Str).length + ([0x3E#8] : Str).length + 1 ≤ 2) := by decide

end Sys2Proof.Tests
end

section
/-! SUPPORT. The invariants of 10_state over a whole step: of one requester (`State.Inv`), of what any number of them share
(`State.Shared`), what a step does to MODE, to the trace and to SEQ.pos, and what reset leaves. -/

namespace Sys2Proof.Machine

/-! ### The invariants, kept by every step -/

/-- From a state of the invariant a step has a next state of the invariant, or its request's record is of no tag's list (log
11). -/
theorem State.Inv.step_keeps {s : State} (h : s.Inv) :
    (∃ t, step s = .next t ∧ t.Inv)
      ∨ (step s = .refused .malformedOperands ∧ s.seq = none
          ∧ ∃ a rest, s.port = a :: rest ∧ decode (.request a.req) = .error .malformedOperands) := by
  obtain ⟨u, hu, hI, hcases⟩ := step_cases h
  have hseq : u.seq = s.seq := by rw [hu]
  rcases hcases with ⟨q, t, hq, hst, hm⟩ | ⟨-, -, hst⟩ | ⟨a, rest, t, hq, -, hst, hm⟩ | ⟨a, rest, hq, hp, hst, hd⟩
  · exact .inl ⟨t, hst, hm.inv hI (hseq.trans hq)⟩
  · exact .inl ⟨u, hst, hI⟩
  · exact .inl ⟨t, hst, hm.inv (hI.port rest) (hseq.trans hq)⟩
  · exact .inr ⟨hst, hq, a, rest, hp, hd⟩

/-- The same of what the requesters share, for the move of the requester in place. -/
theorem State.Shared.stepCur_keeps {s : State} (h : s.Shared) :
    (∃ t, stepCur s = .next t ∧ t.Shared)
      ∨ (stepCur s = .refused .malformedOperands ∧ s.seq = none
          ∧ ∃ a rest, s.port = a :: rest ∧ decode (.request a.req) = .error .malformedOperands) := by
  cases hq : s.seq with
  | some q => exact .inl (h.stepCur_inOp hq)
  | none =>
    rw [stepCur_none hq]
    cases hp : s.port with
    | nil => exact .inl ⟨s, fetchRequest_nil hp, h⟩
    | cons a rest =>
      have hS : ({ s with port := rest } : State).Shared := h.setPort rest
      rw [fetchRequest_cons hp]
      cases hd : decode (.request a.req) with
      | ok i => exact .inl (hS.exec_host hq i)
      | error e =>
        by_cases ht : hostTag a.req.tag = true
        · exact .inr ⟨by simp [ht], rfl, a, rest, rfl, decodeRequest_error ht hd⟩
        · refine .inl ⟨({ s with port := rest } : State).refuse .unknownOp, by simp [ht], ?_⟩
          rw [State.refuse_idle (s := { s with port := rest }) hq]
          exact hS.report _

/-! ### MODE (10_state R37) -/

@[simp] theorem State.inInit_setTodo (l : List Stmt) (s : State) : (s.setTodo l).inInit = s.inInit := by
  cases hq : s.seq <;> simp [State.inInit, hq]

@[simp] theorem State.inInit_emit (e : Event) (s : State) : (s.emit e).inInit = s.inInit := by
  cases hq : s.seq <;> simp [State.inInit, hq]

@[simp] theorem State.inInit_drawn (s : State) : s.drawn.inInit = s.inInit := by
  simp [State.inInit]

/-- MODE after a move of an operation: as before, or IDLE, or UNINIT in INIT. -/
def goesOnOrEnds (inInit : Bool) (m m' : Mode) : Prop := m' = m ∨ m' = .idle ∨ (inInit = true ∧ m' = .uninit)

/-- `raise` ends in IDLE, or in UNINIT in INIT (60_exceptions R280). -/
theorem raise_mode_ends (s : State) (e : ErrCode) (m : Mode) : goesOnOrEnds s.inInit m (s.raise e).mode := by
  cases hi : s.inInit <;> simp [goesOnOrEnds, hi]

theorem OpMove.mode {s t : State} (hm : OpMove s t) : goesOnOrEnds s.inInit s.mode t.mode := by
  cases hm with
  | pushed l hl => exact .inl rfl
  | waited n => exact .inl rfl
  | wrote c v hc hv => exact .inl (by simp)
  | failed c v hc hv => simpa using raise_mode_ends (s.drawn.emit (.busWrite c.addr v .busError)) .transportError s.mode
  | raised e => exact raise_mode_ends s e s.mode
  | took tx l hl hlock htx => exact .inl rfl
  | turned r r' l hl hm hr hb => exact .inl rfl

theorem OpStep.mode {s t : State} {q : Seq} (hm : OpStep s q t) : goesOnOrEnds s.inInit s.mode t.mode := by
  cases hm with
  | ran st rest t ht hmv => simpa using hmv.mode
  | released rest ht => exact .inl (by simp)
  | finished st v ht hr => exact .inr (.inl (by simp))
  | rotated r ht hret hr hc => exact .inr (.inl (by simp))
  | looped ht hret => exact .inl rfl
  | cancelled rest hd => exact .inl rfl

/-- An operation moves MODE as listed: it runs in BUSY or ROTATING, an INIT in BUSY only. -/
theorem modeMove_of_goesOnOrEnds {inInit : Bool} {m m' : Mode} (hm : m = .busy ∨ m = .rotating)
    (hi : inInit = true → m = .busy) (h : goesOnOrEnds inInit m m') : modeMove inInit m m' = true := by
  rcases h with rfl | rfl | ⟨hin, rfl⟩
  · rcases hm with rfl | rfl <;> rfl
  · rcases hm with rfl | rfl <;> rfl
  · rw [hi hin, hin]
    rfl

theorem HostMove.mode {s t : State} (hm : HostMove s t) :
    t.mode = s.mode ∨ t.mode = .busy ∨ (s.mode ≠ .uninit ∧ (t.mode = .rotating ∨ t.mode = .idle)) := by
  cases hm with
  | answered r => exact .inl rfl
  | cancelled => exact .inl rfl
  | started w op st v l hm hop hl hw => exact .inr (.inl rfl)
  | took op st v tx l hm hop hl htx => exact .inr (.inl rfl)
  | raised w op ret e hm hop hw => exact .inr (.inr ⟨hm, .inr (by simp [hop])⟩)
  | inited c op st v l hc hl => exact .inr (.inl rfl)
  | rotates op r hm hop => exact .inr (.inr ⟨hm, .inl rfl⟩)

/-- A request taken moves MODE as listed: it is taken in UNINIT or IDLE. -/
theorem HostMove.modeMove {s t : State} (hm : HostMove s t) (hs : s.mode = .uninit ∨ s.mode = .idle) (inInit : Bool) :
    modeMove inInit s.mode t.mode = true := by
  rcases hm.mode with ht | ht | ⟨hu, ht⟩
  · rw [ht]
    rcases hs with hs | hs <;> rw [hs] <;> rfl
  · rw [ht]
    rcases hs with hs | hs <;> rw [hs] <;> rfl
  · rw [hs.resolve_left hu]
    rcases ht with ht | ht <;> rw [ht] <;> rfl

/-! ### Events (10_state R44, 20_memory R71, R84) -/

/-- An operation that goes on from `s` to `t` is the same, its SEQ.pos higher by `n`. -/
def CountsBy (n : Nat) (s t : State) : Prop :=
  ∀ q q', s.seq = some q → t.seq = some q' → q'.op = q.op ∧ q'.pos = q.pos + n

theorem CountsBy.ended {n : Nat} {s t : State} (h : t.seq = none) : CountsBy n s t :=
  fun _ _ _ hq' => by simp [h] at hq'

theorem CountsBy.map {n : Nat} {s t : State} {f : Seq → Seq} (h : t.seq = s.seq.map f)
    (hf : ∀ q, (f q).op = q.op ∧ (f q).pos = q.pos + n) : CountsBy n s t := by
  intro q q' hq hq'
  obtain rfl : f q = q' := by simpa [h, hq] using hq'
  exact hf q

/-- From `s` to `t` the events `evs` are emitted: at most one, a write only to CFG.addr, counted by the SEQ.pos of an
operation that goes on. -/
structure Emits (evs : List Event) (s t : State) : Prop where
  trace : t.trace = s.trace ++ evs
  one : evs.length ≤ 1
  addr : ∀ a v ans, Event.busWrite a v ans ∈ evs → ∃ c, s.cfg = some c ∧ a = c.addr
  pos : CountsBy evs.length s t

theorem Emits.silent {s t : State} (htr : t.trace = s.trace) (hpos : CountsBy 0 s t) : Emits [] s t :=
  ⟨by simp [htr], by simp, nofun, hpos⟩

theorem Emits.wait {s t : State} {n : Nat} (htr : t.trace = s.trace ++ [.wait n]) (hpos : CountsBy 1 s t) :
    Emits [.wait n] s t :=
  ⟨htr, by simp, by simp, hpos⟩

theorem Emits.write {s t : State} {c : Cfg} {v : Byte} {ans : BusAnswer} (hc : s.cfg = some c)
    (htr : t.trace = s.trace ++ [.busWrite c.addr v ans]) (hpos : CountsBy 1 s t) : Emits [.busWrite c.addr v ans] s t := by
  refine ⟨htr, by simp, fun a v' ans' h => ?_, hpos⟩
  obtain ⟨rfl, -, -⟩ := Event.busWrite.inj (List.mem_singleton.mp h)
  exact ⟨c, hc, rfl⟩

/-- The events of the rest of a step, once its operation's statement list or the turns are past it. -/
theorem Emits.rest {evs : List Event} {s u t : State} {f : Seq → Seq} (h : Emits evs u t) (htr : u.trace = s.trace)
    (hc : u.cfg = s.cfg) (hs : u.seq = s.seq.map f) (hf : ∀ q, (f q).op = q.op ∧ (f q).pos = q.pos) : Emits evs s t := by
  refine ⟨htr ▸ h.trace, h.one, hc ▸ h.addr, fun q q' hq hq' => ?_⟩
  rw [← (hf q).1, ← (hf q).2]
  exact h.pos (f q) q' (by rw [hs, hq]; rfl) hq'

theorem OpMove.emits {s t : State} (hm : OpMove s t) : ∃ evs, Emits evs s t := by
  cases hm with
  | pushed l hl => exact ⟨[], .silent rfl (.map rfl fun _ => ⟨rfl, rfl⟩)⟩
  | waited n => exact ⟨[.wait n], .wait rfl (.map rfl fun _ => ⟨rfl, rfl⟩)⟩
  | wrote c v hc hv =>
    refine ⟨[.busWrite c.addr v .ok], .write hc (by simp) (.map (f := fun q => { q with
      pos := q.pos + 1, todo := .call (.wait Config.tSettle) :: q.todo }) ?_ fun _ => ⟨rfl, rfl⟩)⟩
    simp [Function.comp_def]
  | failed c v hc hv => exact ⟨[.busWrite c.addr v .busError], .write hc (by simp) (.ended (by simp))⟩
  | raised e => exact ⟨[], .silent (by simp) (.ended (by simp))⟩
  | took tx l hl hlock htx => exact ⟨[], .silent rfl (.map rfl fun _ => ⟨rfl, rfl⟩)⟩
  | turned r r' l hl hm hr hb => exact ⟨[], .silent rfl (.map rfl fun _ => ⟨rfl, rfl⟩)⟩

theorem OpStep.emits {s t : State} {q : Seq} (hm : OpStep s q t) : ∃ evs, Emits evs s t := by
  cases hm with
  | ran st rest t ht hmv =>
    obtain ⟨evs, he⟩ := hmv.emits
    exact ⟨evs, he.rest rfl rfl rfl fun _ => ⟨rfl, rfl⟩⟩
  | released rest ht => exact ⟨[], .silent (by simp) (.map (State.releaseLock_seq _) fun _ => ⟨rfl, rfl⟩)⟩
  | finished st v ht hr => exact ⟨[], .silent (by simp) (.ended (by simp))⟩
  | rotated r ht hret hr hc => exact ⟨[], .silent (by simp) (.ended (by simp))⟩
  | looped ht hret => exact ⟨[], .silent rfl (.map rfl fun _ => ⟨rfl, rfl⟩)⟩
  | cancelled rest hd => exact ⟨[], .silent rfl (.map (f := id) Option.map_id'.symm fun _ => ⟨rfl, rfl⟩)⟩

/-- Taking a request emits nothing. -/
theorem HostMove.trace {s t : State} (hm : HostMove s t) : t.trace = s.trace := by
  cases hm with
  | raised w op ret e hm hop hw => simp
  | answered r => rfl
  | cancelled => rfl
  | started w op st v l hm hop hl hw => rfl
  | took op st v tx l hm hop hl htx => rfl
  | inited c op st v l hc hl => rfl
  | rotates op r hm hop => rfl

theorem step_emits {s t : State} (h : s.Inv) (hst : step s = .next t) : ∃ evs, Emits evs s t := by
  obtain ⟨u, hu, -, hcases⟩ := step_cases h
  have hnext : ∀ {t'}, step s = .next t' → t' = t := fun h' => Host.Outcome.next.inj (h'.symm.trans hst)
  have htr : u.trace = s.trace := by rw [hu]
  rcases hcases with ⟨q, t', hq, h', hm⟩ | ⟨hq, -, h'⟩ | ⟨a, rest, t', hq, -, h', hm⟩ | ⟨a, rest, -, -, h', -⟩
  · obtain rfl := hnext h'
    obtain ⟨evs, he⟩ := hm.emits
    exact ⟨evs, he.rest (f := id) htr (by rw [hu]) (by simp [hu]) fun _ => ⟨rfl, rfl⟩⟩
  · obtain rfl := hnext h'
    exact ⟨[], .silent htr fun _ _ hq' => by simp [hq] at hq'⟩
  · obtain rfl := hnext h'
    exact ⟨[], .silent (hm.trace.trans htr) fun _ _ hq' => by simp [hq] at hq'⟩
  · exact absurd (hst.symm.trans h') nofun

/-! ### The flags of a bus byte (10_state R46, 30_encoding R101 to R106) -/

/-- A flag bit read back from itself. -/
theorem flagIf_and_self {a : Byte} (on : Bool) (ha : a ∈ flagBits) : (flagIf on a &&& a != 0#8) = on := by
  simp only [flagBits, List.mem_cons, List.not_mem_nil, or_false] at ha
  rcases ha with rfl | rfl | rfl | rfl <;> cases on <;> rfl

/-- Each flag of a composed byte is the field it was composed of, at any legal positions. -/
theorem busByteOf_flags {p : Params} (h : p.wf = true) (d : Nibble) (bl en rw rs : Bool) :
    enOf p (busByteOf p d bl en rw rs) = en ∧ blOf p (busByteOf p d bl en rw rs) = bl
      ∧ rwOf p (busByteOf p d bl en rw rs) = rw ∧ (busByteOf p d bl en rw rs &&& p.bitRs != 0#8) = rs := by
  obtain ⟨hrs, hrw, hen, hbl, n1, n2, n3, n4, n5, n6⟩ := Params.wf_flags h
  have off : ∀ {a b : Byte} (on : Bool), a ∈ flagBits → b ∈ flagBits → a ≠ b → flagIf on a &&& b = 0#8 :=
    fun on ha hb hab => flagIf_and on (flagBits_and ha hb hab)
  refine ⟨?_, ?_, ?_, ?_⟩
  · simp [enOf, busByteOf, byte_or_and, nibbleByte_flag d hen, off rs hrs hen n2, off rw hrw hen n4,
      off bl hbl hen n6.symm, flagIf_and_self en hen]
  · simp [blOf, busByteOf, byte_or_and, nibbleByte_flag d hbl, off rs hrs hbl n3, off rw hrw hbl n5, off en hen hbl n6,
      flagIf_and_self bl hbl]
  · simp [rwOf, busByteOf, byte_or_and, nibbleByte_flag d hrw, off rs hrs hrw n1, off bl hbl hrw n5.symm,
      off en hen hrw n4.symm, flagIf_and_self rw hrw]
  · simp [busByteOf, byte_or_and, nibbleByte_flag d hrs, off rw hrw hrs n1.symm, off bl hbl hrs n3.symm,
      off en hen hrs n2.symm, flagIf_and_self rs hrs]

theorem rsOf_busByteOf {p : Params} (h : p.wf = true) (d : Nibble) (bl en rw : Bool) (m : RegSel) :
    rsOf p (busByteOf p d bl en rw m.isData) = m := by
  obtain ⟨-, -, -, hrs⟩ := busByteOf_flags h d bl en rw m.isData
  rw [rsOf, hrs]
  cases m <;> rfl

theorem hiNibble_or (a b : Byte) : hiNibble (a ||| b) = hiNibble a ||| hiNibble b := by
  simp [hiNibble, BitVec.extractLsb'_or]

theorem hiNibble_flagIf {a : Byte} (on : Bool) (ha : a ∈ flagBits) : hiNibble (flagIf on a) = 0#4 := by
  simp only [flagBits, List.mem_cons, List.not_mem_nil, or_false] at ha
  rcases ha with rfl | rfl | rfl | rfl <;> cases on <;> rfl

theorem hiNibble_busByteOf {p : Params} (h : p.wf = true) (d : Nibble) (bl en rw rs : Bool) :
    hiNibble (busByteOf p d bl en rw rs) = d := by
  obtain ⟨hrs, hrw, hen, hbl, -⟩ := Params.wf_flags h
  simp [busByteOf, hiNibble_or, hiNibble_nibbleByte, hiNibble_flagIf _ hrs, hiNibble_flagIf _ hrw, hiNibble_flagIf _ hen,
    hiNibble_flagIf _ hbl]

/-- The byte of a nibble frame with EN as given. -/
theorem framed_flags {p : Params} (h : p.wf = true) (d : Nibble) (en : Bool) (m : RegSel) :
    enOf p (busByteOf p d true en false m.isData) = en ∧ blOf p (busByteOf p d true en false m.isData) = true
      ∧ rwOf p (busByteOf p d true en false m.isData) = false ∧ rsOf p (busByteOf p d true en false m.isData) = m
      ∧ hiNibble (busByteOf p d true en false m.isData) = d := by
  obtain ⟨hen, hbl, hrw, -⟩ := busByteOf_flags h d true en false m.isData
  exact ⟨hen, hbl, hrw, rsOf_busByteOf h d true en false m, hiNibble_busByteOf h d true en false m.isData⟩

theorem enOf_backlightByte {p : Params} (h : p.wf = true) (on : Bool) : enOf p (backlightByte p on) = false := by
  obtain ⟨-, -, hen, hbl, -, -, -, -, -, hne⟩ := Params.wf_flags h
  simp [enOf, backlightByte, flagIf_and on (flagBits_and hbl hen hne.symm)]

theorem blOf_backlightByte {p : Params} (h : p.wf = true) (on : Bool) : blOf p (backlightByte p on) = on := by
  obtain ⟨-, -, -, hbl, -⟩ := Params.wf_flags h
  exact flagIf_and_self on hbl

/-! ### Reads of an element that holds no value (10_state R49) -/

theorem busWriteOp_noCfg {s : State} (h : s.cfg = none) (v : Byte) : busWriteOp v s = .fault (.noValue .cfg) :=
  withCfg_none h _

theorem writeRawBody_noCfg {s : State} (h : s.cfg = none) (str : Str) (line pos : Nat) :
    writeRawBody str line pos s = .fault (.noValue .cfg) :=
  withCfg_none h _

theorem renderBody_noCfg {s : State} (h : s.cfg = none) (str : Str) (line : Nat) :
    renderBody str line s = .fault (.noValue .cfg) :=
  withCfg_none h _

theorem renderMoved_noCfg {s : State} (h : s.cfg = none) (op : Instr) (w : Window) :
    renderMoved op w s = .fault (.noValue .cfg) :=
  renderBody_noCfg (by simpa using h) _ _

/-- A window micro-operation without a window. -/
theorem exec_noWin {s : State} {q : Seq} (hq : s.seq = some q) (h : s.win = none) :
    exec .winView s = .fault (.noValue .win)
      ∧ ∀ n, exec (.winFwd n) s = .fault (.noValue .win) ∧ exec (.winBwd n) s = .fault (.noValue .win) :=
  ⟨(inOp_some hq _).trans (withWin_none h _),
    fun _ => ⟨(inOp_some hq _).trans (withWin_none h _), (inOp_some hq _).trans (withWin_none h _)⟩⟩

theorem exec_rotStep_noCfg {s : State} {q : Seq} (hq : s.seq = some q) (hr : s.rot.isSome = true) (h : s.cfg = none) :
    exec .rotStep s = .fault (.noValue .cfg) := by
  obtain ⟨r, hr⟩ := Option.isSome_iff_exists.mp hr
  exact (inOp_some hq _).trans ((withRot_some hr _).trans (withCfg_none h _))

/-- WIN_CREATE outside its precondition (43_scroll_window R210; 93 U15). -/
theorem exec_winCreate_refused {s : State} {q : Seq} (hq : s.seq = some q) {buf b e : Str} {n : Nat} (line : Nat)
    (h : ¬ (n < buf.length ∧ 1 ≤ n ∧ b.length + e.length + 1 ≤ n)) :
    exec (.winCreate buf n line b e) s = .refused .winCreatePrecondition := by
  have hpre : ¬ winCreatePre buf n b e = true := by simpa [winCreatePre, and_assoc] using h
  exact (inOp_some hq _).trans (if_neg hpre)

theorem exec_posCursor_noCfg {s : State} (hs : s.seq.isSome = true ∨ s.mode ≠ .uninit) (h : s.cfg = none) (line col : Nat) :
    exec (.posCursor line col) s = .fault (.noValue .cfg) := by
  cases hq : s.seq with
  | some q => simp only [exec, execPosCursor, hq, withCfg_none h]
  | none => simp only [exec, execPosCursor, hq, whenInit_init (hs.resolve_left (by simp [hq])), withCfg_none h]

theorem exec_writeRaw_noCfg {s : State} (hs : s.seq.isSome = true ∨ s.mode ≠ .uninit) (h : s.cfg = none) (str : Str)
    (line pos : Nat) : exec (.writeRaw str line pos) s = .fault (.noValue .cfg) := by
  cases hq : s.seq with
  | some q => simp only [exec, execWriteRaw, hq, writeRawBody_noCfg h]
  | none =>
    simp only [exec, execWriteRaw, hq, whenInit_init (hs.resolve_left (by simp [hq]))]
    exact writeRawBody_noCfg (by simpa using h) _ _ _

/-- The start of an operation that no rule calls from inside another, past its check of MODE. -/
theorem started_read {s : State} (hq : s.seq = none) (hm : s.mode ≠ .uninit) (i : Instr) (k : Outc) :
    heldWhenBusy i s (whenInit s k) = k :=
  (heldWhenBusy_idle i hq _).trans (whenInit_init hm k)

theorem exec_display_noCfg {s : State} (hq : s.seq = none) (hm : s.mode ≠ .uninit) (h : s.cfg = none) (str : Str)
    (line : Nat) (align : Align) (ov : Overflow) (budget : Nat) :
    exec (.display str line align ov budget) s = .fault (.noValue .cfg) := by
  simp only [exec, execDisplay, started_read hq hm, withCfg_none h]

theorem exec_scroll_noCfg {s : State} (hq : s.seq = none) (hm : s.mode ≠ .uninit) (h : s.cfg = none) {w : Window}
    (hw : s.win = some w) (n : Nat) :
    (w.ws + w.wl + n ≤ w.buf.length → exec (.scrollFwd n) s = .fault (.noValue .cfg))
      ∧ (n ≤ w.ws → exec (.scrollBwd n) s = .fault (.noValue .cfg)) := by
  constructor
  · intro hn
    have hf : w.fwd n = some _ := (Window.fwd_eq w n).trans (if_neg (Nat.not_lt.mpr hn))
    simp only [exec, execScrollFwd, started_read hq hm, hw, hf, renderMoved_noCfg h]
  · intro hn
    have hb : w.bwd n = some _ := (Window.bwd_eq w n).trans (if_neg (Nat.not_lt.mpr hn))
    simp only [exec, execScrollBwd, started_read hq hm, hw, hb, renderMoved_noCfg h]

/-! ### Reset (10_state R50) -/

/-- After reset every requester has a number of its own. -/
theorem resetWith_ids (p : Params) :
    ((State.resetWith p).cur :: (State.resetWith p).parked.map (fun r => r.id)).Nodup := by
  have hids : (State.resetWith p).parked.map (fun r => r.id) = (List.range (p.requesters - 1)).map (· + 1) := by
    simp [State.resetWith, Requester.fresh, Function.comp_def]
  rw [hids, List.nodup_cons]
  exact ⟨by simp [State.resetWith], List.nodup_range.map (fun _ _ => Nat.succ.inj)⟩

/-- After reset the other requesters have issued nothing. -/
theorem resetWith_parked {p : Params} {r : Requester} (h : r ∈ (State.resetWith p).parked) :
    r.mode = .uninit ∧ r.seq = none := by
  obtain ⟨k, -, rfl⟩ := List.mem_map.mp h
  exact ⟨rfl, rfl⟩

theorem resetWith_exclusive (p : Params) : (State.resetWith p).Exclusive :=
  ⟨resetWith_ids p, .inl rfl, fun _ hr => .inl (by rw [(resetWith_parked hr).2]; rfl)⟩

theorem resetWith_shared (p : Params) : (State.resetWith p).Shared := by
  have ho : (State.resetWith p).othersRotate = false := by
    simp only [State.othersRotate, List.any_eq_false, decide_eq_true_eq]
    intro r hr
    simp [(resetWith_parked hr).1]
  refine ⟨resetWith_ids p, .inl rfl, fun r hr => ?_, ?_, nofun, fun _ => rfl⟩
  · rw [(resetWith_parked hr).2]
    exact .inl (resetWith_parked hr).1
  · rw [ho]
    simp [State.resetWith]

theorem reset_inv : State.reset.Inv :=
  ⟨rfl, .inl rfl, by decide, nofun, fun h => absurd rfl h, nofun, nofun, nofun, nofun, fun _ => rfl, nofun⟩

/-! ### The statements -/

/-- Settles O54, by the moves of one requester and of any number of them. -/
theorem invariantKeptByEveryStep : Obligations.InvariantKeptByEveryStep := by
  refine ⟨fun s t h hst => ?_, fun s t h hst => ?_⟩
  · rcases h.step_keeps with ⟨t', ht, hI⟩ | ⟨hr, -⟩
    · obtain rfl := Host.Outcome.next.inj (hst.symm.trans ht)
      exact hI
    · exact absurd (hst.symm.trans hr) nofun
  · rcases h.takeTurn.stepCur_keeps with ⟨t', ht, hS⟩ | ⟨hr, -⟩
    · obtain rfl := Host.Outcome.next.inj (hst.symm.trans ht)
      exact hS
    · exact absurd (hst.symm.trans hr) nofun

/-- Settles O6: each flag of a composed byte reads back as composed. -/
theorem busByteFlags : Obligations.BusByteFlags := fun _ d m h =>
  ⟨framed_flags h d true m, framed_flags h d false m, rfl,
    fun on => ⟨enOf_backlightByte h on, rwOf_backlightByte h on, blOf_backlightByte h on⟩⟩

/-- Settles O53, by cases over the moves inside an operation and at the port. -/
theorem modeChangesOnlyAsListed : Obligations.ModeChangesOnlyAsListed := by
  intro s t h hst
  obtain ⟨u, hu, hI, hcases⟩ := step_cases h
  have hmode : u.mode = s.mode := by rw [hu]
  have hinit : u.inInit = s.inInit := by rw [hu]; rfl
  have hnext : ∀ {t'}, step s = .next t' → t' = t := fun h' => Host.Outcome.next.inj (h'.symm.trans hst)
  rcases hcases with ⟨q, t', hq, h', hm⟩ | ⟨hq, -, h'⟩ | ⟨a, rest, t', hq, -, h', hm⟩ | ⟨a, rest, -, -, h', -⟩
  · obtain rfl := hnext h'
    obtain ⟨hbusy, -, -, hi, -⟩ := h.inOp hq
    exact modeMove_of_goesOnOrEnds hbusy (fun e => hi (by rwa [State.inInit_some hq] at e)) (hinit ▸ hmode ▸ hm.mode)
  · obtain rfl := hnext h'
    rw [hmode]
    rcases (h.idle hq).1 with hs | hs <;> rw [hs] <;> rfl
  · obtain rfl := hnext h'
    exact hmode ▸ hm.modeMove (by simpa [hmode] using (h.idle hq).1) s.inInit
  · exact absurd (hst.symm.trans h') nofun

/-- Settles O56: each invariant's step has a next state but for a record of no tag's list. -/
theorem noElementIsReadWithoutValue : Obligations.NoElementIsReadWithoutValue :=
  ⟨fun _ h => h.step_keeps.imp_left fun ⟨t, ht, _⟩ => ⟨t, ht⟩,
    fun _ h => h.takeTurn.stepCur_keeps.imp_left fun ⟨t, ht, _⟩ => ⟨t, ht⟩⟩

/-- Settles O57, by the events of each move. -/
theorem oneEventAtMostAStep : Obligations.OneEventAtMostAStep := by
  intro s t h hst
  obtain ⟨evs, he⟩ := step_emits h hst
  exact ⟨evs, he.trace, he.one, he.addr, he.pos⟩

/-- Settles O55: the parameters of a reset decide only how many requesters are parked. -/
theorem invariantHoldsAtReset : Obligations.InvariantHoldsAtReset :=
  ⟨reset_inv, nofun, fun p => ⟨resetWith_exclusive p, resetWith_shared p⟩⟩

/-- Settles O59: the reads of 10_state R49, one by one. -/
theorem microOperationsStopWithoutTheirState : Obligations.MicroOperationsStopWithoutTheirState := by
  refine ⟨fun q s hq => ⟨exec_noWin hq, fun hr => (inOp_some hq _).trans (withRot_none hr _), fun hc => ?_,
    fun buf n line b e hpre => exec_winCreate_refused hq line hpre⟩, fun s hq hm hc => ?_⟩
  · have hw : ∀ v, inOp s (busWriteOp v s) = .fault (.noValue .cfg) := fun v =>
      (inOp_some hq _).trans (busWriteOp_noCfg hc v)
    have hs : s.seq.isSome = true ∨ s.mode ≠ .uninit := .inl (by simp [hq])
    exact ⟨fun _ => hw _, fun _ _ _ _ _ => hw _, fun _ _ => ⟨hw _, hw _, hw _⟩, hw _, hw _,
      fun hr => exec_rotStep_noCfg hq hr hc, fun str line col => ⟨exec_posCursor_noCfg hs hc line col,
        exec_writeRaw_noCfg hs hc str line col, (inOp_some hq _).trans (renderBody_noCfg hc str line)⟩⟩
  · exact ⟨fun str line col => ⟨exec_posCursor_noCfg (.inr hm) hc line col, exec_writeRaw_noCfg (.inr hm) hc str line col⟩,
      exec_display_noCfg hq hm hc, fun _ n hw => exec_scroll_noCfg hq hm hc hw n⟩

/-- Settles O60: the table of 10_state R50, field by field. -/
theorem resetValues : Obligations.ResetValues := ⟨rfl, rfl, rfl, rfl, rfl, rfl, rfl, rfl, rfl, rfl⟩

end Sys2Proof.Machine
end

section
/-! SUPPORT. RW of the bytes on the trace (20_memory R72) over a whole step: every move emits nothing, a wait, or a write of
a byte that was composed with RW clear (`OpMove`). -/

namespace Sys2Proof.Machine

/-- A trace with RW clear stays so where neither it nor the flag positions change. -/
theorem State.rwClear.of_same {s t : State} (h : s.rwClear) (hp : t.par = s.par) (htr : t.trace = s.trace) : t.rwClear := by
  unfold State.rwClear
  rw [hp, htr]
  exact h

theorem State.rwClear.emit_wait {s : State} (h : s.rwClear) (n : Nat) : (s.emit (.wait n)).rwClear := by
  intro e he a v ans hev
  rcases List.mem_append.mp he with hold | hnew
  · exact h e hold a v ans hev
  · exact absurd (hev.symm.trans (List.mem_singleton.mp hnew)) nofun

theorem State.rwClear.emit_busWrite {s : State} {v : Byte} (h : s.rwClear) (hv : rwOf s.par v = false) (a : BitVec 7)
    (ans : BusAnswer) : (s.emit (.busWrite a v ans)).rwClear := by
  intro e he a' v' ans' hev
  rcases List.mem_append.mp he with hold | hnew
  · exact h e hold a' v' ans' hev
  · obtain ⟨-, rfl, -⟩ := Event.busWrite.inj (hev.symm.trans (List.mem_singleton.mp hnew))
    exact hv

/-- A bus write with its answer drawn (40_transport R140). -/
theorem State.rwClear.drawn_emit_busWrite {s : State} {v : Byte} (h : s.rwClear) (hv : rwOf s.par v = false)
    (a : BitVec 7) (ans : BusAnswer) : (s.drawn.emit (.busWrite a v ans)).rwClear :=
  (h.of_same s.drawn_par s.drawn_trace).emit_busWrite (by rwa [s.drawn_par]) a ans

theorem OpMove.rwClear {s t : State} (hm : OpMove s t) (hp : s.par.wf = true) (h : s.rwClear) : t.rwClear := by
  cases hm with
  | pushed l hl => exact h.of_same rfl rfl
  | waited n => exact h.emit_wait n
  | wrote c v hc hv => exact (h.drawn_emit_busWrite (hv hp) c.addr .ok).of_same rfl rfl
  | failed c v hc hv =>
    exact (h.drawn_emit_busWrite (hv hp) c.addr .busError).of_same (State.raise_par _ _) (State.raise_trace _ _)
  | raised e => exact h.of_same (s.raise_par e) (s.raise_trace e)
  | took tx l hl hlock htx => exact h.of_same rfl rfl
  | turned r r' l hl hm hr hb => exact h.of_same rfl rfl

theorem OpStep.rwClear {s t : State} {q : Seq} (hm : OpStep s q t) (hp : s.par.wf = true) (h : s.rwClear) : t.rwClear := by
  cases hm with
  | ran st rest t ht hmv => exact hmv.rwClear hp (h.of_same rfl rfl)
  | released rest ht => exact h.of_same (State.releaseLock_par _) (State.releaseLock_trace _)
  | finished st v ht hr => exact h.of_same (s.finish_par st v) (s.finish_trace st v)
  | rotated r ht hret hr hc => exact h.of_same (State.finish_par _ _ s) (State.finish_trace _ _ s)
  | looped ht hret => exact h.of_same rfl rfl
  | cancelled rest hd => exact h.of_same rfl rfl

/-- Taking a request leaves the parameters. -/
theorem HostMove.par {s t : State} (hm : HostMove s t) : t.par = s.par := by
  cases hm with
  | raised w op ret e hm hop hw => simp
  | answered r => rfl
  | cancelled => rfl
  | started w op st v l hm hop hl hw => rfl
  | took op st v tx l hm hop hl htx => rfl
  | inited c op st v l hc hl => rfl
  | rotates op r hm hop => rfl

/-- Settles O58: each move's one byte is composed with RW clear, and taking a request emits nothing. -/
theorem rwIsNeverSet : Obligations.RwIsNeverSet := by
  intro s t hI hp h hst
  obtain ⟨u, rfl, -, hcases⟩ := step_cases hI
  have hnext : ∀ {t'}, step s = .next t' → t' = t := fun h' => Host.Outcome.next.inj (h'.symm.trans hst)
  rcases hcases with ⟨q, t', -, h', hm⟩ | ⟨-, -, h'⟩ | ⟨a, rest, t', -, -, h', hm⟩ | ⟨a, rest, -, -, h', -⟩
  · obtain rfl := hnext h'
    exact hm.rwClear hp (h.of_same rfl rfl)
  · obtain rfl := hnext h'
    exact h.of_same rfl rfl
  · obtain rfl := hnext h'
    exact h.of_same hm.par hm.trace
  · exact absurd (hst.symm.trans h') nofun

end Sys2Proof.Machine
end

section
/-! SUPPORT. The codes of 30_encoding: bytes by their fields, operands read back from a record, and what each decoder
answers for the codes of the rows of its layer and for every other one. -/

namespace Sys2Proof

/-! ### Bytes by their fields (30_encoding R101, R104) -/

theorem hiNibble_append_loNibble (b : Byte) : hiNibble b ++ loNibble b = b :=
  (BitVec.extractLsb'_append_extractLsb'_eq_extractLsb' rfl).trans BitVec.extractLsb'_eq_self

/-- Every bus byte is the byte of its own fields. -/
theorem tableByte_fields (b : Byte) :
    tableByte (hiNibble b) (b.getLsbD 3) (b.getLsbD 2) (b.getLsbD 1) (rsOfByte b).isData = b := by
  revert b
  decide

@[simp] theorem hiNibble_tableByte (d : Nibble) (bl en rw rs : Bool) : hiNibble (tableByte d bl en rw rs) = d := by
  revert d bl en rw rs
  decide

@[simp] theorem rsOfByte_tableByte (d : Nibble) (bl en rw : Bool) (m : RegSel) :
    rsOfByte (tableByte d bl en rw m.isData) = m := by
  cases m <;> revert d bl en rw <;> decide

/-- Byte A of a nibble frame: BL and EN set, RW clear (30_encoding R103). -/
theorem flags_enSet (d : Nibble) (m : RegSel) : tableByte d true true false m.isData &&& 0x0E#8 = 0x0C#8 := by
  cases m <;> revert d <;> decide

/-- Byte B is byte A with EN cleared (30_encoding R103). -/
theorem enSet_clear_en (d : Nibble) (m : RegSel) :
    tableByte d true true false m.isData &&& 0xFB#8 = tableByte d true false false m.isData := by
  cases m <;> revert d <;> decide

/-- No other byte has the flags of byte A. -/
theorem exists_enSet_of_flags {a : Byte} (h : a &&& 0x0E#8 = 0x0C#8) :
    ∃ (d : Nibble) (m : RegSel), a = tableByte d true true false m.isData := by
  have ha : ∀ a : Byte, a &&& 0x0E#8 = 0x0C#8 → a = tableByte (hiNibble a) true true false (rsOfByte a).isData := by
    decide
  exact ⟨_, _, ha a h⟩

/-! ### Frame words (30_encoding R104) -/

/-- A frame word is its four bytes, the first sent in front. -/
theorem append_frameBytes (w : BitVec 32) : frameByte w 0 ++ frameByte w 1 ++ frameByte w 2 ++ frameByte w 3 = w :=
  calc frameByte w 0 ++ frameByte w 1 ++ frameByte w 2 ++ frameByte w 3
      = w.extractLsb' 16 16 ++ frameByte w 2 ++ frameByte w 3 :=
        congrArg (fun v : BitVec 16 => v ++ frameByte w 2 ++ frameByte w 3)
          (BitVec.extractLsb'_append_extractLsb'_eq_extractLsb' rfl)
    _ = w.extractLsb' 8 24 ++ frameByte w 3 :=
        congrArg (fun v : BitVec 24 => v ++ frameByte w 3) (BitVec.extractLsb'_append_extractLsb'_eq_extractLsb' rfl)
    _ = w := (BitVec.extractLsb'_append_extractLsb'_eq_extractLsb' rfl).trans BitVec.extractLsb'_eq_self

theorem frameByte_append (a b c d : Byte) :
    frameByte (a ++ b ++ c ++ d) 0 = a ∧ frameByte (a ++ b ++ c ++ d) 1 = b
      ∧ frameByte (a ++ b ++ c ++ d) 2 = c ∧ frameByte (a ++ b ++ c ++ d) 3 = d := by
  have past : ∀ {v n : Nat} {x : BitVec v} {y : Byte}, 8 ≤ n →
      BitVec.extractLsb' n 8 (x ++ y) = BitVec.extractLsb' (n - 8) 8 x := BitVec.extractLsb'_append_eq_of_le
  exact ⟨(past (by decide)).trans ((past (by decide)).trans BitVec.extractLsb'_append_eq_left),
    (past (by decide)).trans ((past (by decide)).trans BitVec.extractLsb'_append_eq_right),
    (past (by decide)).trans BitVec.extractLsb'_append_eq_right, BitVec.extractLsb'_append_eq_right⟩

theorem decode_frame_append (a b c d : Byte) :
    decode (.frame (a ++ b ++ c ++ d)) =
      if a &&& 0x0E#8 = 0x0C#8 ∧ b = a &&& 0xFB#8 ∧ c &&& 0x0E#8 = 0x0C#8 ∧ d = c &&& 0xFB#8 ∧ rsOfByte a = rsOfByte c
      then .ok (.commandFrame (hiNibble b) (hiNibble d) (rsOfByte b)) else .error .notAFrame := by
  obtain ⟨ha, hb, hc, hd⟩ := frameByte_append a b c d
  simp only [decode, decodeFrame]
  rw [ha, hb, hc, hd]

theorem decode_frameWord (h l : Nibble) (m : RegSel) : decode (.frame (frameWord h l m)) = .ok (.commandFrame h l m) := by
  rw [frameWord, decode_frame_append]
  simp [flags_enSet, enSet_clear_en]

/-- What the decoder of frames accepts is the frame of that word. -/
theorem decode_frame_ok {w : BitVec 32} {i : Instr} (h : decode (.frame w) = .ok i) : encode i = .frame w ∧ i.wf = true := by
  rw [← append_frameBytes w, decode_frame_append] at h
  split at h
  · rename_i hw
    obtain ⟨ha, hb, hc, hd, hm⟩ := hw
    obtain ⟨hi, m, e0⟩ := exists_enSet_of_flags ha
    obtain ⟨lo, m', e2⟩ := exists_enSet_of_flags hc
    rw [e0, enSet_clear_en] at hb
    rw [e2, enSet_clear_en] at hd
    obtain rfl : m = m' := by simpa [e0, e2] using hm
    rw [hb, hd] at h
    simp only [hiNibble_tableByte, rsOfByte_tableByte] at h
    obtain rfl := Except.ok.inj h
    refine ⟨?_, rfl⟩
    rw [← append_frameBytes w, e0, hb, e2, hd]
    rfl
  · cases h

theorem decode_frame_error {w : BitVec 32} {e : Reject} (h : decode (.frame w) = .error e) : e = .notAFrame := by
  rw [← append_frameBytes w, decode_frame_append] at h
  split at h
  · cases h
  · exact (Except.error.inj h).symm

/-! ### Bus bytes (30_encoding R101, R103, R106) -/

theorem decode_bus_enSet (d : Nibble) (m : RegSel) :
    decode (.bus (tableByte d true true false m.isData)) = .ok (.nibbleEnSet d m) := by
  cases m <;> revert d <;> decide

theorem decode_bus_enClear (d : Nibble) (m : RegSel) :
    decode (.bus (tableByte d true false false m.isData)) = .ok (.nibbleEnClear d m) := by
  cases m <;> revert d <;> decide

theorem decode_bus_blClear {d : Nibble} {en rs : Bool} (h : (d == 0#4 && !en && !rs) = false) :
    decode (.bus (tableByte d false en false rs)) = .ok (.busByte d false en false rs) := by
  revert d en rs
  decide

theorem decode_bus_rwSet (d : Nibble) (bl en rs : Bool) :
    decode (.bus (tableByte d bl en true rs)) = .error .rwSet ∧ tableByte d bl en true rs &&& 0x02#8 = 0x02#8 := by
  revert d bl en rs
  decide

/-- With RW clear the decoder of bus bytes accepts, and answers a row of that byte (30_encoding R101). -/
theorem decode_bus_rwClear (d : Nibble) (bl en rs : Bool) :
    ∃ i, decode (.bus (tableByte d bl en false rs)) = .ok i ∧ encode i = .bus (tableByte d bl en false rs) ∧ i.wf = true := by
  obtain ⟨m, rfl⟩ : ∃ m : RegSel, rs = m.isData := by
    cases rs
    exacts [⟨.instruction, rfl⟩, ⟨.data, rfl⟩]
  match bl, en with
  | true, true => exact ⟨_, decode_bus_enSet d m, rfl, rfl⟩
  | true, false => exact ⟨_, decode_bus_enClear d m, rfl, rfl⟩
  | false, en =>
    cases h0 : (d == 0#4 && !en && !m.isData) with
    | false => exact ⟨_, decode_bus_blClear h0, rfl, rfl⟩
    | true =>
      simp only [Bool.and_eq_true, beq_iff_eq, Bool.not_eq_true'] at h0
      obtain ⟨⟨rfl, rfl⟩, hm⟩ := h0
      rw [hm]
      exact ⟨.backlightOff, rfl, rfl, rfl⟩

theorem decode_bus_ok {b : Byte} {i : Instr} (h : decode (.bus b) = .ok i) : encode i = .bus b ∧ i.wf = true := by
  rw [← tableByte_fields b] at h ⊢
  cases hrw : b.getLsbD 1 with
  | true =>
    rw [hrw, (decode_bus_rwSet _ _ _ _).1] at h
    cases h
  | false =>
    obtain ⟨j, hj, he, hw⟩ := decode_bus_rwClear (hiNibble b) (b.getLsbD 3) (b.getLsbD 2) (rsOfByte b).isData
    rw [hrw, hj] at h
    obtain rfl := Except.ok.inj h
    exact ⟨he, hw⟩

theorem decode_bus_error {b : Byte} {e : Reject} (h : decode (.bus b) = .error e) : e = .rwSet ∧ b &&& 0x02#8 = 0x02#8 := by
  rw [← tableByte_fields b] at h ⊢
  cases hrw : b.getLsbD 1 with
  | true =>
    obtain ⟨hd, hb⟩ := decode_bus_rwSet (hiNibble b) (b.getLsbD 3) (b.getLsbD 2) (rsOfByte b).isData
    rw [hrw, hd] at h
    exact ⟨(Except.error.inj h).symm, hb⟩
  | false =>
    obtain ⟨j, hj, -⟩ := decode_bus_rwClear (hiNibble b) (b.getLsbD 3) (b.getLsbD 2) (rsOfByte b).isData
    rw [hrw, hj] at h
    cases h

/-! ### LCD bytes (30_encoding R107 to R112) -/

theorem decode_lcd_setDdram (a : BitVec 7) : decode (.lcd .instruction (0x80#8 ||| a.setWidth 8)) = .ok (.setDdram a) := by
  revert a
  decide

theorem decode_lcd_setCgram (a : BitVec 6) : decode (.lcd .instruction (0x40#8 ||| a.setWidth 8)) = .ok (.setCgram a) := by
  revert a
  decide

/-- What the decoder of LCD bytes accepts is a command or data byte of that code. -/
theorem decode_lcd_ok {m : RegSel} {b : Byte} {i : Instr} (h : decode (.lcd m b) = .ok i) :
    encode i = .lcd m b ∧ i.wf = true := by
  have hd : ∀ b : Byte, b.getLsbD 7 = true → 0x80#8 ||| (b.setWidth 7).setWidth 8 = b := by decide
  have hc : ∀ b : Byte, b.getLsbD 7 = false → b.getLsbD 6 = true → 0x40#8 ||| (b.setWidth 6).setWidth 8 = b := by decide
  cases m with
  | data =>
    obtain rfl := Except.ok.inj h
    exact ⟨rfl, rfl⟩
  | instruction =>
    simp only [decode, decodeLcd] at h
    split at h
    · rename_i h7
      obtain rfl := Except.ok.inj h
      exact ⟨congrArg (Code.lcd .instruction) (hd b h7), rfl⟩
    · rename_i h7
      split at h
      · rename_i h6
        obtain rfl := Except.ok.inj h
        exact ⟨congrArg (Code.lcd .instruction) (hc b (by simpa using h7) h6), rfl⟩
      · split_ifs at h
        all_goals
          subst b
          obtain rfl := Except.ok.inj h
          exact ⟨rfl, rfl⟩

theorem decode_lcd_error {m : RegSel} {b : Byte} {e : Reject} (h : decode (.lcd m b) = .error e) : e = .notEmitted := by
  cases m with
  | data => cases h
  | instruction =>
    simp only [decode, decodeLcd] at h
    split_ifs at h
    exact (Except.error.inj h).symm

/-! ### Operands read back (30_encoding R114 to R116) -/

@[simp] theorem byteOf_toNat (b : Byte) : byteOf b.toNat = some b := by
  simp [byteOf, b.isLt]

@[simp] theorem bitOf_bitNum (on : Bool) : bitOf (bitNum on) = some on := by
  cases on <;> rfl

@[simp] theorem regSelOf_num (m : RegSel) : regSelOf m.num = some m := by
  cases m <;> rfl

@[simp] theorem alignOf_num (a : Align) : alignOf a.num = some a := by
  cases a <;> rfl

/-- Every byte is the code of a policy, 0 and 1 those of the named ones (30_encoding R116). -/
@[simp] theorem overflowOf_toNat (v : Byte) :
    overflowOf v.toNat = some (if v = 0#8 then .scroll else if v = 1#8 then .rotate else .unknown v) := by
  unfold overflowOf
  split
  · rename_i h
    simp [BitVec.eq_of_toNat_eq (y := 0#8) h]
  · rename_i h0
    split
    · rename_i h
      simp [BitVec.eq_of_toNat_eq (y := 1#8) h]
    · rename_i h1
      have h0' : v ≠ 0#8 := fun h => h0 (by simp [h])
      have h1' : v ≠ 1#8 := fun h => h1 (by simp [h])
      simp [h0', h1']

theorem overflowOf_num {ov : Overflow} (h : ov.wf = true) : overflowOf ov.num = some ov := by
  cases ov with
  | scroll => rfl
  | rotate => rfl
  | unknown v =>
    have hv : 2 ≤ v.toNat := of_decide_eq_true h
    have h0 : v ≠ 0#8 := by rintro rfl; simp at hv
    have h1 : v ≠ 1#8 := by rintro rfl; simp at hv
    exact (overflowOf_toNat v).trans (by rw [if_neg h0, if_neg h1])

/-! ### Requests (30_encoding R113, R118) -/

/-- "a decoder reads the tag and then that list" (30_encoding R118). -/
theorem decode_request {tag : Byte} {args : List Operand} {o : Op} {i : Instr} (ho : opOfTag tag = some o)
    (hi : decodeOp o args = some i) : decode (.request { tag := tag, args := args }) = .ok i := by
  simp [decode, decodeRequest, ho, hi]

/-! ### Every code (30_encoding R100) -/

/-- The code of a well-formed instruction decodes to it, where no other row has that code. -/
theorem decode_encode {i : Instr} (hw : i.wf = true) (hs : i.sharesCode = false) : decode (encode i) = .ok i := by
  cases i with
  | writeCmd b m => exact decode_request rfl (by simp [decodeOp, decWriteCmd])
  | init l n a b e t => rfl
  | clear => rfl
  | backlight on => exact decode_request rfl (by simp [decodeOp, decBacklight])
  | loadChars gs => rfl
  | posCursor line col => rfl
  | writeRaw s line pos => rfl
  | pad s n c a => exact decode_request rfl (by simp [decodeOp, decPad])
  | display s line a ov budget => exact decode_request rfl (by simp [decodeOp, decDisplay, overflowOf_num hw])
  | scrollFwd n => rfl
  | scrollBwd n => rfl
  | view => rfl
  | cancel => rfl
  | busWrite v => exact decode_request rfl (by simp [decodeOp, decBusWrite])
  | wait t => rfl
  | nibble x m => exact decode_request rfl (by simp [decodeOp, decNibble, show lowNibbleClear x = true from hw])
  | winCreate buf n line b e =>
    exact decode_request rfl (by simp [decodeOp, decWinCreate, show winCreatePre buf n b e = true from hw])
  | winView => rfl
  | winFwd n => rfl
  | winBwd n => rfl
  | renderLine s line => rfl
  | rotStep => rfl
  | busByte d bl en rw rs =>
    obtain ⟨rfl, h0⟩ : bl = false ∧ (d == 0#4 && !en && !rs) = false := Bool.or_eq_false_iff.mp hs
    obtain rfl : rw = false := by simpa [Instr.wf] using hw
    exact decode_bus_blClear h0
  | nibbleEnSet d m => exact decode_bus_enSet d m
  | nibbleEnClear d m => exact decode_bus_enClear d m
  | commandFrame h l m => exact decode_frameWord h l m
  | backlightOff => rfl
  | wake => rfl
  | functionSet n => cases n <;> rfl
  | displayOn => rfl
  | clearDisplay => rfl
  | entryModeLeft => rfl
  | returnHome => rfl
  | setCgram a => exact decode_lcd_setCgram a
  | setDdram a => exact decode_lcd_setDdram a
  | data d => rfl
  | nibblePrewrite | backlightOn | set4bit => cases hs

/-- A code the spec gives to two rows decodes to a row of that code (log 20). -/
theorem decode_encode_shared {i : Instr} (hw : i.wf = true) (hs : i.sharesCode = true) :
    ∃ j, decode (encode i) = .ok j ∧ encode j = encode i := by
  have bus : ∀ d bl en rs, ∃ j, decode (.bus (tableByte d bl en false rs)) = .ok j
      ∧ encode j = .bus (tableByte d bl en false rs) := fun d bl en rs =>
    (decode_bus_rwClear d bl en rs).imp fun _ ⟨hd, he, _⟩ => ⟨hd, he⟩
  cases i with
  | set4bit => exact ⟨.returnHome, rfl, rfl⟩
  | nibblePrewrite d m => exact bus d true false m.isData
  | backlightOn => exact bus 0#4 true false false
  | busByte d bl en rw rs =>
    obtain rfl : rw = false := by simpa [Instr.wf] using hw
    exact bus d bl en rs
  | _ => cases hs

/-- Settles O3: an instruction's code decodes by its constructor, and what the decoders of bits accept or reject is said
for each by its arms. -/
theorem encodedInstructionsDecodeBack : Obligations.EncodedInstructionsDecodeBack := by
  refine ⟨fun i hw => ?_, fun _ => ⟨fun _ => decode_bus_ok, fun _ => decode_bus_error⟩,
    fun _ => ⟨fun _ => decode_frame_ok, fun _ => decode_frame_error⟩,
    fun _ _ => ⟨fun _ => decode_lcd_ok, fun _ => decode_lcd_error⟩⟩
  cases hs : i.sharesCode with
  | false => exact ⟨i, decode_encode hw hs, rfl, fun _ => rfl⟩
  | true =>
    obtain ⟨j, hd, he⟩ := decode_encode_shared hw hs
    exact ⟨j, hd, he, nofun⟩

end Sys2Proof
end

section
/-! SUPPORT. Rows that are bus writes or frames when called inside an operation (30_encoding R101 to R111), and the bytes of
a frame. -/

namespace Sys2Proof.Machine

/-! ### Called rows -/

/-- A row of one bus write is that write and its settle delay, whoever holds the lock (40_transport R140). -/
theorem State.InOp.callRuns {c : Cfg} {q : Seq} {s : State} {i : Instr} {evs : List Event} (h : s.InOp c q)
    (hr : Runs false s.par c (.call i) evs) : CallRuns i s evs :=
  hr.callRuns h.seq h.cfg h.undisturbed h.lock nofun

/-- Settles O8: each row's byte is the one its meaning writes. -/
theorem busByteRowsAreBusWrites : Obligations.BusByteRowsAreBusWrites := by
  intro c q s h
  have row : ∀ {i : Instr} {v w : Byte}, Runs false s.par c (.call i) (writeEvents c.addr v) → v = w →
      CallRuns i s [.busWrite c.addr w .ok, .wait 100] := by
    rintro i v _ hr rfl
    exact h.callRuns hr
  refine ⟨fun d bl en rw rs => row (busByte_call _ _ c d bl en rw rs) rfl,
    fun d m => ⟨row (enSet_call _ _ c d m) ?_, row (enClear_call _ _ c d m) ?_, row (prewrite_call _ _ c d m) ?_⟩,
    row (backlightOn_call _ _ c) rfl, row (backlightOff_call _ _ c) rfl⟩
  · simp [enSetByte, busByteOf, flagIf]
  · simp [enClearByte, busByteOf, flagIf]
  · simp [prewriteByte, busByteOf, flagIf]

/-- Settles O11: the two nibble frames of the row. -/
theorem commandFrameIsTwoNibbleFrames : Obligations.CommandFrameIsTwoNibbleFrames :=
  fun c _ _ hi lo m h => h.callRuns (commandFrame_call _ _ c hi lo m)

/-- A called row is one command frame of `b` in mode `m`, loaded into TX under the lock (40_transport R143). -/
def SendsFrame (c : Cfg) (s : State) (i : Instr) (m : RegSel) (b : Byte) : Prop :=
  CallRuns i s (frameEvents s.par c.addr m b)
    ∧ ∃ t, exec i s = .next t ∧ t.lock = some s.cur ∧ t.tx = some { byte := b, mode := m, phase := 0 }

theorem State.InCall.sendsFrame {c : Cfg} {q : Seq} {s : State} (h : s.InCall c q) {i : Instr} {m : RegSel} {b : Byte}
    (hi : ∀ u : State, u.seq.isSome = true → exec i u = .next (enterFrame b m u)) : SendsFrame c s i m b := by
  refine ⟨(frame_call s.par c i b m hi).callRuns h.seq h.cfg h.undisturbed (.inr ⟨h.lock, h.tx⟩) fun _ => ⟨h.lock, h.tx⟩,
    enterFrame b m s, hi s (by simp [h.seq]), ?_, ?_⟩ <;> simp [enterFrame, h.lock]

/-- Settles O12: each of these rows enters the frame of its byte. -/
theorem lcdBytesAreCommandFrames : Obligations.LcdBytesAreCommandFrames := by
  intro c q s h
  have row : ∀ {i : Instr} {m : RegSel} {b : Byte}, (∀ u, exec i u = inOp u (.next (enterFrame b m u))) →
      SendsFrame c s i m b := fun hi => h.sendsFrame fun u hu => (hi u).trans (exec_inOp hu _)
  refine ⟨row fun _ => rfl, row fun _ => rfl, row fun _ => rfl, row fun _ => rfl, row fun _ => rfl, row fun _ => rfl,
    fun n => ?_, fun a => row fun _ => rfl, fun a => row fun _ => rfl, fun d => row fun _ => rfl, fun b m => ?_⟩
  · cases n <;> exact row fun _ => rfl
  · refine h.sendsFrame fun u hu => ?_
    obtain ⟨q', hq'⟩ := Option.isSome_iff_exists.mp hu
    simp [exec, execWriteCmd, hq']

/-! ### The bytes of a frame (30_encoding R104) -/

theorem nibbleByte_hiNibble (b : Byte) : nibbleByte (hiNibble b) = b &&& 0xF0#8 := by
  revert b
  decide

theorem nibbleByte_loNibble (b : Byte) : nibbleByte (loNibble b) = (b <<< 4) &&& 0xF0#8 := by
  revert b
  decide

/-- Bytes A and B of a nibble at the default flag positions. -/
theorem framedBytes_default (d : Nibble) (m : RegSel) :
    enSetByte Params.default d m = nibbleByte d ||| flagIf m.isData 0x01#8 ||| 0x0C#8
      ∧ enClearByte Params.default d m = nibbleByte d ||| flagIf m.isData 0x01#8 ||| 0x08#8 := by
  simp [enSetByte, enClearByte, busByteOf, Params.default, flagIf, BitVec.or_assoc]

theorem busBytes_append (e₁ e₂ : List Event) : busBytes (e₁ ++ e₂) = busBytes e₁ ++ busBytes e₂ := by
  simp [busBytes]

/-- Without the pre-write a nibble frame is bytes A and B (30_encoding R103). -/
theorem busBytes_nibbleEvents {p : Params} (h : p.prewrite = false) (addr : BitVec 7) (m : RegSel) (d : Nibble) :
    busBytes (nibbleEvents p addr m d) = [enSetByte p d m, enClearByte p d m] := by
  simp [nibbleEvents, h, writeEvents, busBytes]

/-- Settles O5: byte B of each nibble gives back its nibble and the mode, and the four bytes are written out. -/
theorem frameBytesCarryByteAndMode : Obligations.FrameBytesCarryByteAndMode := by
  refine ⟨fun p b m h => ?_, fun addr b m => ?_⟩
  · have back : ∀ d, hiNibble (enClearByte p d m) = d ∧ rsOf p (enClearByte p d m) = m := fun d =>
      ⟨hiNibble_busByteOf h d true false false m.isData, rsOf_busByteOf h d true false false m⟩
    rw [(back _).1, (back _).1]
    exact ⟨hiNibble_append_loNibble b, (back _).2, (back _).2⟩
  · have bytes : ∀ d, busBytes (nibbleEvents Params.default addr m d) =
        [nibbleByte d ||| flagIf m.isData 0x01#8 ||| 0x0C#8, nibbleByte d ||| flagIf m.isData 0x01#8 ||| 0x08#8] := fun d => by
      rw [busBytes_nibbleEvents rfl, (framedBytes_default d m).1, (framedBytes_default d m).2]
    rw [frameEvents, busBytes_append, bytes, bytes, nibbleByte_hiNibble, nibbleByte_loNibble]
    rfl

end Sys2Proof.Machine
end

section
/-! SUPPORT. Requests that are refused (60_exceptions R278): the tags no host may issue (30_encoding R117), and the runs in
which a request is refused. -/

namespace Sys2Proof

/-! ### Tags that are not the host's -/

/-- A tag spells the operation of its row (30_encoding R113). -/
theorem mem_tagTable {tag : Byte} {o : Op} (h : opOfTag tag = some o) : (tag, o) ∈ tagTable := by
  obtain ⟨row, hrow, rfl⟩ := Option.map_eq_some_iff.mp h
  have htag : row.1 = tag := by simpa using List.find?_some hrow
  exact htag ▸ List.mem_of_find?_eq_some hrow

/-- The operations of the second table of 30_encoding R113. -/
def internalOps : List Op := [.busWrite, .wait, .nibble, .winCreate, .winView, .winFwd, .winBwd, .renderLine, .rotStep]

theorem mem_internalOps {tag : Byte} {o : Op} (h : opOfTag tag = some o) (ht : hostTag tag = false) : o ∈ internalOps := by
  have rows : ∀ row ∈ tagTable, hostTag row.1 = false → row.2 ∈ internalOps := by decide
  exact rows _ (mem_tagTable h) ht

theorem decNoArgs_some {i j : Instr} {args : List Operand} (h : decNoArgs i args = some j) : j = i := by
  unfold decNoArgs at h
  split at h
  · exact (Option.some.inj h).symm
  · cases h

theorem decCount_some {mk : Nat → Instr} {args : List Operand} {i : Instr} (h : decCount mk args = some i) :
    ∃ n, i = mk n := by
  unfold decCount at h
  split at h
  · exact ⟨1, (Option.some.inj h).symm⟩
  · exact ⟨_, (Option.some.inj h).symm⟩
  · cases h

/-- What the record of an internal micro-operation is read as (30_encoding R113, the second table). -/
theorem decodeOp_internal {o : Op} {args : List Operand} {i : Instr} (ho : o ∈ internalOps)
    (h : decodeOp o args = some i) : i.hostOp = false := by
  cases o with
  | busWrite =>
    simp only [decodeOp, decBusWrite] at h
    split at h
    · obtain ⟨v, -, rfl⟩ := Option.map_eq_some_iff.mp h
      rfl
    · cases h
  | wait =>
    simp only [decodeOp, decWait] at h
    split at h
    · obtain rfl := Option.some.inj h
      rfl
    · cases h
  | nibble =>
    simp only [decodeOp, decNibble] at h
    split at h
    · obtain ⟨x, -, h⟩ := Option.bind_eq_some_iff.mp h
      obtain ⟨m, -, h⟩ := Option.bind_eq_some_iff.mp h
      split at h
      · obtain rfl := Option.some.inj h
        rfl
      · cases h
    · cases h
  | winCreate =>
    simp only [decodeOp, decWinCreate] at h
    split at h
    · split at h
      · obtain rfl := Option.some.inj h
        rfl
      · cases h
    · cases h
  | renderLine =>
    simp only [decodeOp, decRenderLine] at h
    split at h
    · obtain rfl := Option.some.inj h
      rfl
    · cases h
  | winView | rotStep =>
    obtain rfl := decNoArgs_some h
    rfl
  | winFwd | winBwd =>
    obtain ⟨n, rfl⟩ := decCount_some h
    rfl
  | _ => simp [internalOps] at ho

/-- No tag but the host's spells an operation of the host (30_encoding R117). -/
theorem decode_request_internal {r : Request} {i : Instr} (ht : hostTag r.tag = false)
    (h : decode (.request r) = .ok i) : i.hostOp = false := by
  simp only [decode, decodeRequest] at h
  split at h
  · cases h
  · rename_i o ho
    split at h
    · cases h
    · rename_i j hj
      obtain rfl := Except.ok.inj h
      exact decodeOp_internal (mem_internalOps ho ht) hj

theorem hostTag_outside {tag : Byte} (h : tag = 0x00#8 ∨ 0x0E ≤ tag.toNat) : hostTag tag = false := by
  rcases h with rfl | h
  · rfl
  · simp only [hostTag, Bool.and_eq_false_iff, decide_eq_false_iff_not]
    omega

end Sys2Proof

namespace Sys2Proof.Machine

/-! ### Refused at the port -/

/-- With no operation in progress an internal instruction is `Refused(UNKNOWN_OP)` (30_encoding R117; log 23). -/
theorem exec_internal {s : State} (hq : s.seq = none) {i : Instr} (hi : i.hostOp = false) :
    exec i s = .next (s.report (.refused .unknownOp)) := by
  cases i with
  | writeCmd | init | clear | backlight | loadChars | posCursor | writeRaw | pad | display | scrollFwd | scrollBwd | view
  | cancel => cases hi
  | _ => exact inOp_none hq _

/-- A tag that no host may issue is refused whatever its record (30_encoding R117). -/
theorem step_unknownTag {s : State} {a : Arrival} {rest : List Arrival} (hq : s.seq = none) (ht : s.turns = [])
    (hp : s.port = a :: rest) (htag : hostTag a.req.tag = false) :
    step s = .next (({ s with port := rest } : State).report (.refused .unknownOp)) := by
  cases hd : decode (.request a.req) with
  | ok i => exact (step_request hq ht hp hd).trans (exec_internal (s := { s with port := rest }) hq
      (decode_request_internal htag hd))
  | error e =>
    rw [step, State.takeTurn_nil ht, stepCur_none hq, fetchRequest_cons hp, hd]
    simp [htag, State.refuse_idle (s := { s with port := rest }) hq]

/-! ### Runs over `State.mayStep` (60_exceptions R278) -/

/-- A run of the block is a run over the relation. -/
theorem Reaches.mayRun {s t : State} (h : Reaches s t) : MayRun s t := by
  obtain ⟨k, hk⟩ := h
  induction k generalizing s with
  | zero =>
    obtain rfl : s = t := by simpa [run] using hk
    exact .refl s
  | succ k ih =>
    simp only [run] at hk
    cases hs : step s with
    | next u => exact .cons (.inl hs) (ih (by simpa [hs] using hk))
    | fault f => simp [hs] at hk
    | refused r => simp [hs] at hk

/-- A run over the relation is one of the block up to the first request refused. -/
theorem MayRun.reaches_or_refuses {s t : State} (h : MayRun s t) : Reaches s t ∨ ∃ u, Reaches s u ∧ u.refusesNow := by
  induction h with
  | refl s => exact .inl (Reaches.refl s)
  | @cons s t u h _ ih =>
    rcases h with hst | hr
    · rcases ih with h | ⟨v, h, hv⟩
      · exact .inl (Reaches.head hst h)
      · exact .inr ⟨v, Reaches.head hst h, hv⟩
    · exact .inr ⟨s, Reaches.refl s, hr⟩

/-- Settles O2: the step refuses at the port, and the runs by induction on each. -/
theorem unknownTagsAreRefused : Obligations.UnknownTagsAreRefused := by
  refine ⟨fun s a rest hq ht hp htag => ?_, fun s a rest i r hq ht hp hd he => ?_, fun _ _ => Reaches.mayRun,
    fun _ _ => MayRun.reaches_or_refuses⟩
  · have hst := step_unknownTag hq ht hp (hostTag_outside htag)
    exact ⟨hst, mayStep_of_refusesNow ⟨_, s.cur, .unknownOp, hst, rfl⟩⟩
  · have hst := (step_request hq ht hp hd).trans he
    exact mayStep_of_refusesNow ⟨_, s.cur, r, hst, rfl⟩

end Sys2Proof.Machine
end

section
/-! SUPPORT. Words written out from the tables of 30_encoding, and records with operands left out (R113, R118). -/

namespace Sys2Proof

/-- The decoder of `align` reads the codes of 30_encoding R115. -/
theorem alignOf_code {n : Nat} {a : Align}
    (h : (n, a) ∈ [(0, Align.left), (1, .center), (2, .right), (3, .leftDefault)]) : alignOf n = some a := by
  have codes : ∀ x ∈ [(0, Align.left), (1, .center), (2, .right), (3, .leftDefault)], alignOf x.1 = some x.2 := by decide
  exact codes _ h

/-- DISPLAY without a budget takes 0 (30_encoding R113). -/
theorem decode_display_noBudget {code : Nat} {a : Align} (h : alignOf code = some a) (s : Str) (line : Nat) (ov : Byte) :
    decode (.request { tag := 0x09#8, args := [.str s, .num line, .num code, .num ov.toNat] })
      = .ok (.display s line a (if ov = 0#8 then .scroll else if ov = 1#8 then .rotate else .unknown ov) 0) :=
  decode_request rfl (by simp [decodeOp, decDisplay, h])

/-- Settles O4: each list of operands is an arm of its tag's decoder. -/
theorem omittedOperandsTakeDefaults : Obligations.OmittedOperandsTakeDefaults :=
  ⟨fun b => decode_request rfl (by simp [decodeOp, decWriteCmd]), fun _ => rfl, fun _ _ => rfl, fun _ _ _ => rfl,
    fun _ _ _ _ => rfl, fun _ _ _ _ _ => rfl, fun _ _ => rfl, fun _ _ _ => rfl,
    fun s line _ _ h => decode_display_noBudget (alignOf_code h) s line, rfl, rfl⟩

/-- Settles O1: each word is the code of its row's fields, and the row's own lemma says what that code decodes to. -/
theorem sampleWordsDecode : Obligations.SampleWordsDecode :=
  ⟨congrArg Except.toOption (decode_frameWord 0x4#4 0x8#4 .data),
    congrArg Except.toOption (decode_frameWord 0x0#4 0x3#4 .instruction),
    decode_bus_enSet 0x4#4 .data, decode_bus_enClear 0x8#4 .instruction, rfl,
    decode_lcd_setDdram 0x40#7, decode_lcd_setCgram 0#6, decode_encode (i := .functionSet true) rfl rfl, rfl,
    decode_encode (i := .writeCmd 0x48#8 .data) rfl rfl, rfl, rfl⟩

end Sys2Proof
end

section
/-! SUPPORT. The transport lock (40_transport R144): the rows that take it, and, over a whole step and for any number of
requesters, the move of the one whose turn it is and the change of turns. -/

namespace Sys2Proof.Machine

/-! ### Rows that take the lock -/

theorem enterFrame_held {s : State} {r : Nat} (b : Byte) (m : RegSel) (h : s.lock = some r) :
    enterFrame b m s = s.push [.call (.writeCmd b m)] := by
  simp [enterFrame, h]

theorem enterFrame_free {s : State} (b : Byte) (m : RegSel) (h : s.lock = none) :
    enterFrame b m s = ({ s with lock := some s.cur, tx := some { byte := b, mode := m, phase := 0 } } : State).push
      [.call (.commandFrame (highOf b) (lowOf b) m), .release] := by
  simp [enterFrame, h]

theorem enterBacklight_held {s : State} {r : Nat} (on : Bool) (h : s.lock = some r) :
    enterBacklight on s = s.push [.call (.backlight on)] := by
  simp [enterBacklight, h]

theorem enterBacklight_free {s : State} (on : Bool) (h : s.lock = none) :
    enterBacklight on s = ({ s with lock := some s.cur } : State).push
      [.call (if on then .backlightOn else .backlightOff), .release] := by
  simp [enterBacklight, h]

/-- WRITE_CMD called by a rule is one frame (40_transport R143). -/
theorem exec_writeCmd_called {s : State} {q : Seq} (hq : s.seq = some q) (b : Byte) (m : RegSel) :
    exec (.writeCmd b m) s = .next (enterFrame b m s) := by
  simp [exec, execWriteCmd, hq]

theorem exec_backlight_called {s : State} {q : Seq} (hq : s.seq = some q) (on : Bool) :
    exec (.backlight on) s = .next (enterBacklight on s) := by
  simp [exec, execBacklight, hq]

/-- A row that takes the lock is BACKLIGHT, or enters the frame of its byte. -/
theorem takesLock_cases {i : Instr} (h : i.takesLock = true) :
    (∃ on, i = .backlight on) ∨ ((∀ on, i ≠ .backlight on)
      ∧ ∃ b m, ∀ s : State, s.seq.isSome = true → exec i s = .next (enterFrame b m s)) := by
  cases i with
  | backlight on => exact .inl ⟨on, rfl⟩
  | writeCmd b m =>
    refine .inr ⟨nofun, b, m, fun s hs => ?_⟩
    obtain ⟨q, hq⟩ := Option.isSome_iff_exists.mp hs
    exact exec_writeCmd_called hq b m
  | wake | set4bit | functionSet | displayOn | clearDisplay | entryModeLeft | returnHome | setCgram | setDdram | data =>
    exact .inr ⟨nofun, _, _, fun s hs => exec_inOp hs _⟩
  | _ => cases h

theorem push_call {s : State} {q : Seq} (hq : s.seq = some q) (j : Instr) :
    s.push [.call j] = { s with seq := some { q with todo := .call j :: q.todo } } := by
  simp [State.push, hq]

/-- Finding the lock held, the row is left to be tried again (40_transport R144); a frame's row comes back as WRITE_CMD
of its byte. -/
theorem takesLock_held {i : Instr} {q : Seq} {s : State} {r : Nat} (hi : i.takesLock = true) (hq : s.seq = some q)
    (hl : s.lock = some r) :
    ∃ j : Instr, (∀ u : State, u.seq.isSome = true → exec j u = exec i u)
      ∧ exec i s = .next { s with seq := some { q with todo := .call j :: q.todo } } := by
  rcases takesLock_cases hi with ⟨on, rfl⟩ | ⟨-, b, m, he⟩
  · refine ⟨.backlight on, fun _ _ => rfl, ?_⟩
    rw [exec_backlight_called hq, enterBacklight_held on hl, push_call hq]
  · refine ⟨.writeCmd b m, fun u hu => ?_, ?_⟩
    · obtain ⟨q', hq'⟩ := Option.isSome_iff_exists.mp hu
      rw [exec_writeCmd_called hq', he u hu]
    · rw [he s (by simp [hq]), enterFrame_held b m hl, push_call hq]

/-- Finding it free, the row takes it before any event (40_transport R143, R144). -/
theorem takesLock_free {i : Instr} {q : Seq} {s : State} (hi : i.takesLock = true) (hq : s.seq = some q)
    (hl : s.lock = none) :
    ∃ t, exec i s = .next t ∧ t.lock = some s.cur ∧ t.trace = s.trace ∧ t.cfg = s.cfg ∧ t.win = s.win ∧ t.rot = s.rot
      ∧ t.mode = s.mode ∧ ((∀ on, i ≠ .backlight on) → ∃ b m, t.tx = some { byte := b, mode := m, phase := 0 })
      ∧ ((∃ on, i = .backlight on) → t.tx = s.tx) := by
  rcases takesLock_cases hi with ⟨on, rfl⟩ | ⟨hne, b, m, he⟩
  · refine ⟨_, exec_backlight_called hq on, ?_⟩
    rw [enterBacklight_free on hl]
    exact ⟨rfl, rfl, rfl, rfl, rfl, rfl, fun h => absurd rfl (h on), fun _ => rfl⟩
  · refine ⟨_, he s (by simp [hq]), ?_⟩
    rw [enterFrame_free b m hl]
    exact ⟨rfl, rfl, rfl, rfl, rfl, rfl, fun _ => ⟨b, m, rfl⟩, fun ⟨on, h⟩ => absurd h (hne on)⟩

/-! ### Lists of statements, inside and outside frames -/

theorem outsideFrames_append (l k : List Stmt) : outsideFrames (l ++ k) = (outsideFrames l && outsideFrames k) := by
  simp [outsideFrames]

theorem outsideFrames_cons (st : Stmt) (l : List Stmt) :
    outsideFrames (st :: l) = true ↔ st.underLock = false ∧ outsideFrames l = true := by
  simp [outsideFrames]

theorem insideFrame_cons {st : Stmt} (l : List Stmt) (h : st.inFrame = true) : insideFrame (st :: l) = insideFrame l := by
  cases st with
  | release => cases h
  | _ => simp [insideFrame, h]

theorem insideFrame_append {l : List Stmt} (k : List Stmt) (h : ∀ st ∈ l, st.inFrame = true) :
    insideFrame (l ++ k) = insideFrame k := by
  induction l with
  | nil => rfl
  | cons st l ih =>
    rw [List.cons_append, insideFrame_cons _ (h st List.mem_cons_self)]
    exact ih fun x hx => h x (List.mem_cons_of_mem _ hx)

/-- What stands at the top of the rest of a frame: its release, or one more part of it. -/
theorem insideFrame_cases {st : Stmt} {l : List Stmt} (h : insideFrame (st :: l) = true) :
    (st = .release ∧ outsideFrames l = true) ∨ (st.inFrame = true ∧ insideFrame l = true) := by
  cases st with
  | release => exact .inl ⟨rfl, h⟩
  | _ => exact .inr (by simpa [insideFrame] using h)

/-- A part of a frame is a call. -/
theorem inFrame_call {st : Stmt} (h : st.inFrame = true) : ∃ i, st = .call i := by
  cases st with
  | call i => exact ⟨i, rfl⟩
  | _ => cases h

/-- A row that writes the bus under its caller's lock is not the host's (30_encoding R113). -/
theorem underLock_internal {i : Instr} (h : i.underLock = true) : i.hostOp = false := by
  cases i with
  | busWrite | nibble | busByte | nibbleEnSet | nibbleEnClear | nibblePrewrite | commandFrame | backlightOn
  | backlightOff => rfl
  | _ => cases h

/-! ### One move -/

/-- The move's events are bus writes only if the mover holds the lock (20_memory R81, R87). -/
def writesAsHolder (s t : State) : Prop :=
  ∃ evs, t.trace = s.trace ++ evs ∧ ((∃ a v ans, Event.busWrite a v ans ∈ evs) → s.lock = some s.cur)

/-- What a move keeps of the lock's rules: the other requesters' procedures are left alone, only the holder writes the bus,
the lock and TX change only for a mover that holds the lock or finds it free, and the mover's own frame stays locked. -/
structure HolderMove (s t : State) : Prop where
  apart : Apart s t
  writes : writesAsHolder s t
  lock : (t.lock = s.lock ∧ t.tx = s.tx) ∨ s.lock = none ∨ s.lock = some s.cur
  mine : framesLocked t.lock t.cur t.seq

theorem HolderMove.of_same {s u t : State} (h : HolderMove u t) (hc : u.cur = s.cur) (hp : u.parked = s.parked)
    (htr : u.trace = s.trace) (hl : u.lock = s.lock) (htx : u.tx = s.tx) : HolderMove s t := by
  obtain ⟨⟨ha, hpk⟩, hw, hk, hm⟩ := h
  rw [writesAsHolder, htr, hl, hc] at hw
  rw [hl, htx, hc] at hk
  exact ⟨⟨ha.trans hc, by rw [hpk, hp]⟩, hw, hk, hm⟩

/-- A move without an event that leaves lock and TX. -/
theorem holderMove_of_same {s t : State} (ha : Apart s t) (htr : t.trace = s.trace) (hl : t.lock = s.lock)
    (htx : t.tx = s.tx) (hm : framesLocked t.lock t.cur t.seq) : HolderMove s t :=
  ⟨ha, ⟨[], by simp [htr], by simp⟩, .inl ⟨hl, htx⟩, hm⟩

theorem LockMove.holder {s t : State} (h : LockMove s t) (ho : outsideFrames (stmtsLeft s.seq) = true) :
    HolderMove s t := by
  have silent : (∃ evs, t.trace = s.trace ++ evs ∧ quiet evs) → writesAsHolder s t :=
    fun ⟨evs, he, hq⟩ => ⟨evs, he, fun ⟨a, v, ans, hm⟩ => absurd rfl (hq _ hm a v ans)⟩
  cases h with
  | kept l ha ht hlock htx hl hs =>
    refine ⟨ha, silent ht, .inl ⟨hlock, htx⟩, .inl ?_⟩
    rcases hs with hs | hs <;> simp [hs, hl, ho, outsideFrames_append]
  | took st ha ht hfree hlock hst hs =>
    refine ⟨ha, silent ⟨[], by simp [ht], quiet_nil⟩, .inr (.inl hfree), .inr ⟨by rw [hlock, ha.cur], ?_⟩⟩
    rw [hs]
    exact (insideFrame_cons _ hst).trans ho
  | closed ha ht hown hlock hs => exact ⟨ha, silent ht, .inr (.inr hown), .inl (by simp [hs, outsideFrames])⟩

theorem FrameMove.holder {s t : State} (h : FrameMove s t) (hl : s.lock = some s.cur)
    (hi : insideFrame (stmtsLeft s.seq) = true) : HolderMove s t := by
  cases h with
  | on l ha ht hlock hin hs =>
    obtain ⟨evs, he⟩ := ht
    refine ⟨ha, ⟨evs, he, fun _ => hl⟩, .inr (.inr hl), .inr ⟨by rw [hlock, hl, ha.cur], ?_⟩⟩
    rw [hs, insideFrame_append _ hin, hi]
  | ended ha ht hs =>
    obtain ⟨evs, he⟩ := ht
    exact ⟨ha, ⟨evs, he, fun _ => hl⟩, .inr (.inr hl), .inl (by simp [hs, outsideFrames])⟩

/-- A statement outside frames, the release apart. -/
theorem execStmt_lock {st : Stmt} {s t : State} {q : Seq} (hq : s.seq = some q) (hu : st.underLock = false)
    (hr : st ≠ .release) (h : execStmt st s = .next t) : LockMove s t := by
  cases st with
  | call i => exact exec_lock hu h
  | release => exact absurd rfl hr
  | configure c =>
    obtain rfl := Host.Outcome.next.inj h
    exact configureOp_lock hq c
  | functionSet =>
    simp only [execStmt, functionSetOp] at h
    split at h
    · obtain rfl := Host.Outcome.next.inj h
      exact push_lock hq rfl
    · obtain ⟨c, -, h⟩ := withCfg_next h
      exact exec_lock (i := .functionSet (lineCountBit c.lines)) rfl h
  | rotWait =>
    obtain ⟨c, -, h⟩ := withCfg_next h
    exact exec_lock (i := .wait c.rotInterval) rfl ((inOp_some hq _).trans h)
  | rotCount =>
    obtain ⟨r, -, h⟩ := withRot_next h
    obtain ⟨c, -, h⟩ := withCfg_next h
    obtain rfl := Host.Outcome.next.inj h
    exact same_lock ⟨rfl, rfl⟩ rfl rfl rfl rfl

/-- The release of the lock, with no frame of the mover after it. -/
theorem releaseLock_holder {s : State} (ho : outsideFrames (stmtsLeft s.seq) = true) : HolderMove s s.releaseLock := by
  have hk : (s.releaseLock.lock = s.lock ∧ s.releaseLock.tx = s.tx) ∨ s.lock = none ∨ s.lock = some s.cur := by
    by_cases hl : s.lock = some s.cur
    · exact .inr (.inr hl)
    · exact .inl (by simp [hl])
  exact ⟨⟨by simp, by simp⟩, ⟨[], by simp, by simp⟩, hk, .inl (by simpa using ho)⟩

/-- The end of a procedure, or one more turn of the rotate loop (44_render_policy R245). -/
theorem ret_lock {s t : State} {q : Seq} (hq : s.seq = some q) (ht : q.todo = []) (h : runNext q s = .next t) :
    LockMove s t := by
  unfold runNext at h
  rw [ht] at h
  cases hr : q.ret with
  | done st v =>
    simp only [hr] at h
    obtain rfl := Host.Outcome.next.inj h
    exact finish_lock s st v
  | rotate =>
    simp only [hr] at h
    obtain ⟨r, -, h⟩ := withRot_next h
    split at h <;> obtain rfl := Host.Outcome.next.inj h
    · exact finish_lock _ _ _
    · exact push_lock hq rfl

/-- The operation in progress goes on or ends. -/
theorem runNext_holder {s t : State} {q : Seq} (hq : s.seq = some q) (hm : framesLocked s.lock s.cur s.seq)
    (h : runNext q s = .next t) : HolderMove s t := by
  have hleft : stmtsLeft s.seq = q.todo := by rw [hq]; rfl
  rw [framesLocked, hleft] at hm
  cases ht : q.todo with
  | nil => exact (ret_lock hq ht h).holder (by rw [hleft, ht]; rfl)
  | cons st rest =>
    rw [ht] at hm
    have hst : execStmt st (s.setTodo rest) = .next t := by simpa [runNext, ht] using h
    have hq' : (s.setTodo rest).seq = some { q with todo := rest } := by simp [hq]
    have hleft' : stmtsLeft (s.setTodo rest).seq = rest := by rw [hq']; rfl
    refine HolderMove.of_same (u := s.setTodo rest) ?_ rfl rfl rfl rfl rfl
    have released : st = .release → outsideFrames rest = true → HolderMove (s.setTodo rest) t := by
      rintro rfl ho
      obtain rfl := Host.Outcome.next.inj hst
      exact releaseLock_holder (by rwa [hleft'])
    rcases hm with ho | ⟨hl, hin⟩
    · obtain ⟨hu, ho⟩ := (outsideFrames_cons st rest).mp ho
      by_cases hr : st = .release
      · exact released hr ho
      · exact (execStmt_lock hq' hu hr hst).holder (by rwa [hleft'])
    · rcases insideFrame_cases hin with ⟨hr, ho⟩ | ⟨hf, hin⟩
      · exact released hr ho
      · obtain ⟨i, rfl⟩ := inFrame_call hf
        exact (exec_frame hq' hf hst).holder hl (by rwa [hleft'])

/-- A request at the port: with no operation in progress the rows under the lock are refused (30_encoding R117), the others
start outside frames. -/
theorem fetchRequest_holder {s t : State} (hq : s.seq = none) (h : fetchRequest s = .next t) : HolderMove s t := by
  have ho : outsideFrames (stmtsLeft s.seq) = true := by rw [hq]; rfl
  cases hp : s.port with
  | nil =>
    obtain rfl := Host.Outcome.next.inj ((fetchRequest_nil hp).symm.trans h)
    exact holderMove_of_same ⟨rfl, rfl⟩ rfl rfl rfl (.inl ho)
  | cons a rest =>
    rw [fetchRequest_cons hp] at h
    refine HolderMove.of_same (u := { s with port := rest }) (LockMove.holder ?_ ho) rfl rfl rfl rfl rfl
    cases hd : decode (.request a.req) with
    | error e =>
      simp only [hd] at h
      split at h
      · cases h
      · obtain rfl := Host.Outcome.next.inj h
        exact refuse_lock _ _
    | ok i =>
      simp only [hd] at h
      cases hu : i.underLock with
      | false => exact exec_lock hu h
      | true =>
        obtain rfl := Host.Outcome.next.inj
          ((exec_internal (s := { s with port := rest }) hq (underLock_internal hu)).symm.trans h)
        exact report_lock _ _

/-- The move of the requester in place. -/
theorem stepCur_holder {s t : State} (hm : framesLocked s.lock s.cur s.seq) (h : stepCur s = .next t) :
    HolderMove s t := by
  cases hq : s.seq with
  | none => exact fetchRequest_holder hq (by rwa [stepCur_none hq] at h)
  | some q =>
    rw [stepCur_some hq] at h
    cases hd : dueCancel s.trace.length s.port with
    | none =>
      simp only [hd] at h
      exact runNext_holder hq hm h
    | some rest =>
      simp only [hd] at h
      obtain rfl := Host.Outcome.next.inj h
      exact holderMove_of_same ⟨rfl, rfl⟩ rfl rfl rfl hm

/-! ### Whole steps -/

/-- A requester other than the mover that has a frame under way holds the lock, so the mover left it there. -/
theorem HolderMove.exclusive {s t : State} (h : HolderMove s t) (hs : s.Exclusive) : t.Exclusive := by
  obtain ⟨⟨hcur, hparked⟩, -, hlock, hmine⟩ := h
  have hids : t.parked.map (fun r => r.id) = s.parked.map (fun r => r.id) := by
    simpa [Function.comp_def] using congrArg (List.map Prod.fst) hparked
  refine ⟨by rw [hcur, hids]; exact hs.ids, hmine, fun r hr => ?_⟩
  obtain ⟨r', hr', he⟩ := List.mem_map.mp (hparked ▸ List.mem_map_of_mem (f := fun r : Requester => (r.id, r.seq)) hr)
  obtain ⟨hid, hseq⟩ := Prod.mk.inj he
  rw [← hid, ← hseq]
  rcases hs.others r' hr' with ho | ⟨hheld, hin⟩
  · exact .inl ho
  · have hne : r'.id ≠ s.cur := fun e => (List.nodup_cons.mp hs.ids).1 (e ▸ List.mem_map_of_mem hr')
    rcases hlock with ⟨hl, -⟩ | hl | hl
    · exact .inr ⟨hl.trans hheld, hin⟩
    · exact absurd (hl.symm.trans hheld) nofun
    · exact absurd (Option.some.inj (hheld.symm.trans hl)) hne

/-- Whose turn it is changes nothing that the requesters share. -/
theorem takeTurn_shared (s : State) : s.takeTurn.lock = s.lock ∧ s.takeTurn.tx = s.tx ∧ s.takeTurn.cfg = s.cfg
    ∧ s.takeTurn.trace = s.trace := by
  unfold State.takeTurn
  split
  · exact ⟨rfl, rfl, rfl, rfl⟩
  · unfold State.switchTo
    split <;> exact ⟨rfl, rfl, rfl, rfl⟩

/-- Another requester comes to move: the same requesters in another order. -/
theorem State.Exclusive.switchTo {s : State} (h : s.Exclusive) (k : Nat) : (s.switchTo k).Exclusive := by
  unfold State.switchTo
  split
  · exact h
  · rename_i r hr
    have hmem : r ∈ s.parked := List.mem_of_find?_eq_some hr
    obtain rfl : r.id = k := by simpa using List.find?_some hr
    refine ⟨?_, h.others r hmem, fun x hx => ?_⟩
    · have herase : (s.parked.filter (fun x => x.id != r.id)).map (fun x => x.id)
          = (s.parked.map (fun x => x.id)).erase r.id := by
        rw [(List.nodup_cons.mp h.ids).2.erase_eq_filter, List.filter_map]
        rfl
      have hperm : (s.cur :: s.parked.map (fun x => x.id)).Perm
          (r.id :: s.cur :: (s.parked.filter (fun x => x.id != r.id)).map (fun x => x.id)) := by
        rw [herase]
        exact ((List.perm_cons_erase (List.mem_map_of_mem hmem)).cons s.cur).trans (.swap ..)
      exact hperm.nodup_iff.mp h.ids
    · rcases List.mem_cons.mp hx with rfl | hx
      · exact h.mine
      · exact h.others x (List.mem_filter.mp hx).1

theorem State.Exclusive.takeTurn {s : State} (h : s.Exclusive) : s.takeTurn.Exclusive := by
  unfold State.takeTurn
  split
  · exact h
  · rename_i k rest _
    have hrest : ({ s with turns := rest } : State).Exclusive := ⟨h.ids, h.mine, h.others⟩
    exact hrest.switchTo k

/-- Settles O14: a row's entry into its frame, and the move of whoever's turn it is. -/
theorem heldLockHoldsRequester : Obligations.HeldLockHoldsRequester := by
  refine ⟨fun i q s hi hq => ⟨fun r hl => takesLock_held hi hq hl, fun hl => takesLock_free hi hq hl⟩,
    fun s t hs hst => ?_⟩
  obtain ⟨hlock, htx, hcfg, htrace⟩ := takeTurn_shared s
  have hm : HolderMove s.takeTurn t := stepCur_holder hs.takeTurn.mine hst
  refine ⟨hm.exclusive hs.takeTurn, ?_, fun r hr hne => ?_, fun hheld => ?_, hm.apart.parked⟩
  · rw [← htrace, ← hlock]
    obtain ⟨evs, hevs⟩ := hm.writes
    exact ⟨evs, hevs⟩
  · rw [← hlock] at hr
    rcases hm.lock with ⟨hl, ht⟩ | hl | hl
    · exact ⟨hl.trans hr, ht.trans htx⟩
    · exact absurd (hl.symm.trans hr) nofun
    · exact absurd (Option.some.inj (hl.symm.trans hr)) hne
  · exact (stepCur_cfg (hlock ▸ hheld) hst).trans hcfg

end Sys2Proof.Machine
end

section
/-! SUPPORT. The transport's micro-operations and WRITE_CMD (40_transport R140 to R143). -/

namespace Sys2Proof.Machine

/-- Settles O9: the event of WAIT. -/
theorem waitIsOneEvent : Obligations.WaitIsOneEvent := by
  intro q s t hq
  refine (inOp_some hq _).trans (congrArg _ ?_)
  simp [State.emit, hq]

/-- An answered write moves TX.phase as `State.nextPhase` says (10_state R43). -/
theorem busWriteOp_ok {s : State} {c : Cfg} (v : Byte) (hc : s.cfg = some c) (ha : s.answer = .ok) :
    busWriteOp v s = .next ((s.drawn.emit (.busWrite c.addr v .ok)).nextPhase.push [.call (.wait Config.tSettle)]) := by
  rw [busWriteOp, withCfg_some hc, ha]

theorem State.answersOk.answer {s : State} (h : s.answersOk 1) : s.answer = .ok := by
  unfold State.answersOk at h
  cases hb : s.bus with
  | nil => simp [hb] at h
  | cons a rest =>
    obtain rfl : a = .ok := by simpa [hb] using h
    exact State.answer_cons hb

/-- Settles O7: the row is one bus write, and its answered step moves TX.phase. -/
theorem busWriteSettlesOrEnds : Obligations.BusWriteSettlesOrEnds := by
  intro c q s v h
  refine ⟨h.callRuns (busWrite_call _ _ c v),
    fun hok => ⟨_, (inOp_some h.seq _).trans (busWriteOp_ok v h.cfg hok.answer), ?_⟩⟩
  have hphase : ∀ f : TxFrame, (if f.phase + 1 < frameWrites s.par then { f with phase := f.phase + 1 } else f)
      = { f with phase := if f.phase + 1 < frameWrites s.par then f.phase + 1 else f.phase } := fun f => by split <;> rfl
  simp only [State.push_tx, State.nextPhase_tx, State.emit_par, State.emit_tx, State.drawn_par, State.drawn_tx, hphase]
  rfl

/-! ### The enable strobe (40_transport R142) -/

/-- Setting a flag that a byte does not have and clearing it again gives the byte back. -/
theorem or_and_not_self {b e : Byte} (h : b &&& e = 0#8) : (b ||| e) &&& ~~~e = b := by
  ext i hi
  have hbit : (b[i] && e[i]) = false := by simpa using congrArg (fun x : Byte => x[i]) h
  cases he : e[i] <;> simp_all

/-- Bytes A and B of the strobe of `x`: `x | m | BIT_BL`, with EN and without (40_transport R142). -/
theorem strobeBytes {p : Params} {x : Byte} (h : lowNibbleClear x = true) (m : RegSel) :
    enSetByte p (hiNibble x) m = x ||| flagIf m.isData p.bitRs ||| p.bitBl ||| p.bitEn
      ∧ enClearByte p (hiNibble x) m = x ||| flagIf m.isData p.bitRs ||| p.bitBl := by
  simp [enSetByte, enClearByte, busByteOf, nibbleByte_hi h, flagIf]

/-- Settles O10: the strobe of the operand's nibble, byte B being byte A with EN cleared. -/
theorem nibbleIsOneEnableStrobe : Obligations.NibbleIsOneEnableStrobe := by
  intro c q s x m hp h hx
  obtain ⟨hset, hclear⟩ := strobeBytes (p := s.par) hx m
  have hen : enOf s.par (enClearByte s.par (hiNibble x) m) = false := (framed_flags hp (hiNibble x) false m).1
  have hback : (enClearByte s.par (hiNibble x) m ||| s.par.bitEn) &&& ~~~s.par.bitEn = enClearByte s.par (hiNibble x) m :=
    or_and_not_self (by simpa [enOf] using hen)
  have hpre : prewriteByte s.par (hiNibble x) m = enClearByte s.par (hiNibble x) m := rfl
  have hr := h.callRuns (nibble_call _ _ c x m)
  rw [hclear] at hback
  simp only [nibbleEvents, hpre, hset, hclear, writeEvents, List.append_assoc] at hr
  intro b
  rw [hback]
  exact hr

/-! ### WRITE_CMD (40_transport R143) -/

/-- Settles O13: WRITE_CMD from the host is the frame it is when a rule calls it. -/
theorem writeCmdSendsOneFrame : Obligations.WriteCmdSendsOneFrame := by
  intro c s b m h
  have he : exec (.writeCmd b m) s = .next (enterFrame b m (s.startOp (.writeCmd b m) (.done .done .none))) := by
    simp [exec, execWriteCmd, h.seq, whenInit_init h.initialized]
  refine ⟨self_performs (writeCmd_call s.par c b m) h rfl (he.trans (exec_writeCmd_called rfl b m).symm), _, he, ?_⟩
  rw [enterFrame_free (s := s.startOp _ _) b m h.lock]
  exact ⟨rfl, rfl⟩

end Sys2Proof.Machine
end

section
/-! SUPPORT. The latch observer over complete frames (40_transport R145, R146). -/

namespace Sys2Proof.Machine

/-- The observer's view with nibbles latched before it. -/
def LatchView.after (l : List (Nibble × RegSel)) (v : LatchView) : LatchView := { v with latches := l ++ v.latches }

theorem LatchView.after_after (l l' : List (Nibble × RegSel)) (v : LatchView) :
    (v.after l').after l = v.after (l ++ l') := by
  simp [LatchView.after]

/-- The nibbles that a list of commands latches, high nibble first (20_memory R76). -/
def commandLatches : List (RegSel × Byte) → List (Nibble × RegSel)
  | [] => []
  | c :: rest => (hiNibble c.2, c.1) :: (loNibble c.2, c.1) :: commandLatches rest

theorem commandLatches_append (l l' : List (RegSel × Byte)) :
    commandLatches (l ++ l') = commandLatches l ++ commandLatches l' := by
  induction l with
  | nil => rfl
  | cons c l ih => simp [commandLatches, ih]

theorem pairNibbles_commandLatches (l : List (RegSel × Byte)) : pairNibbles (commandLatches l) = l := by
  induction l with
  | nil => rfl
  | cons c l ih => simp [commandLatches, pairNibbles, hiNibble_append_loNibble, ih]

/-- An answered write latches its nibble just where EN falls (40_transport R145). -/
theorem latchFrom_writeEvents (p : Params) (addr : BitVec 7) (prevEn : Bool) (v : Byte) (rest : List Event) :
    latchFrom p addr prevEn (writeEvents addr v ++ rest)
      = (latchFrom p addr (enOf p v) rest).after (if prevEn && !enOf p v then [(hiNibble v, rsOf p v)] else []) := by
  simp only [writeEvents, List.cons_append, List.nil_append, latchFrom, if_true]
  split <;> rfl

/-- A nibble frame latches its nibble once, with or without the pre-write. -/
theorem latchFrom_nibbleEvents {p : Params} (h : p.wf = true) (addr : BitVec 7) (m : RegSel) (d : Nibble)
    (rest : List Event) :
    latchFrom p addr false (nibbleEvents p addr m d ++ rest) = (latchFrom p addr false rest).after [(d, m)] := by
  obtain ⟨hset, -⟩ := framed_flags h d true m
  obtain ⟨hclear, -, -, hrs, hhi⟩ := framed_flags h d false m
  have strobe : latchFrom p addr false (writeEvents addr (enSetByte p d m) ++ (.wait Config.tEnHold ::
      (writeEvents addr (enClearByte p d m) ++ (.wait Config.tPostHold :: rest))))
      = (latchFrom p addr false rest).after [(d, m)] := by
    simp [latchFrom_writeEvents, latchFrom, enSetByte, enClearByte, hset, hclear, hrs, hhi, LatchView.after]
  cases hp : p.prewrite with
  | false => simpa [nibbleEvents, hp] using strobe
  | true => simpa [nibbleEvents, hp, latchFrom_writeEvents, prewriteByte, hclear, LatchView.after] using strobe

/-- Complete frames latch the nibbles of their commands, and leave the observer as they found it. -/
theorem latchFrom_streamEvents {p : Params} (h : p.wf = true) (addr : BitVec 7) (l : List (RegSel × Byte))
    (rest : List Event) :
    latchFrom p addr false (streamEvents p addr l ++ rest)
      = (latchFrom p addr false rest).after (commandLatches l) := by
  induction l with
  | nil => rfl
  | cons c l ih =>
    simp only [streamEvents, frameEvents, List.append_assoc, latchFrom_nibbleEvents h, ih, LatchView.after_after]
    rfl

/-- A BACKLIGHT byte between frames latches nothing: EN is clear before it and in it (30_encoding R106). -/
theorem latchFrom_backlight {p : Params} (h : p.wf = true) (addr : BitVec 7) (on : Bool) (rest : List Event) :
    latchFrom p addr false (writeEvents addr (backlightByte p on) ++ rest) = latchFrom p addr false rest := by
  rw [latchFrom_writeEvents, enOf_backlightByte h]
  rfl

/-- A trace whose latches are those of a list of commands decodes to it. -/
theorem decodedStream_of_latches {p : Params} {addr : BitVec 7} {trace : List Event} {l : List (RegSel × Byte)}
    (h : latchFrom p addr false trace = { latches := commandLatches l, defined := true }) :
    decodedStream p addr trace = some l := by
  simp [decodedStream, latched, h, pairNibbles_commandLatches]

/-- Settles O15: the latches of the frames are the nibbles of the commands, and pair up again. -/
theorem decodedStreamIsTheCommandList : Obligations.DecodedStreamIsTheCommandList := by
  intro p addr l h
  apply decodedStream_of_latches
  simpa [latchFrom, LatchView.after] using latchFrom_streamEvents h addr l []

/-- Settles O16: the latches are those of the frames without the byte. -/
theorem backlightLatchesNothing : Obligations.BacklightLatchesNothing := by
  intro p addr l l' on h
  apply decodedStream_of_latches
  have hl' := latchFrom_streamEvents h addr l' []
  rw [List.append_nil] at hl'
  rw [latchFrom_streamEvents h, latchFrom_backlight h, hl', LatchView.after_after, ← commandLatches_append]
  simp [LatchView.after, latchFrom]

end Sys2Proof.Machine
end

section
/-! SUPPORT. The host operations of the display controller, from their checks to their ends (41_display_controller R160 to
R169). -/

namespace Sys2Proof.Machine

/-! ### Instruction bytes in a row -/

/-- Statements that each send one instruction byte, with the events of its frame. -/
def commandCalls (p : Params) (addr : BitVec 7) (l : List (Stmt × Byte)) : List (Stmt × List Event) :=
  l.map (fun x => (x.1, frameEvents p addr .instruction x.2))

theorem commandCalls_events (p : Params) (addr : BitVec 7) (l : List (Stmt × Byte)) :
    ((commandCalls p addr l).map (fun x => x.2)).flatten
      = streamEvents p addr (l.map (fun x => (RegSel.instruction, x.2))) := by
  simp [commandCalls, streamEvents_flatten, Function.comp_def]

theorem commandCalls_call {p : Params} {c : Cfg} {l : List (Stmt × Byte)}
    (h : ∀ x ∈ l, Runs true p c x.1 (frameEvents p c.addr .instruction x.2)) :
    ∀ x ∈ commandCalls p c.addr l, Runs true p c x.1 x.2 := by
  intro x hx
  obtain ⟨y, hy, rfl⟩ := List.mem_map.mp hx
  exact h y hy

/-! ### INIT (41_display_controller R160 to R164) -/

/-- The configuration INIT is given (41_display_controller R161). -/
def initCfg (lines lineLength addr : Nat) (b e : Str) (interval : Nat) : Cfg :=
  { lines := lines, lineLength := lineLength, addr := BitVec.ofNat 7 addr, beginM := b, endM := e, rotInterval := interval }

/-- The state INIT's frames start from (41_display_controller R161). -/
def State.configured (c : Cfg) (s : State) : State := { s with cfg := some c, win := none, cancel := false }

theorem goodConfig_iff {lines lineLength addr : Nat} {b e : Str} :
    goodConfig lines lineLength addr b e = true ↔ (lines = 1 ∨ lines = 2 ∨ lines = 4) ∧ 1 ≤ lineLength ∧ addr ≤ 0x7F
      ∧ b.length + e.length + 1 ≤ lineLength := by
  simp [goodConfig, and_assoc, or_assoc]

theorem exec_init_good {s : State} {lines lineLength addr : Nat} {b e : Str} (interval : Nat) (hq : s.seq = none)
    (hg : goodConfig lines lineLength addr b e = true) :
    exec (.init lines lineLength addr b e interval) s
      = .next (configureOp (initCfg lines lineLength addr b e interval)
          (s.startOp (.init lines lineLength addr b e interval) (.done .initialized .none))) := by
  simp only [exec, execInit, heldWhenBusy_idle _ hq, hg, if_true, initCfg]

theorem exec_init_bad {s : State} {lines lineLength addr : Nat} {b e : Str} (interval : Nat) (hq : s.seq = none)
    (hg : goodConfig lines lineLength addr b e = false) :
    exec (.init lines lineLength addr b e interval) s = .next (s.afterOp [] 0 (.refused .badConfig)) := by
  simp [exec, execInit, heldWhenBusy_idle _ hq, hg, refuse_afterOp hq]

/-- With the lock free INIT's state change comes with its start. -/
theorem configureOp_startOp {s : State} (c : Cfg) (op : Instr) (ret : Ret) (h : s.lock = none) :
    configureOp c (s.startOp op ret) = ((s.configured c).startOp op ret).push initCalls := by
  rw [configureOp_free (s := s.startOp op ret) c h]
  rfl

/-- A statement taken and pushed back leaves the operation where it was. -/
theorem push_setTodo {s : State} {q : Seq} {st : Stmt} {rest : List Stmt} (hq : s.seq = some q) (ht : q.todo = st :: rest) :
    (s.setTodo rest).push [st] = s := by
  have hpush : (s.setTodo rest).push [st] = (s.setTodo rest).setTodo q.todo := by simp [State.push, State.setTodo, hq, ht]
  rw [hpush, setTodo_self hq]

/-- INIT's statements that send a frame, with their bytes in the source's order (41_display_controller R162, R163). -/
def initCommands (lines : Nat) : List (Stmt × Byte) :=
  [(.call .wake, wakeByte), (.call .wake, wakeByte), (.call .wake, wakeByte), (.call .set4bit, set4bitByte),
   (.functionSet, functionSetByte (lineCountBit lines)), (.call .displayOn, displayOnByte),
   (.call .clearDisplay, clearDisplayByte), (.call .entryModeLeft, entryModeLeftByte)]

/-- All of INIT's statements. -/
def initSteps (p : Params) (c : Cfg) : List (Stmt × List Event) :=
  commandCalls p c.addr (initCommands c.lines) ++ [(.call (.wait Config.tInit), [.wait Config.tInit])]

theorem initSteps_calls (p : Params) (c : Cfg) : (initSteps p c).map (fun x => x.1) = initCalls := rfl

theorem functionSetByte_lines (lines : Nat) :
    functionSetByte (lineCountBit lines) = if 2 ≤ lines then 0x28#8 else 0x20#8 := by
  by_cases h : 2 ≤ lines <;> simp [functionSetByte, lineCountBit, bitNum, h]

theorem initCommands_stream (lines : Nat) :
    (initCommands lines).map (fun x => (RegSel.instruction, x.2)) = initStream lines := by
  simp only [initCommands, functionSetByte_lines]
  rfl

theorem initSteps_events (p : Params) (c : Cfg) :
    ((initSteps p c).map (fun x => x.2)).flatten = initEvents p c.addr c.lines := by
  simp [initSteps, commandCalls_events, initCommands_stream, initEvents]

theorem initSteps_call (p : Params) (c : Cfg) : ∀ x ∈ initSteps p c, Runs true p c x.1 x.2 := by
  have hcommands : ∀ x ∈ initCommands c.lines, Runs true p c x.1 (frameEvents p c.addr .instruction x.2) := by
    simp [initCommands, functionSet_stmt, fixed_call p c (.wake, _), fixed_call p c (.set4bit, _),
      fixed_call p c (.displayOn, _), fixed_call p c (.clearDisplay, _), fixed_call p c (.entryModeLeft, _)]
  intro x hx
  rcases List.mem_append.mp hx with hx | hx
  · exact commandCalls_call hcommands x hx
  · obtain rfl := List.mem_singleton.mp hx
    exact wait_call true p c Config.tInit

/-- `op_performs` for INIT, whose end is told to the other requesters (60_exceptions R280, R291; log 9). -/
theorem initOp_performs {c : Cfg} {i op : Instr} {s t : State} {st : Status} {v : Value} (l : List (Stmt × List Event))
    (hl : ∀ x ∈ l, Runs true t.par c x.1 x.2) (ht : t.Quiet c) (hq : t.seq = none) (hbus : s.bus = t.bus)
    (hi : isInitOp op = true) (he : exec i s = .next ((t.startOp op (.done st v)).push (l.map (fun x => x.1)))) :
    Performs i s { t with mode := .idle, parked := t.parked.map (Requester.afterInit true) }
      { t with mode := .uninit, parked := t.parked.map (Requester.afterInit false) } (l.map (fun x => x.2)).flatten
      (.ok st v) := by
  constructor
  · intro hok
    refine ⟨_, he, ?_⟩
    have hends := op_ends c op st v l t hl ht (by simpa only [State.answersOk, hbus] using hok)
    simpa only [hi, if_true, State.afterOp, State.emitted, hq] using hends
  · intro k hk hb
    refine ⟨_, he, ?_⟩
    have hbreaks := op_breaks c op (.done st v) l t hl ht hk (by simpa only [State.failsAt, hbus] using hb)
    simpa only [hi, if_true, State.afterOp, State.emitted, hq] using hbreaks

/-- Settles O19: INIT is its nine statements, run from the configured state. -/
theorem initSendsItsSequence : Obligations.InitSendsItsSequence := by
  intro s lines lineLength addr b e interval _ hq hl htx hu h1 h2 h3 h4 t
  let c : Cfg := initCfg lines lineLength addr b e interval
  have he := exec_init_good interval hq (goodConfig_iff.mpr ⟨h1, h2, h3, h4⟩)
  rw [configureOp_startOp _ _ _ hl] at he
  have hp := initOp_performs (s := s) (t := s.configured c) (initSteps s.par c) (initSteps_call s.par c)
    ⟨rfl, hl, htx, hu⟩ hq rfl rfl he
  rw [initSteps_events] at hp
  exact hp

/-- Settles O18: the checks decide between the refusal and INIT's state change, which waits for a held lock. -/
theorem initChecksAndConfigures : Obligations.InitChecksAndConfigures := by
  refine ⟨fun s lines lineLength addr b e interval hq => ⟨fun hbad => ?_, fun h1 h2 h3 h4 => ?_⟩,
    fun s q c rest hq hu ht => ?_⟩
  · have hg : ¬ goodConfig lines lineLength addr b e = true := by
      rw [goodConfig_iff]
      omega
    exact exec_init_bad interval hq (by simpa using hg)
  · have he := exec_init_good interval hq (goodConfig_iff.mpr ⟨h1, h2, h3, h4⟩)
    refine ⟨fun hl => ⟨_, he.trans (congrArg _ (configureOp_startOp _ _ _ hl)), rfl, rfl, rfl, rfl, rfl, rfl, rfl⟩,
      fun r hl => he.trans (congrArg _ ?_)⟩
    rw [configureOp_held (s := s.startOp _ _) _ hl]
    rfl
  · have hst : step s = .next (configureOp c (s.setTodo rest)) := step_stmt hq ht hu
    refine ⟨fun r hl => ?_, fun hl => ⟨_, hst, ?_⟩⟩
    · rw [hst, configureOp_held (s := s.setTodo rest) c hl, push_setTodo hq ht]
    · rw [configureOp_free (s := s.setTodo rest) c hl]
      exact ⟨rfl, rfl, rfl, rfl, rfl, rfl, rfl, hl⟩

/-! ### CLEAR and BACKLIGHT (41_display_controller R165, R166) -/

/-- CLEAR's statements, with their bytes. -/
def clearCommands : List (Stmt × Byte) := [(.call .clearDisplay, clearDisplayByte), (.call .returnHome, returnHomeByte)]

/-- Settles O20: the frames of the two calls. -/
theorem clearSendsClearAndHome : Obligations.ClearSendsClearAndHome := by
  intro c s h
  have hcommands : ∀ x ∈ clearCommands, Runs true s.par c x.1 (frameEvents s.par c.addr .instruction x.2) := by
    simp [clearCommands, fixed_call s.par c (.clearDisplay, _), fixed_call s.par c (.returnHome, _)]
  refine calls_perform _ (commandCalls_events s.par c.addr clearCommands) (commandCalls_call hcommands) h.quiet h.mode h.seq
    rfl (op := .clear) rfl ?_
  simp only [exec, execClear, heldWhenBusy_idle _ h.seq, whenInit_init h.initialized]
  rfl

/-- Settles O21: BACKLIGHT from the host is the write it is when a rule calls it. -/
theorem backlightWritesOneByte : Obligations.BacklightWritesOneByte := by
  intro c s on h
  refine self_performs (backlight_call s.par c on) h rfl (.trans ?_ (exec_backlight_called rfl on).symm)
  simp only [exec, execBacklight, h.seq, whenInit_init h.initialized]

/-! ### LOAD_CHARS (41_display_controller R167) -/

/-- Settles O22: the branches of its checks, and, past them, the calls of SET_CGRAM and of the rows. -/
theorem loadCharsStreamsGlyphs : Obligations.LoadCharsStreamsGlyphs := by
  intro c s glyphs h
  have he : exec (.loadChars glyphs) s =
      if 8 < glyphs.length then .next (s.refuse .glyphCount)
      else if glyphs.any (fun g => g.length != 8) then .next (s.refuse .glyphSize)
      else .next ((s.startOp (.loadChars glyphs) (.done .done .none)).push
        (.call (.setCgram 0#6) :: glyphs.flatten.map (fun b => .call (.data b)))) := by
    simp only [exec, execLoadChars, heldWhenBusy_idle _ h.seq, whenInit_init h.initialized]
  refine ⟨fun hn => ?_, fun hn hsize => ?_, fun hn hsize => ?_⟩
  · rw [he, if_pos hn, refuse_afterOp h.seq]
  · rw [he, if_neg (by omega), if_pos (by simpa using hsize), refuse_afterOp h.seq]
  · refine calls_perform ((.call (.setCgram 0#6), frameEvents s.par c.addr .instruction (setCgramByte 0#6))
      :: dataCalls s.par c.addr glyphs.flatten) ?_ ?_ h.quiet h.mode h.seq rfl (op := .loadChars glyphs) rfl ?_
    · rw [List.map_cons, List.flatten_cons, dataCalls_events]
      rfl
    · exact List.forall_mem_cons.mpr ⟨setCgram_call _ _ _, dataCalls_call _ _ _⟩
    · rw [he, if_neg (by omega), if_neg (by simpa using hsize), List.map_cons, dataCalls_calls]

/-! ### POS_CURSOR and WRITE_RAW (41_display_controller R168, R169) -/

/-- Settles O23: the three ends of the cursor's check. -/
theorem posCursorSetsDdramAddress : Obligations.PosCursorSetsDdramAddress := by
  intro c s line col h
  have he : exec (.posCursor line col) s = match cursorCheck c.lines line col with
      | .raise e => .next ((s.startOp (.posCursor line col) (.done .done .none)).raise e)
      | .refuse r => .next (s.refuse r)
      | .pass a => .next ((s.startOp (.posCursor line col) (.done .done .none)).push [.call (.setDdram a)]) := by
    cases hk : cursorCheck c.lines line col <;>
      simp only [exec, execPosCursor, h.seq, whenInit_init h.initialized, withCfg_some h.cfg, hk]
  refine ⟨fun hb => ?_, fun a h1 h2 ha hr => ?_, fun a hr => ?_⟩
  · rw [he, cursorCheck_badLine col hb]
    exact congrArg _ (raise_ready h s.win rfl _ _)
  · rw [he, cursorCheck_range h1 h2 ha hr]
    exact congrArg _ (refuse_afterOp h.seq _)
  · have ⟨_, _, _, ha⟩ := hr
    refine calls_perform
      (commandCalls s.par c.addr [(.call (.setDdram (BitVec.ofNat 7 a)), setDdramByte (BitVec.ofNat 7 a))]) ?_ (commandCalls_call ?_) h.quiet h.mode h.seq rfl (op := .posCursor line col) rfl ?_
    · simp [commandCalls_events, setDdramByte_ofNat ha]
    · simpa using setDdram_call s.par c (BitVec.ofNat 7 a)
    · rw [he, cursorCheck_reaches hr]
      rfl

/-- Settles O24: the cursor's check ends it before any event, or its raw string is written. -/
theorem writeRawSendsEveryByte : Obligations.WriteRawSendsEveryByte := by
  intro c s str line pos h
  have he : exec (.writeRaw str line pos) s
      = writeRawBody str line pos (s.startOp (.writeRaw str line pos) (.done .done .none)) := by
    simp only [exec, execWriteRaw, h.seq, whenInit_init h.initialized]
  refine ⟨fun hb => ?_, fun a h1 h2 ha hr => ?_, fun a hr => ?_⟩
  · exact he.trans (raw_raises h s.win rfl _ str pos hb)
  · rw [he, writeRawBody, withCfg_some (s := s.startOp _ _) h.cfg, cursorCheck_range h1 h2 ha hr]
    exact congrArg _ (refuse_ready h _ _ _)
  · exact raw_performs str hr h.quiet h.mode h.seq rfl rfl he

end Sys2Proof.Machine
end

section
/-! SUPPORT. `pad` and DDRAM addressing (42_text_layout R190 to R198). -/

namespace Sys2Proof.Machine

/-! ### The arms of pad for a one-byte pad character (42_text_layout R192 to R195) -/

@[simp] theorem rep_byte (ch : Byte) (k : Nat) : rep [ch] k = List.replicate k ch := by
  simp [rep]

theorem padArms_equal {str : Str} {n : Nat} (h : str.length = n) (c : Str) (a : Align) : padArms str n c a = str :=
  if_pos h

theorem padArms_right (str : Str) (n : Nat) (ch : Byte) :
    padArms str n [ch] .right = List.replicate (n - str.length) ch ++ str := by
  by_cases h : str.length = n
  · simp [padArms_equal h, h]
  · simp [padArms, h]

/-- The odd byte of R195 is `space`, whatever the pad character. -/
theorem padArms_center (str : Str) (n : Nat) (ch : Byte) :
    padArms str n [ch] .center = List.replicate ((n - str.length) / 2) ch
      ++ (if (n - str.length) % 2 = 1 then str ++ [space] else str) ++ List.replicate ((n - str.length) / 2) ch := by
  by_cases h : str.length = n
  · simp [padArms_equal h, h]
  · by_cases hp : (n - str.length) % 2 = 1 <;> simp [padArms, padCenter, h, hp]

theorem padArms_left (str : Str) (n : Nat) (ch : Byte) :
    padArms str n [ch] .left = str ++ List.replicate (n - str.length) ch := by
  by_cases h : str.length = n
  · simp [padArms_equal h, h]
  · simp [padArms, h]

theorem padArms_leftDefault (str : Str) (n : Nat) (c : Str) : padArms str n c .leftDefault = padArms str n c .left := rfl

/-- The center arm's halves and its odd byte make up the rest of the width, as the one run of the other arms does. -/
theorem padArms_length {str : Str} {n : Nat} (h : str.length ≤ n) (ch : Byte) (a : Align) :
    (padArms str n [ch] a).length = n := by
  have hleft : (padArms str n [ch] .left).length = n := by simp [padArms_left, h]
  cases a with
  | left => exact hleft
  | leftDefault => rw [padArms_leftDefault, hleft]
  | right => simp [padArms_right, h]
  | center =>
    rw [padArms_center]
    by_cases hp : (n - str.length) % 2 = 1 <;> simp [hp] <;> omega

/-! ### The ends of pad's checks (42_text_layout R191) -/

theorem padStr_tooLong {str : Str} {n : Nat} (h : n < str.length) (c : Str) (a : Align) :
    padStr str n c a = .error .tooLongError := if_pos h

theorem padStr_badChar {str c : Str} {n : Nat} (h : str.length ≤ n) (hc : c.length ≠ 1) (a : Align) :
    padStr str n c a = .error .invalidPadCharError := (if_neg (by omega)).trans (if_pos hc)

theorem padStr_byte {str : Str} {n : Nat} (h : str.length ≤ n) (ch : Byte) (a : Align) :
    padStr str n [ch] a = .ok (padArms str n [ch] a) := (if_neg (by omega)).trans (if_neg (by simp))

/-! ### PAD (42_text_layout R190) -/

theorem exec_pad_error {s : State} {str c : Str} {n : Nat} {a : Align} {e : ErrCode} (hq : s.seq = none)
    (hm : s.mode ≠ .uninit) (h : padStr str n c a = .error e) :
    exec (.pad str n c a) s = .next (s.afterOp [] 0 (.err e)) := by
  simp only [exec, execPad, started_read hq hm, h, report_afterOp]

theorem exec_pad_ok {s : State} {str c t : Str} {n : Nat} {a : Align} (hq : s.seq = none)
    (hm : s.mode ≠ .uninit) (h : padStr str n c a = .ok t) :
    exec (.pad str n c a) s = .next (s.afterOp [] 0 (.ok .padded (.str t))) := by
  simp only [exec, execPad, started_read hq hm, h, report_afterOp]

/-- Settles O25: each end of the checks with what PAD answers there, and past them the arm of each alignment. -/
theorem padPadsByAlignment : Obligations.PadPadsByAlignment := by
  intro s str n align hq hm
  refine ⟨fun c h => exec_pad_error hq hm (padStr_tooLong h c align),
    fun c h hc => exec_pad_error hq hm (padStr_badChar h hc align), fun ch h => ?_⟩
  refine exec_pad_ok hq hm ((padStr_byte h ch align).trans (congrArg Except.ok ?_))
  by_cases he : str.length = n
  · rw [padArms_equal he, if_pos he]
  · rw [if_neg he]
    cases align with
    | right => exact padArms_right str n ch
    | center => exact padArms_center str n ch
    | left => exact padArms_left str n ch
    | leftDefault => rw [padArms_leftDefault, padArms_left]

/-! ### The laws of pad (42_text_layout R198) -/

theorem rdropWhile_append_replicate (str : Str) (ch : Byte) (k : Nat) :
    (str ++ List.replicate k ch).rdropWhile (fun b => b == ch) = str.rdropWhile (fun b => b == ch) := by
  induction k with
  | zero => simp
  | succ k ih => rw [List.replicate_succ', ← List.append_assoc, List.rdropWhile_concat_pos _ _ _ (by simp), ih]

/-- Stripping keeps the strings that do not end with the byte stripped. -/
theorem rdropWhile_eq_self_iff_getLast? (str : Str) (ch : Byte) :
    str.rdropWhile (fun b => b == ch) = str ↔ str.getLast? ≠ some ch := by
  rw [List.rdropWhile_eq_self_iff]
  rcases List.eq_nil_or_concat str with rfl | ⟨init, last, rfl⟩ <;> simp

/-- Settles O27: left padding is the string with pad bytes behind it, and these are what stripping takes first. -/
theorem padLaws : Obligations.PadLaws := by
  intro str n ch align h
  refine ⟨_, padStr_byte h ch align, padArms_length h ch align, ?_⟩
  rintro rfl
  rw [padArms_left, rdropWhile_append_replicate]
  refine ⟨List.take_left, fun b hb => ?_, rdropWhile_eq_self_iff_getLast? str ch⟩
  rw [List.drop_left] at hb
  exact List.eq_of_mem_replicate hb

/-! ### DDRAM addressing (42_text_layout R196, R197) -/

theorem lineBase_eq_none_iff (line : Nat) : lineBase line = none ↔ line = 0 ∨ 4 < line := by
  match line with
  | 0 | 1 | 2 | 3 | 4 => simp [lineBase]
  | n + 5 => simp [lineBase]

theorem ddramAddr_of_lineBase {line base : Nat} (h : lineBase line = some base) (col : Nat) :
    ddramAddr line col = some (base + col) := by
  rw [ddramAddr, h, Option.map_some]

/-- Settles O26: the four entries of the table, and the lines that have none. -/
theorem ddramAddressIsBasePlusColumn : Obligations.DdramAddressIsBasePlusColumn :=
  ⟨fun col => ⟨ddramAddr_of_lineBase rfl col, ddramAddr_of_lineBase rfl col, ddramAddr_of_lineBase rfl col,
    ddramAddr_of_lineBase rfl col⟩, lineBase_eq_none_iff⟩

end Sys2Proof.Machine
end

section
/-! SUPPORT. The scroll window's micro-operations (43_scroll_window R210 to R214), and what R215, R217 and R219 say of a
legal window: its right edge stands to the buffer's end `L` as `ws + N` stands to `L + len(begin)`, whatever the width. -/

namespace Sys2Proof.Machine

/-! ### The micro-operations, called inside an operation -/

theorem winCreatePre_iff {buf b e : Str} {n : Nat} :
    winCreatePre buf n b e = true ↔ n < buf.length ∧ 1 ≤ n ∧ b.length + e.length + 1 ≤ n := by
  simp [winCreatePre, and_assoc]

/-- The end of WIN_FWD and WIN_BWD: the moved window is stored, or `BoundaryError` (43_scroll_window R213, R214). -/
def storeMoved (s : State) : Option Window → Outc
  | none => .next (s.raise .boundaryError)
  | some w => .next { s with win := some w }

theorem exec_winFwd_called {s : State} {q : Seq} {w : Window} (hq : s.seq = some q) (hw : s.win = some w) (n : Nat) :
    exec (.winFwd n) s = storeMoved s (w.fwd n) := by
  refine (inOp_some hq _).trans ((withWin_some hw _).trans ?_)
  cases w.fwd n <;> rfl

theorem exec_winBwd_called {s : State} {q : Seq} {w : Window} (hq : s.seq = some q) (hw : s.win = some w) (n : Nat) :
    exec (.winBwd n) s = storeMoved s (w.bwd n) := by
  refine (inOp_some hq _).trans ((withWin_some hw _).trans ?_)
  cases w.bwd n <;> rfl

theorem storeMoved_none {c : Cfg} {q : Seq} {s : State} (h : s.InOp c q) :
    storeMoved s none = .next (s.failedOp .boundaryError [] 0) :=
  congrArg _ (raise_failedOp _ h.lock)

/-- Settles O30: the check of `Window.fwd_eq`, each side of it stored as `storeMoved` says. -/
theorem winFwdMovesOrRaises : Obligations.WinFwdMovesOrRaises := by
  intro c q s w n hs hw
  rw [exec_winFwd_called hs.seq hw, Window.fwd_eq]
  refine ⟨fun h => ?_, fun h => ?_⟩
  · rw [if_pos h, storeMoved_none hs]
  · rw [if_neg h.not_gt, storeMoved]

/-- Settles O31: the check of `Window.bwd_eq`, each side of it stored as `storeMoved` says. -/
theorem winBwdMovesOrRaises : Obligations.WinBwdMovesOrRaises := by
  intro c q s w n hs hw
  rw [exec_winBwd_called hs.seq hw, Window.bwd_eq]
  refine ⟨fun h => ?_, fun h => ?_⟩
  · rw [if_pos h, storeMoved_none hs]
  · rw [if_neg h.not_gt, storeMoved]

/-- Settles O28: past its check WIN_CREATE stores the new window, whose right edge `N - len(end)` is inside the buffer. -/
theorem winCreateStartsAtBufferStart : Obligations.WinCreateStartsAtBufferStart := by
  intro q s buf lcdLen line b e hq hbuf hlen hmark w
  have hpre : winCreatePre buf lcdLen b e = true := winCreatePre_iff.mpr ⟨hbuf, hlen, by omega⟩
  refine ⟨(inOp_some hq _).trans (if_pos hpre), decide_eq_false (Nat.lt_irrefl 0), decide_eq_true ?_⟩
  show 0 + (lcdLen - e.length) < buf.length
  omega

/-- Settles O29: WIN_VIEW leaves `Window.view` as the called procedure's value. -/
theorem winViewShowsMarkersAndText : Obligations.WinViewShowsMarkersAndText := by
  intro q s w hq hw view
  refine (inOp_some hq _).trans ((withWin_some hw _).trans (congrArg _ ?_))
  rw [Window.view_eq, State.giveVal, hq, Option.map_some]

/-! ### Moves as steps between windows -/

theorem Window.fwd_some_iff {w w' : Window} {n : Nat} :
    w.fwd n = some w' ↔ w.ws + w.wl + n ≤ w.buf.length ∧ w' = w.movedTo (w.ws + n) := by
  rw [Window.fwd_eq]
  split_ifs with h
  · simp [h]
  · simp [not_lt.mp h, eq_comm]

theorem Window.fwd_none_iff {w : Window} {n : Nat} : w.fwd n = none ↔ w.buf.length < w.ws + w.wl + n := by
  simp [Window.fwd_eq]

theorem Window.bwd_some_iff {w w' : Window} {n : Nat} :
    w.bwd n = some w' ↔ n ≤ w.ws ∧ w' = w.movedTo (w.ws - n) := by
  rw [Window.bwd_eq]
  split_ifs with h
  · simp [h]
  · simp [not_lt.mp h, eq_comm]

theorem Window.bwd_none_iff {w : Window} {n : Nat} : w.bwd n = none ↔ w.ws < n := by
  simp [Window.bwd_eq]

theorem Window.movedTo_legal {w : Window} (hp : winCreatePre w.buf w.lcdLen w.beginM w.endM = true) {k : Nat}
    (hk : k ≤ w.buf.length) : (w.movedTo k).legal = true := by
  rw [← Window.recompute_moved]
  exact recompute_legal hp hk

/-! ### The right edge of a legal window -/

/-- The width by offset alone: what the shown markers leave of the line (43_scroll_window R211). -/
theorem Window.legal_wl {w : Window} (hw : w.legal = true) :
    w.wl = w.lcdLen - (if 0 < w.ws then w.beginM.length else 0)
      - (if w.ws + w.lcdLen < w.buf.length + w.beginM.length then w.endM.length else 0) := by
  obtain ⟨hbuf, hlen, hmark, hws, hself⟩ := w.legal_iff.mp hw
  have hwl : w.wl = (w.movedTo w.ws).wl := by rw [hself]
  rcases Nat.eq_zero_or_pos w.ws with h0 | h0
  · rw [hwl, h0, Window.movedTo_zero_wl hbuf, if_neg (by omega), if_pos (by omega), Nat.sub_zero]
  · rw [hwl, Window.movedTo_pos_wl h0, if_pos h0]
    split_ifs <;> omega

theorem Window.edge_lt_iff {w : Window} (hw : w.legal = true) :
    w.ws + w.wl < w.buf.length ↔ w.ws + w.lcdLen < w.buf.length + w.beginM.length := by
  obtain ⟨hbuf, hlen, hmark, -⟩ := w.legal_iff.mp hw
  rw [Window.legal_wl hw]
  split_ifs <;> omega

theorem Window.edge_le_iff {w : Window} (hw : w.legal = true) :
    w.ws + w.wl ≤ w.buf.length ↔ w.ws + w.lcdLen ≤ w.buf.length + w.beginM.length := by
  obtain ⟨hbuf, hlen, hmark, -⟩ := w.legal_iff.mp hw
  rw [Window.legal_wl hw]
  split_ifs <;> omega

theorem Window.edge_eq_iff {w : Window} (hw : w.legal = true) :
    w.ws + w.wl = w.buf.length ↔ w.ws + w.lcdLen = w.buf.length + w.beginM.length := by
  have hlt := Window.edge_lt_iff hw
  have hle := Window.edge_le_iff hw
  omega

theorem Window.one_le_wl {w : Window} (hw : w.legal = true) : 1 ≤ w.wl := by
  obtain ⟨-, -, hmark, -⟩ := w.legal_iff.mp hw
  rw [Window.legal_wl hw]
  split_ifs <;> omega

/-- The width and the shown markers fill the line (43_scroll_window R211). -/
theorem Window.markers_add_wl {w : Window} (hw : w.legal = true) :
    (if 0 < w.ws then w.beginM.length else 0) + w.wl
      + (if w.ws + w.wl < w.buf.length then w.endM.length else 0) = w.lcdLen := by
  obtain ⟨-, -, hmark, -⟩ := w.legal_iff.mp hw
  simp only [Window.edge_lt_iff hw]
  rw [Window.legal_wl hw]
  split_ifs <;> omega

theorem Window.view_length (w : Window) :
    w.view.length = (if 0 < w.ws then w.beginM.length else 0) + min w.wl (w.buf.length - w.ws)
      + (if w.ws + w.wl < w.buf.length then w.endM.length else 0) := by
  simp only [Window.view_eq, List.length_append, List.length_take, List.length_drop, apply_ite List.length, List.length_nil]

/-- WIN_FWD by at most 1 keeps the edge inside the buffer: from the end it fails (43_scroll_window R215 (d)). -/
theorem Window.fwd_edge_le {w w' : Window} {n : Nat} (hw : w.legal = true) (hn : n ≤ 1) (hedge : w.ws + w.wl ≤ w.buf.length)
    (h : w.fwd n = some w') : w'.ws + w'.wl ≤ w'.buf.length := by
  rw [Window.edge_le_iff (fwd_legal hw h).1]
  obtain ⟨hfits, rfl⟩ := Window.fwd_some_iff.mp h
  have hle := (Window.edge_le_iff hw).mp hedge
  have hlt := Window.edge_lt_iff hw
  show w.ws + n + w.lcdLen ≤ w.buf.length + w.beginM.length
  omega

/-- WIN_BWD keeps the edge inside the buffer (43_scroll_window R215 (d)). -/
theorem Window.bwd_edge_le {w w' : Window} {n : Nat} (hw : w.legal = true) (hedge : w.ws + w.wl ≤ w.buf.length)
    (h : w.bwd n = some w') : w'.ws + w'.wl ≤ w'.buf.length := by
  rw [Window.edge_le_iff (bwd_legal hw h).1]
  obtain ⟨-, rfl⟩ := Window.bwd_some_iff.mp h
  have hle := (Window.edge_le_iff hw).mp hedge
  show w.ws - n + w.lcdLen ≤ w.buf.length + w.beginM.length
  omega

/-- Settles O32: markers and width fill the line, and the view has the whole width exactly while the edge is inside. -/
theorem windowViewWidth : Obligations.WindowViewWidth := by
  intro w hw
  have hfill := Window.markers_add_wl hw
  obtain ⟨-, -, -, hws, -⟩ := w.legal_iff.mp hw
  refine ⟨Window.one_le_wl hw, fun hin => ?_, fun hout => ?_, fun n w' hn hin h => Window.fwd_edge_le hw hn hin h,
    fun n w' hin h => Window.bwd_edge_le hw hin h⟩
  · rw [Window.view_length, Nat.min_eq_left (by omega), hfill]
  · rw [Window.view_length, Nat.min_eq_right (by omega)]
    omega

/-! ### Single forward moves from creation (43_scroll_window R217) -/

theorem newWindow_eq_movedTo {buf b e : Str} {n : Nat} (line : Nat) (hp : winCreatePre buf n b e = true) :
    newWindow buf n line b e = (newWindow buf n line b e).movedTo 0 := by
  simp [newWindow, Window.movedTo, (winCreatePre_iff.mp hp).1]

theorem Window.fwd_one_movedTo {w : Window} {k : Nat} (hp : winCreatePre w.buf w.lcdLen w.beginM w.endM = true)
    (h : k + w.lcdLen < w.buf.length + w.beginM.length) : (w.movedTo k).fwd 1 = some (w.movedTo (k + 1)) := by
  obtain ⟨-, -, hmark⟩ := winCreatePre_iff.mp hp
  have hlegal : (w.movedTo k).legal = true := Window.movedTo_legal hp (by omega)
  exact Window.fwd_some_iff.mpr ⟨(Window.edge_lt_iff hlegal).mpr h, rfl⟩

theorem Window.fwd_one_iterate {w : Window} (hp : winCreatePre w.buf w.lcdLen w.beginM w.endM = true) (k : Nat)
    (h : k + w.lcdLen ≤ w.buf.length + w.beginM.length) :
    (fun o : Option Window => o.bind (fun w => w.fwd 1))^[k] (some (w.movedTo 0)) = some (w.movedTo k) := by
  induction k with
  | zero => rfl
  | succ k ih =>
    rw [Function.iterate_succ_apply', ih (by omega)]
    exact Window.fwd_one_movedTo hp (by omega)

/-- Settles O33: the moves land on each offset in turn; at `L - N + len(begin)` the edge is the buffer's end. -/
theorem forwardCountToTheBufferEnd : Obligations.ForwardCountToTheBufferEnd := by
  intro buf lcdLen line b e hp m
  obtain ⟨hbuf, -, hmark⟩ := winCreatePre_iff.mp hp
  have hm : m + lcdLen = buf.length + b.length := by omega
  have hlegal : ((newWindow buf lcdLen line b e).movedTo m).legal = true :=
    Window.movedTo_legal hp (show m ≤ buf.length by omega)
  have hedge : m + ((newWindow buf lcdLen line b e).movedTo m).wl = buf.length := (Window.edge_eq_iff hlegal).mpr hm
  refine ⟨(newWindow buf lcdLen line b e).movedTo m, ?_, rfl, by omega, hedge, Window.fwd_none_iff.mpr ?_⟩
  · rw [newWindow_eq_movedTo line hp]
    exact Window.fwd_one_iterate hp m hm.le
  · show buf.length < m + ((newWindow buf lcdLen line b e).movedTo m).wl + 1
    omega

/-! ### Moves between the named states (43_scroll_window R219) -/

/-- A backward move that stops short of the start lands on MIDDLE, from any state but OVERSHOOT. -/
theorem Window.bwd_middle {w w' : Window} {n : Nat} (hw : w.legal = true) (hn : 1 ≤ n) (hlt : n < w.ws)
    (hphase : w.phase ≠ .overshoot) (h : w.bwd n = some w') : w'.phase = .middle := by
  rw [Window.phase_middle, Window.edge_lt_iff (bwd_legal hw h).1]
  obtain ⟨-, rfl⟩ := Window.bwd_some_iff.mp h
  have hin : w.ws + w.wl ≤ w.buf.length := not_lt.mp fun hout => hphase (Window.phase_overshoot.mpr ⟨by omega, hout⟩)
  have hle := (Window.edge_le_iff hw).mp hin
  show 0 < w.ws - n ∧ w.ws - n + w.lcdLen < w.buf.length + w.beginM.length
  omega

/-- Settles O34: each transition by the offset and the edge it leaves; the last part is the overshoot of R216 (log 28). -/
theorem windowMovesBetweenPhases : Obligations.WindowMovesBetweenPhases := by
  refine ⟨fun w n hw hn => ⟨fun h => ?_, fun h => ?_, fun w' h hs => ?_, fun w' h hnw => ?_,
    fun w' h hlt hphase => Window.bwd_middle hw hn hlt hphase h⟩, by decide⟩
  · rw [Window.phase_finish, Window.phase_overshoot] at h
    exact Window.fwd_none_iff.mpr (by omega)
  · exact Window.bwd_none_iff.mpr (by rw [Window.phase_start.mp h]; exact hn)
  · obtain ⟨-, rfl⟩ := Window.fwd_some_iff.mp h
    have h0 : w.ws + n = 0 := Window.phase_start.mp hs
    omega
  · obtain ⟨-, rfl⟩ := Window.bwd_some_iff.mp h
    exact Window.phase_start.mpr (Nat.sub_eq_zero_of_le hnw.ge)

end Sys2Proof.Machine
end

section
/-! SUPPORT. The host operations of the render policy that render at most once: DISPLAY's paths but the rotate, SCROLL_FWD,
SCROLL_BWD, VIEW, CANCEL (44_render_policy R240 to R244, R247, R249 to R251). -/

namespace Sys2Proof.Machine

/-! ### DISPLAY (44_render_policy R240 to R242) -/

/-- A block stays ready under a change of the window. -/
theorem State.Ready.withWindow {c : Cfg} {s : State} (h : s.Ready c) (w : Option Window) :
    ({ s with win := w } : State).Ready c :=
  ⟨h.mode, h.seq, h.cfg, h.lock, h.tx, h.undisturbed⟩

/-- The three-way dispatch on the string's length (44_render_policy R240). -/
theorem exec_display_ready {c : Cfg} {s : State} (h : s.Ready c) (str : Str) (line : Nat) (align : Align) (ov : Overflow)
    (budget : Nat) :
    exec (.display str line align ov budget) s =
      if str.length = 0 then clearedPath (.display str line align ov budget) s
      else if str.length ≤ c.lineLength then staticPath (.display str line align ov budget) str line align c s
      else overflowPath (.display str line align ov budget) str line ov budget c s := by
  simp only [exec, execDisplay, started_read h.seq h.initialized, withCfg_some h.cfg]

/-- The overflow path is that of a string longer than the line. -/
theorem exec_display_long {c : Cfg} {s : State} (h : s.Ready c) {str : Str} (hlen : c.lineLength < str.length) (line : Nat)
    (align : Align) (ov : Overflow) (budget : Nat) :
    exec (.display str line align ov budget) s
      = overflowPath (.display str line align ov budget) str line ov budget c s := by
  rw [exec_display_ready h, if_neg (by omega), if_neg (by omega)]

theorem clearCommands_run (p : Params) (c : Cfg) :
    ∀ x ∈ clearCommands, Runs true p c x.1 (frameEvents p c.addr .instruction x.2) := by
  simp [clearCommands, fixed_call p c (.clearDisplay, _), fixed_call p c (.returnHome, _)]

/-- Settles O35: the cleared path is CLEAR's two calls, made without a window. -/
theorem displayOfEmptyStringClears : Obligations.DisplayOfEmptyStringClears := by
  intro c s line align ov budget h
  have ht := h.withWindow none
  refine calls_perform _ (commandCalls_events s.par c.addr clearCommands)
    (commandCalls_call (clearCommands_run s.par c)) ht.quiet ht.mode ht.seq rfl
    (op := .display [] line align ov budget) rfl ?_
  rw [exec_display_ready h, if_pos (by rfl)]
  rfl

/-- Settles O36: the static path writes the padded string from column 0, the window being gone before its line is checked. -/
theorem displayThatFitsIsStatic : Obligations.DisplayThatFitsIsStatic := by
  intro c s str line align ov budget h hpos hfits
  have ht := h.withWindow none
  have he : exec (.display str line align ov budget) s
      = writeRawBody (padArms str c.lineLength [space] align) line 0
          (({ s with win := none } : State).startOp (.display str line align ov budget) (.done .static .none)) := by
    rw [exec_display_ready h, if_neg (by omega), if_pos hfits]
    rfl
  exact ⟨fun hb => he.trans (raw_raises h none rfl _ _ 0 hb), fun a hr => ⟨_, padStr_byte hfits space align,
    padArms_length hfits space align, raw_performs _ hr ht.quiet ht.mode ht.seq rfl rfl he⟩⟩

/-! ### Rendering a window (44_render_policy R244, R248 to R250) -/

/-- Neither the markers nor the text go past the line (43_scroll_window R215 (c)). -/
theorem Window.view_length_le {w : Window} (hw : w.legal = true) : w.view.length ≤ w.lcdLen := by
  have hfill := Window.markers_add_wl hw
  rw [Window.view_length]
  omega

/-- Rendering a window is writing its view, completed with spaces, from column 0 of its line, the window being stored. -/
theorem renderMoved_eq {c : Cfg} {s : State} (hc : s.cfg = some c) (op : Instr) (w : Window) :
    renderMoved op w s = writeRawBody (padArms (shownPart w.view c.lineLength) c.lineLength [space] .left) w.line 0
      (({ s with win := some w } : State).startOp op (.done .scrolling (.str w.view))) :=
  withCfg_some (s := ({ s with win := some w } : State).startOp op (.done .scrolling (.str w.view))) hc _

/-- The window is stored before its line is checked. -/
theorem renderMoved_badLine {c : Cfg} {s : State} (h : s.Ready c) {op : Instr} (hop : isInitOp op = false) {w : Window}
    (hb : c.badLine w.line) :
    renderMoved op w s = .next (({ s with win := some w } : State).afterOp [] 0 (.err .invalidLineError)) := by
  rw [renderMoved_eq h.cfg]
  exact raw_raises h (some w) hop _ _ 0 hb

/-- An operation that ends by rendering a window stores it, sends its view completed with spaces, and returns the view. -/
theorem renderMoved_performs {c : Cfg} {s : State} (h : s.Ready c) {i op : Instr} (hop : isInitOp op = false) {w : Window}
    {a : Nat} (hfits : w.view.length ≤ c.lineLength) (hr : c.reaches w.line 0 a) (he : exec i s = renderMoved op w s) :
    Performs i s { s with win := some w } { s with win := some w }
      (streamEvents s.par c.addr ((.instruction, 0x80#8 ||| BitVec.ofNat 8 a)
        :: (w.view ++ List.replicate (c.lineLength - w.view.length) 0x20#8).map (fun b => (.data, b))))
      (.ok .scrolling (.str w.view)) := by
  have ht := h.withWindow (some w)
  refine raw_performs _ hr ht.quiet ht.mode ht.seq rfl hop (he.trans ?_)
  rw [renderMoved_eq h.cfg, shownPart_fits hfits, padArms_left]
  rfl

/-! ### DISPLAY's scroll path (44_render_policy R244) -/

/-- A new window shows the buffer's start and the end marker (43_scroll_window R210, R212). -/
theorem newWindow_view {buf : Str} {n : Nat} (h : n < buf.length) (line : Nat) (b e : Str) :
    (newWindow buf n line b e).view = buf.take (n - e.length) ++ e := by
  have hright : n - e.length < buf.length := by omega
  simp [Window.view_eq, newWindow, hright]

/-- Settles O38: the scroll path renders a new window, whose view fills the line. -/
theorem displayScrollCreatesWindow : Obligations.DisplayScrollCreatesWindow := by
  intro c s str line align budget h hlegal hlen t view
  have he : exec (.display str line align .scroll budget) s = renderMoved (.display str line align .scroll budget)
      (newWindow str c.lineLength line c.beginM c.endM) s := exec_display_long h hlen line align .scroll budget
  have hview : (newWindow str c.lineLength line c.beginM c.endM).view = view := newWindow_view hlen line _ _
  have hfill : view.length = c.lineLength := by
    have hmark : c.beginM.length + c.endM.length + 1 ≤ c.lineLength := by
      simp only [Cfg.legal, Bool.and_eq_true, decide_eq_true_eq] at hlegal
      exact hlegal.2
    simp only [view, List.length_append, List.length_take]
    omega
  refine ⟨fun hb => he.trans (renderMoved_badLine h rfl hb), fun a hr => ?_⟩
  have hp := renderMoved_performs h rfl (by rw [hview, hfill]) hr he
  rwa [hview, hfill, Nat.sub_self, List.replicate_zero, List.append_nil] at hp

/-! ### SCROLL_FWD and SCROLL_BWD (44_render_policy R249, R250) -/

/-- What SCROLL_FWD and SCROLL_BWD do from an idle block, of the window's move. -/
def scrollBy (op : Instr) (move : Window → Option Window) (s : State) : Outc :=
  match s.win with
  | none => .next (s.refuse .noWindow)
  | some w =>
    match move w with
    | none => .next ((s.startOp op (.done .done .none)).raise .boundaryError)
    | some w' => renderMoved op w' s

theorem exec_scrollFwd_ready {c : Cfg} {s : State} (h : s.Ready c) (n : Nat) :
    exec (.scrollFwd n) s = scrollBy (.scrollFwd n) (fun w => w.fwd n) s :=
  started_read h.seq h.initialized (.scrollFwd n) (scrollBy (.scrollFwd n) (fun w => w.fwd n) s)

theorem exec_scrollBwd_ready {c : Cfg} {s : State} (h : s.Ready c) (n : Nat) :
    exec (.scrollBwd n) s = scrollBy (.scrollBwd n) (fun w => w.bwd n) s :=
  started_read h.seq h.initialized (.scrollBwd n) (scrollBy (.scrollBwd n) (fun w => w.bwd n) s)

section
variable {c : Cfg} {s : State} {op : Instr} {move : Window → Option Window} {w w' : Window}

theorem scrollBy_noWindow (h : s.Ready c) (hw : s.win = none) :
    scrollBy op move s = .next (s.afterOp [] 0 (.refused .noWindow)) := by
  simp only [scrollBy, hw, refuse_afterOp h.seq]

theorem scrollBy_boundary (h : s.Ready c) (hop : isInitOp op = false) (hw : s.win = some w) (hm : move w = none) :
    scrollBy op move s = .next (s.afterOp [] 0 (.err .boundaryError)) := by
  simp only [scrollBy, hw, hm]
  exact congrArg _ (raise_ready h s.win hop _ _)

theorem scrollBy_moves (hw : s.win = some w) (hm : move w = some w') : scrollBy op move s = renderMoved op w' s := by
  simp only [scrollBy, hw, hm]

end

/-- The view of a moved window fits the line of the configuration (43_scroll_window R215, 44_render_policy R244). -/
theorem State.Inv.moved_view_fits {c : Cfg} {s : State} {w : Window} (hI : s.Inv) (h : s.Ready c) (hw : s.win = some w)
    {k : Nat} (hk : k ≤ w.buf.length) : (w.movedTo k).view.length ≤ c.lineLength := by
  rw [← hI.winWidth w c hw h.cfg]
  exact Window.view_length_le (Window.movedTo_legal (Window.legal_pre (hI.window w hw)).1 hk)

/-- Settles O45: the three ends of R249's checks, the move's offset inside the buffer. -/
theorem scrollFwdMovesAndRenders : Obligations.ScrollFwdMovesAndRenders := by
  intro c s n h hI
  have he := exec_scrollFwd_ready h n
  refine ⟨fun hw => he.trans (scrollBy_noWindow h hw), fun w hw => ⟨fun hout => ?_, fun hin => ?_⟩⟩
  · exact he.trans (scrollBy_boundary h rfl hw (Window.fwd_none_iff.mpr hout))
  · have hmove := he.trans (scrollBy_moves hw (Window.fwd_some_iff.mpr ⟨hin, rfl⟩))
    have hfits := hI.moved_view_fits h hw (k := w.ws + n) (by omega)
    exact ⟨fun hb => hmove.trans (renderMoved_badLine h rfl hb), fun a hr => renderMoved_performs h rfl hfits hr hmove⟩

/-- Settles O46: the three ends of R250's checks, the move's offset inside the buffer. -/
theorem scrollBwdMovesAndRenders : Obligations.ScrollBwdMovesAndRenders := by
  intro c s n h hI
  have he := exec_scrollBwd_ready h n
  refine ⟨fun hw => he.trans (scrollBy_noWindow h hw), fun w hw => ⟨fun hout => ?_, fun hin => ?_⟩⟩
  · exact he.trans (scrollBy_boundary h rfl hw (Window.bwd_none_iff.mpr hout))
  · obtain ⟨-, hws, -⟩ := Window.legal_pre (hI.window w hw)
    have hmove := he.trans (scrollBy_moves hw (Window.bwd_some_iff.mpr ⟨hin, rfl⟩))
    have hfits := hI.moved_view_fits h hw (k := w.ws - n) (by omega)
    exact ⟨fun hb => hmove.trans (renderMoved_badLine h rfl hb), fun a hr => renderMoved_performs h rfl hfits hr hmove⟩

/-! ### VIEW and CANCEL (44_render_policy R247, R251) -/

/-- Settles O47: VIEW reads WIN past the checks of every request, and shows `Window.view`. -/
theorem viewReturnsCurrentView : Obligations.ViewReturnsCurrentView := by
  intro s hq hm
  refine ⟨fun hw => ?_, fun w hw => ?_⟩
  · simp only [exec, execView, started_read hq hm, hw, refuse_afterOp hq]
  · simp only [exec, execView, started_read hq hm, hw, report_afterOp, Window.view_eq]

/-- Settles O43: what CANCEL answers is written out in its meaning, for every state. -/
theorem cancelLatchesInRotating : Obligations.CancelLatchesInRotating := fun _ => rfl

end Sys2Proof.Machine
end

section
/-! SUPPORT. The renders as called by another procedure (44_render_policy R248), and ROT_STEP (R246). -/

namespace Sys2Proof.Machine

/-! ### POS_CURSOR, WRITE_RAW, RENDER_LINE called inside an operation (44_render_policy R248) -/

/-- Between frames a check that raises ends the operation as 60_exceptions R280 says. -/
theorem State.InCall.raise {c : Cfg} {q : Seq} {s : State} (h : s.InCall c q) (e : ErrCode) :
    s.raise e = s.failedOp e [] 0 :=
  raise_failedOp e (.inr ⟨h.lock, h.tx⟩)

/-- Between frames a called procedure is the events it runs as. -/
theorem State.InCall.callRuns {c : Cfg} {q : Seq} {s : State} {i : Instr} {evs : List Event} (h : s.InCall c q)
    (hr : Runs true s.par c (.call i) evs) : CallRuns i s evs :=
  hr.callRuns h.seq h.cfg h.undisturbed (.inr ⟨h.lock, h.tx⟩) fun _ => ⟨h.lock, h.tx⟩

theorem exec_posCursor_badLine {c : Cfg} {q : Seq} {s : State} (h : s.InCall c q) {line : Nat} (col : Nat)
    (hb : c.badLine line) : exec (.posCursor line col) s = .next (s.failedOp .invalidLineError [] 0) := by
  simp only [exec, execPosCursor, h.seq, withCfg_some h.cfg, cursorCheck_badLine col hb, h.raise]

theorem writeRawBody_badLine {c : Cfg} {q : Seq} {s : State} (h : s.InCall c q) (str : Str) {line : Nat} (col : Nat)
    (hb : c.badLine line) : writeRawBody str line col s = .next (s.failedOp .invalidLineError [] 0) := by
  simp only [writeRawBody, withCfg_some h.cfg, cursorCheck_badLine col hb, h.raise]

theorem exec_writeRaw_badLine {c : Cfg} {q : Seq} {s : State} (h : s.InCall c q) (str : Str) {line : Nat} (col : Nat)
    (hb : c.badLine line) : exec (.writeRaw str line col) s = .next (s.failedOp .invalidLineError [] 0) := by
  simp only [exec, execWriteRaw, h.seq, writeRawBody_badLine h str col hb]

theorem exec_renderLine_badLine {c : Cfg} {q : Seq} {s : State} (h : s.InCall c q) (str : Str) {line : Nat}
    (hb : c.badLine line) : exec (.renderLine str line) s = .next (s.failedOp .invalidLineError [] 0) := by
  simp only [exec, execRenderLine, inOp_some h.seq, renderBody, withCfg_some h.cfg, writeRawBody_badLine h _ 0 hb]

/-- RENDER_LINE on a line of the geometry, its command stream written out (44_render_policy R248). -/
theorem renderLine_reaches (p : Params) {c : Cfg} {line a : Nat} (hr : c.reaches line 0 a) (str : Str) :
    Runs true p c (.call (.renderLine str line)) (streamEvents p c.addr ((.instruction, 0x80#8 ||| BitVec.ofNat 8 a)
      :: (padArms (shownPart str c.lineLength) c.lineLength [space] .left).map (fun b => (.data, b)))) := by
  rw [← rawStream_reaches hr]
  exact renderLine_call p c str (cursorCheck_reaches hr)

/-- Settles O44: the cursor's check raises in all three, and else they are the calls they expand into. -/
theorem calledRendersRunOrRaise : Obligations.CalledRendersRunOrRaise := by
  intro c q s str line col h
  refine ⟨fun hb => ⟨exec_posCursor_badLine h col hb, exec_writeRaw_badLine h str col hb, exec_renderLine_badLine h str hb⟩,
    fun a hr => ⟨h.callRuns ?_, h.callRuns ?_⟩,
    fun a hr => ⟨_, ?_, fun hfits => ?_, h.callRuns (renderLine_reaches s.par hr str)⟩⟩
  · have hcursor := posCursor_call s.par c (cursorCheck_reaches hr)
    rw [setDdramByte_ofNat hr.2.2.2] at hcursor
    simpa only [streamEvents, List.append_nil] using hcursor
  · rw [← rawStream_reaches hr]
    exact writeRaw_call s.par c str (cursorCheck_reaches hr)
  · exact padArms_length (shownPart_length str c.lineLength) space .left
  · rw [shownPart_fits hfits, padArms_left]
    rfl

/-! ### Rotation (44_render_policy R246, 00_scope R17) -/

theorem rotl1_eq (str : Str) : rotl1 str = str.drop 1 ++ str.take 1 := by
  simp [rotl1, slice]

theorem rotl1_eq_rotate (str : Str) : rotl1 str = str.rotate 1 := by
  rw [rotl1_eq]
  cases str with
  | nil => rfl
  | cons b str => simp

theorem rotl1_iterate (k : Nat) (str : Str) : rotl1^[k] str = str.rotate k := by
  induction k with
  | zero => simp
  | succ k ih => rw [Function.iterate_succ_apply', ih, rotl1_eq_rotate, List.rotate_rotate]

theorem rotl1_iterate_length (k : Nat) (str : Str) : (rotl1^[k] str).length = str.length := by
  rw [rotl1_iterate, List.length_rotate]

/-- Settles O41: `rotl1` is the library's rotation by one, whose laws these are. -/
theorem rotationRepeatsWithItsLength : Obligations.RotationRepeatsWithItsLength := by
  intro str j
  refine ⟨?_, rotl1_iterate_length 1 str, fun k hk => ?_⟩
  · rw [rotl1_iterate, rotl1_iterate, Nat.add_comm, ← List.rotate_rotate, List.rotate_length]
  · rw [rotl1_iterate, List.rotate_eq_drop_append_take hk.le]

/-! ### The frame of ROT_STEP (44_render_policy R246) -/

theorem rotFrame_eq {n : Nat} (hn : 2 ≤ n) (str : Str) : rotFrame str n = [ltByte] ++ str.take (n - 2) ++ [gtByte] := by
  simp [rotFrame, rotTextWidth, slice, hn]

/-- The frame of a string at least as long as the line fills the line. -/
theorem rotFrame_length {n : Nat} (hn : 2 ≤ n) {str : Str} (hlen : n ≤ str.length) : (rotFrame str n).length = n := by
  simp only [rotFrame_eq hn, List.length_append, List.length_take, List.length_singleton]
  omega

/-- The events of one turn of the rotate loop that shows `str` at DDRAM address `a` (44_render_policy R246). -/
def turnEvents (p : Params) (c : Cfg) (a : Nat) (str : Str) : List Event :=
  streamEvents p c.addr ((.instruction, 0x80#8 ||| BitVec.ofNat 8 a)
    :: (([0x3C#8] ++ str.take (c.lineLength - 2) ++ [0x3E#8]).map (fun b => (.data, b)))) ++ [.wait c.rotInterval]

/-- How many bus writes a turn has: a command frame for the cursor and one for each column. -/
def turnWrites (p : Params) (c : Cfg) : Nat := frameWrites p * (c.lineLength + 1)

theorem turnWrites_pos (p : Params) (c : Cfg) : 0 < turnWrites p c := Nat.mul_pos (frameWrites_pos p) (Nat.succ_pos _)

theorem busWrites_turnEvents (p : Params) {c : Cfg} (a : Nat) {str : Str} (hn : 2 ≤ c.lineLength)
    (hlen : c.lineLength ≤ str.length) : busWrites (turnEvents p c a str) = turnWrites p c := by
  have hframe := rotFrame_length hn hlen
  rw [rotFrame_eq hn] at hframe
  rw [turnEvents, busWrites_append, busWrites_streamEvents, List.length_cons, List.length_map]
  exact congrArg (fun k => frameWrites p * (k + 1)) hframe

/-- The statements of ROT_STEP that emit events, with these events. -/
def turnCalls (p : Params) (c : Cfg) (line a : Nat) (str : Str) : List (Stmt × List Event) :=
  [(.call (.renderLine (rotFrame str c.lineLength) line), streamEvents p c.addr ((.instruction, 0x80#8 ||| BitVec.ofNat 8 a)
      :: (([0x3C#8] ++ str.take (c.lineLength - 2) ++ [0x3E#8]).map (fun b => (.data, b))))),
    (.rotWait, [.wait c.rotInterval])]

theorem turnCalls_events (p : Params) (c : Cfg) (line a : Nat) (str : Str) :
    ((turnCalls p c line a str).map (fun x => x.2)).flatten = turnEvents p c a str := by
  simp [turnCalls, turnEvents]

theorem turnCalls_call (p : Params) {c : Cfg} {line a : Nat} (hr : c.reaches line 0 a) (hn : 2 ≤ c.lineLength) {str : Str}
    (hlen : c.lineLength ≤ str.length) : ∀ x ∈ turnCalls p c line a str, Runs true p c x.1 x.2 := by
  have hframe := rotFrame_length hn hlen
  have hrender := renderLine_reaches p hr (rotFrame str c.lineLength)
  rw [shownPart_fits hframe.le, padArms_equal hframe, rotFrame_eq hn] at hrender
  rw [turnCalls, rotFrame_eq hn]
  exact List.forall_mem_cons.mpr ⟨hrender, List.forall_mem_singleton.mpr (rotWait_stmt true p c)⟩

/-! ### ROT_STEP (44_render_policy R246) -/

/-- ROT with its string rotated, as ROT_STEP begins. -/
def Rot.turned (r : Rot) : Rot := { r with s := rotl1 r.s }

/-- ROT with a turn of `t` microseconds counted, as ROT_STEP ends. -/
def Rot.counted (t : Nat) (r : Rot) : Rot := { r with elapsed := r.elapsed + t, iter := r.iter + 1 }

/-- The block with ROT's string rotated. -/
def State.withRotation (r : Rot) (s : State) : State := { s with rot := some r }

theorem State.InCall.withRotation {c : Cfg} {q : Seq} {s : State} (h : s.InCall c q) (r : Rot) :
    (s.withRotation r).InCall c q :=
  ⟨h.seq, h.cfg, h.lock, h.tx, h.undisturbed⟩

/-- The block after ROT_STEP's own move: the string rotated, and its three statements next. -/
def State.turning (c : Cfg) (r : Rot) (s : State) : State :=
  (s.withRotation r.turned).push [.call (.renderLine (rotFrame r.turned.s c.lineLength) r.line), .rotWait, .rotCount]

theorem exec_rotStep_called {c : Cfg} {q : Seq} {s : State} {r : Rot} (h : s.InCall c q) (hr : s.rot = some r) :
    exec .rotStep s = .next (s.turning c r) := by
  simp only [exec, execRotStep, inOp_some h.seq, withRot_some hr, withCfg_some h.cfg]
  rfl

theorem State.InCall.push {c : Cfg} {q : Seq} {s : State} (h : s.InCall c q) (l : List Stmt) :
    (s.push l).InCall c { q with todo := l ++ q.todo } :=
  ⟨by simp [h.seq], h.cfg, h.lock, h.tx, h.undisturbed⟩

theorem State.InCall.turning {c : Cfg} {q : Seq} {s : State} (h : s.InCall c q) (r : Rot) :
    (s.turning c r).InCall c { q with todo := .call (.renderLine (rotFrame r.turned.s c.lineLength) r.line)
      :: .rotWait :: .rotCount :: q.todo } :=
  (h.withRotation r.turned).push
    [.call (.renderLine (rotFrame r.turned.s c.lineLength) r.line), .rotWait, .rotCount]

theorem State.InCall.setTodo {c : Cfg} {q : Seq} {s : State} (h : s.InCall c q) (l : List Stmt) :
    (s.setTodo l).InCall c { q with todo := l } :=
  ⟨by simp [h.seq], h.cfg, h.lock, h.tx, h.undisturbed⟩

theorem State.InCall.ran {c : Cfg} {q : Seq} {s : State} (h : s.InCall c q) (evs : List Event) (n : Nat) (l : List Stmt) :
    (s.ran evs n l).InCall c { q with todo := l, pos := q.pos + evs.length } :=
  ⟨by simp [State.ran, h.seq], h.cfg, h.lock, by simp [State.ran, h.tx, phases_none], h.undisturbed⟩

/-- The last statement of ROT_STEP counts the turn. -/
theorem step_rotCount {c : Cfg} {q : Seq} {s : State} {r : Rot} {l : List Stmt} (h : s.InCall c q)
    (ht : q.todo = .rotCount :: l) (hr : s.rot = some r) :
    step s = .next ((s.setTodo l).withRotation (r.counted c.rotInterval)) := by
  rw [step_stmt h.seq ht h.undisturbed, execStmt, rotCountOp, withRot_some (s := s.setTodo l) hr,
    withCfg_some (s := s.setTodo l) h.cfg]
  rfl

/-- The end of an operation by an error does not depend on the statements it had left. -/
theorem failedOp_setTodo (l : List Stmt) (s : State) (e : ErrCode) (evs : List Event) (n : Nat) :
    (s.setTodo l).failedOp e evs n = s.failedOp e evs n := by
  obtain ⟨par, cfg, mode, win, rot, cancel, tx, lock, seq, status, trace, results, port, bus, draws, cur, parked, turns⟩ := s
  cases seq <;> rfl

theorem failedOp_push (l : List Stmt) (s : State) (e : ErrCode) (evs : List Event) (n : Nat) :
    (s.push l).failedOp e evs n = s.failedOp e evs n := by
  obtain ⟨par, cfg, mode, win, rot, cancel, tx, lock, seq, status, trace, results, port, bus, draws, cur, parked, turns⟩ := s
  cases seq <;> rfl

section
variable {c : Cfg} {q : Seq} {s : State} {r : Rot}

/-- The frame's line is checked when RENDER_LINE is called, the string being rotated. -/
theorem rotStep_badLine (h : s.InCall c q) (hr : s.rot = some r) (hb : c.badLine r.line) :
    CompletesWith .rotStep s ((s.withRotation r.turned).failedOp .invalidLineError [] 0) := by
  have ht := h.turning r
  have hrender := exec_renderLine_badLine (ht.setTodo (.rotWait :: .rotCount :: q.todo)) (rotFrame r.turned.s c.lineLength) hb
  rw [failedOp_setTodo, State.turning, failedOp_push] at hrender
  exact ⟨_, exec_rotStep_called h hr, Reaches.head ((step_call ht.seq rfl ht.undisturbed).trans hrender) (Reaches.refl _)⟩

/-- Every write answered, the turn's events are emitted, up to the count. -/
theorem turning_runs {a : Nat} (h : s.InCall c q) (hline : c.reaches r.line 0 a) (hn : 2 ≤ c.lineLength)
    (hlen : c.lineLength ≤ r.turned.s.length) (hok : s.answersOk (busWrites (turnEvents s.par c a r.turned.s))) :
    Reaches (s.turning c r) ((s.turning c r).ran (turnEvents s.par c a r.turned.s)
      (busWrites (turnEvents s.par c a r.turned.s)) (.rotCount :: q.todo)) := by
  have ht := h.turning r
  have hcalls := counted_mem (turnCalls_call s.par hline hn hlen)
  have hran := runs_calls true s.par c _ (fun x hx => (hcalls x hx).1) (s.turning c r) _ (.rotCount :: q.todo) rfl ht.seq
    rfl ht.cfg (by rw [counted_writes, turnCalls_events]; exact hok) ht.undisturbed fun _ => ⟨ht.lock, ht.tx⟩
  rwa [counted_events, counted_writes, turnCalls_events] at hran

/-- What a turn has left once it is counted (44_render_policy R246). -/
theorem turning_counted (h : s.InCall c q) (evs : List Event) (n : Nat) (l : List Stmt) (r' : Rot) :
    (((s.turning c r).ran evs n l).setTodo q.todo).withRotation r' = (s.afterCall evs n).withRotation r' := by
  obtain ⟨hq, -, -, htx, -⟩ := h
  obtain ⟨par, cfg, mode, win, rot, cancel, tx, lock, seq, status, trace, results, port, bus, draws, cur, parked, turns⟩ := s
  simp only at hq htx
  subst hq htx
  simp [State.turning, State.withRotation, State.ran, State.afterCall, State.emitted, State.setTodo, phases_none]

/-- Every write answered, ROT_STEP emits the events of its turn and counts it. -/
theorem rotStep_runs {a : Nat} (h : s.InCall c q) (hr : s.rot = some r) (hline : c.reaches r.line 0 a)
    (hn : 2 ≤ c.lineLength) (hlen : c.lineLength ≤ r.turned.s.length)
    (hok : s.answersOk (busWrites (turnEvents s.par c a r.turned.s))) :
    CompletesWith .rotStep s ((s.afterCall (turnEvents s.par c a r.turned.s)
      (busWrites (turnEvents s.par c a r.turned.s))).withRotation (r.turned.counted c.rotInterval)) := by
  refine ⟨_, exec_rotStep_called h hr, (turning_runs h hline hn hlen hok).trans (Reaches.head
    (step_rotCount ((h.turning r).ran _ _ _) rfl (r := r.turned) rfl) ?_)⟩
  rw [turning_counted h]
  exact Reaches.refl _

/-- At a failing write ROT_STEP ends the operation, the string being rotated. -/
theorem rotStep_breaks {a k : Nat} (h : s.InCall c q) (hr : s.rot = some r) (hline : c.reaches r.line 0 a)
    (hn : 2 ≤ c.lineLength) (hlen : c.lineLength ≤ r.turned.s.length)
    (hk : k < busWrites (turnEvents s.par c a r.turned.s)) (hb : s.failsAt k) :
    CompletesWith .rotStep s ((s.withRotation r.turned).failedOp .transportError
      (cutAt k (turnEvents s.par c a r.turned.s)) (k + 1)) := by
  have ht := h.turning r
  have hbroke := breaks_calls true s.par c (counted (turnCalls s.par c r.line a r.turned.s))
    (counted_mem (turnCalls_call s.par hline hn hlen)) (s.turning c r) _ (.rotCount :: q.todo) k rfl ht.seq rfl ht.cfg
    ht.undisturbed (.inr ⟨ht.lock, ht.tx⟩) (fun _ => ⟨ht.lock, ht.tx⟩)
    (by rw [counted_events, turnCalls_events]; exact hk) hb
  rw [counted_events, turnCalls_events, State.turning, failedOp_push] at hbroke
  exact ⟨_, exec_rotStep_called h hr, hbroke⟩

end

/-- Settles O40: the three ends of ROT_STEP. -/
theorem rotStepRendersOneFrame : Obligations.RotStepRendersOneFrame := by
  intro c q s r h _ hr hn hlen str t
  have hturned : r.turned = { r with s := str } := by rw [Rot.turned, rotl1_eq]
  have hlen' : c.lineLength ≤ r.turned.s.length := by
    rw [Rot.turned]
    exact hlen.trans_eq (rotl1_iterate_length 1 r.s).symm
  refine ⟨fun hb => ?_, fun a hline => ⟨fun hok => ?_, fun k hk hb => ?_⟩⟩
  · have := rotStep_badLine h hr hb
    rwa [hturned] at this
  · have := rotStep_runs h hr hline hn hlen' (by rwa [hturned])
    rwa [hturned] at this
  · have := rotStep_breaks h hr hline hn hlen' (by rwa [hturned]) hb
    rwa [hturned] at this

end Sys2Proof.Machine
end

section
/-! SUPPORT. The rotate loop (44_render_policy R245, R252): its check, its turns in a row, and the ways out of it. -/

namespace Sys2Proof.Machine

/-! ### The loop's check (44_render_policy R245) -/

/-- The loop's check is the move of a rotating operation that has no statement left. -/
theorem step_check {s : State} {q : Seq} (hq : s.seq = some q) (ht : q.todo = []) (hret : q.ret = .rotate)
    (hu : s.undisturbed) : step s = rotCheck s := by
  simp only [step_inOp hq hu, runNext, ht, hret]

/-- The end of a rotate without an error, between frames (60_exceptions R291; log 25). -/
theorem finish_rotating {s : State} {q : Seq} (hq : s.seq = some q) (hop : isInitOp q.op = false) (hm : s.mode = .rotating)
    (hl : s.lock = none) (st : Status) (v : Value) :
    s.finish st v = ({ s with
      seq := none
      mode := .idle
      rot := if s.othersRotate then s.rot else none
      cancel := false } : State).afterOp [] 0 (.ok st v) := by
  obtain ⟨par, cfg, mode, win, rot, cancel, tx, lock, seq, status, trace, results, port, bus, draws, cur, parked, turns⟩ := s
  simp only at hq hm hl
  subst hq hm hl
  cases ho : State.othersRotate _ <;>
    simp [State.finish, State.tellOthers, State.inInit, hop, State.closeOp, State.releaseLock, State.report, State.afterOp,
      State.emitted, ho]

theorem rotCheck_ends {s : State} {r : Rot} (hr : s.rot = some r)
    (hend : s.cancel = true ∨ (0 < r.budget ∧ r.iter = r.budget)) :
    rotCheck s = .next (s.finish .rotated (.count r.iter)) := by
  rw [rotCheck, withRot_some hr, if_pos hend]

theorem rotCheck_loops {s : State} {r : Rot} (hr : s.rot = some r)
    (hend : ¬ (s.cancel = true ∨ (0 < r.budget ∧ r.iter = r.budget))) :
    rotCheck s = .next (s.push [.call .rotStep]) := by
  rw [rotCheck, withRot_some hr, if_neg hend]

/-! ### The ways out of ROTATING (44_render_policy R252) -/

/-- A statement that changes MODE has raised. -/
theorem OpMove.raised_of_mode {s t : State} (hm : OpMove s t) (hne : t.mode ≠ s.mode) :
    ∃ e, t.results = s.results ++ [(s.cur, .err e)] := by
  cases hm with
  | pushed l hl => exact absurd rfl hne
  | waited n => exact absurd rfl hne
  | wrote c v hc hv => exact absurd (by simp) hne
  | failed c v hc hv => exact ⟨.transportError, by simp⟩
  | raised e => exact ⟨e, by simp⟩
  | took tx l hl hlock htx => exact absurd rfl hne
  | turned r r' l hl hm hr hb => exact absurd rfl hne

/-- A step of a rotating operation out of ROTATING is an error, or the end of the loop's check. -/
theorem OpStep.leaves_rotating {s t : State} {q : Seq} (hm : OpStep s q t) (hret : q.ret = .rotate)
    (hne : t.mode ≠ s.mode) :
    (∃ e, t.results = s.results ++ [(s.cur, .err e)])
      ∨ ∃ r, s.rot = some r ∧ (s.cancel = true ∨ (0 < r.budget ∧ r.iter = r.budget))
          ∧ t.results = s.results ++ [(s.cur, .ok .rotated (.count r.iter))] := by
  cases hm with
  | ran st rest t ht hmv => exact .inl (hmv.raised_of_mode hne)
  | released rest ht => exact absurd (by simp) hne
  | finished st v ht hr => rw [hret] at hr; cases hr
  | rotated r ht _ hr hend => exact .inr ⟨r, hr, hend, by simp⟩
  | looped ht _ => exact absurd rfl hne
  | cancelled rest hd => exact absurd rfl hne

/-- Settles O42: the check's two branches, and, of the steps of an operation, those that leave MODE. -/
theorem rotationEndsOnlyAsItsRuleSays : Obligations.RotationEndsOnlyAsItsRuleSays := by
  refine ⟨fun q s r hq ht hret hop hm hr hl hu => ⟨fun hend => ?_, fun hend => ?_⟩, fun s t hI hm hst hne => ?_⟩
  · rw [step_check hq ht hret hu, rotCheck_ends hr hend, finish_rotating hq hop hm hl]
  · rw [step_check hq ht hret hu, rotCheck_loops hr hend, push_call hq, ht]
  · have hseq := hI.seqOk
    obtain ⟨u, rfl, hIu, hcases⟩ := step_cases hI
    rcases hcases with ⟨q, t', hq, hst', hop⟩ | ⟨hq, -⟩ | ⟨a, rest, t', hq, -⟩ | ⟨a, rest, hq, -⟩
    · obtain rfl := Host.Outcome.next.inj (hst.symm.trans hst')
      obtain ⟨-, hret, -⟩ := hI.inOp hq
      exact hop.leaves_rotating (hret.mpr hm) (by simpa [hm] using hne)
    all_goals simp [State.seqOk, hq, hm] at hseq

/-! ### Turns in a row (44_render_policy R245, R246) -/

/-- A call pushed to the front of an operation's statements runs as its own move says. -/
theorem CompletesWith.reaches_push {i : Instr} {s t : State} {q : Seq} (hq : s.seq = some q) (hu : s.undisturbed)
    (h : CompletesWith i s t) : Reaches (s.push [.call i]) t := by
  obtain ⟨u, he, hr⟩ := h
  have hpush : s.push [.call i] = s.setTodo (.call i :: q.todo) := by simp [State.push, State.setTodo, hq]
  refine Reaches.head ?_ hr
  rw [hpush, step_call (s := s.setTodo (.call i :: q.todo)) (q := { q with todo := .call i :: q.todo }) (by simp [hq]) rfl hu,
    setTodo_self hq, he]

/-- The block at the loop's check of `op`, after the events `evs` with `n` writes, ROT being `r`. -/
def State.atCheck (op : Instr) (r : Rot) (evs : List Event) (n : Nat) (s : State) : State :=
  { s.emitted evs n with
    win := none
    cancel := false
    rot := some r
    mode := .rotating
    seq := some { op := op, pos := evs.length, todo := [], ret := .rotate, val := .none } }

/-- What a rotate of ROT `r` leaves of the block it started in: no window, no CANCEL, and ROT only for the others (log 25). -/
def State.leftBy (r : Rot) (s : State) : State :=
  { s with win := none, cancel := false, rot := if s.othersRotate then some r else none }

section
variable {c : Cfg} {s : State} {op : Instr}

theorem State.Ready.atCheck (h : s.Ready c) (r : Rot) (evs : List Event) (n : Nat) :
    (s.atCheck op r evs n).InCall c { op := op, pos := evs.length, todo := [], ret := .rotate, val := .none } :=
  ⟨rfl, h.cfg, h.lock, h.tx, h.undisturbed⟩

/-- A turn takes the block from one check to the next. -/
theorem atCheck_turn (r r' : Rot) (e1 e2 : List Event) (m n : Nat) :
    ((s.atCheck op r e1 m).afterCall e2 n).withRotation r' = s.atCheck op r' (e1 ++ e2) (m + n) := by
  simp [State.atCheck, State.afterCall, State.emitted, State.withRotation]

theorem atCheck_failed (h : s.Ready c) (hop : isInitOp op = false) (r r' : Rot) (e : ErrCode) (e1 e2 : List Event)
    (m n : Nat) :
    ((s.atCheck op r e1 m).withRotation r').failedOp e e2 n = (s.leftBy r').afterOp (e1 ++ e2) (m + n) (.err e) := by
  have hothers : ((s.atCheck op r e1 m).withRotation r').othersRotate = s.othersRotate := rfl
  rw [State.failedOp, hothers]
  cases ho : s.othersRotate <;>
    simp [State.atCheck, State.withRotation, State.leftBy, State.afterOp, State.emitted, State.inInit, hop, ho, h.mode,
      h.seq, h.lock, h.tx]

theorem atCheck_finish (h : s.Ready c) (hop : isInitOp op = false) (r : Rot) (evs : List Event) (n : Nat) (st : Status)
    (v : Value) : (s.atCheck op r evs n).finish st v = (s.leftBy r).afterOp evs n (.ok st v) := by
  have hothers : (s.atCheck op r evs n).othersRotate = s.othersRotate := rfl
  rw [finish_rotating (s := s.atCheck op r evs n) rfl hop rfl h.lock, hothers]
  simp [State.atCheck, State.leftBy, State.afterOp, State.emitted, h.mode, h.seq]

end

/-- ROT of a DISPLAY on the rotate path after `k` turns of `t` microseconds (44_render_policy R245, R246). -/
def rotAfter (str : Str) (line budget t k : Nat) : Rot :=
  { s := rotl1^[k] (rotString str), line := line, iter := k, elapsed := k * t, budget := budget }

theorem rotAfter_turned (str : Str) (line budget t k : Nat) :
    (rotAfter str line budget t k).turned = { rotAfter str line budget t k with s := rotl1^[k + 1] (rotString str) } := by
  rw [Function.iterate_succ_apply']
  rfl

theorem rotAfter_succ (str : Str) (line budget t k : Nat) :
    (rotAfter str line budget t k).turned.counted t = rotAfter str line budget t (k + 1) := by
  rw [rotAfter_turned, rotAfter, rotAfter, Nat.succ_mul]
  rfl

/-- The events of the first `n` turns. -/
def turnsEvents (p : Params) (c : Cfg) (a : Nat) (str : Str) (n : Nat) : List Event :=
  ((List.range n).map (fun k => turnEvents p c a (rotl1^[k + 1] (rotString str)))).flatten

theorem turnsEvents_succ (p : Params) (c : Cfg) (a : Nat) (str : Str) (n : Nat) :
    turnsEvents p c a str (n + 1) = turnsEvents p c a str n ++ turnEvents p c a (rotl1^[n + 1] (rotString str)) := by
  simp [turnsEvents, List.range_succ]

theorem turnsEvents_split (p : Params) (c : Cfg) (a : Nat) (str : Str) {m n : Nat} (h : m ≤ n) :
    ∃ rest, turnsEvents p c a str n = turnsEvents p c a str m ++ rest := by
  obtain ⟨d, rfl⟩ := Nat.exists_eq_add_of_le h
  rw [turnsEvents, List.range_add, List.map_append, List.flatten_append]
  exact ⟨_, rfl⟩

/-- A rotate's display string is long enough for a frame after any number of turns. -/
theorem rotString_turned_length {n : Nat} {str : Str} (hlen : n < str.length) (k : Nat) :
    n ≤ (rotl1^[k] (rotString str)).length := by
  rw [rotl1_iterate_length, rotString, List.length_append]
  omega

theorem busWrites_turnsEvents (p : Params) {c : Cfg} (a : Nat) {str : Str} (hn : 2 ≤ c.lineLength)
    (hlen : c.lineLength < str.length) (n : Nat) :
    busWrites (turnsEvents p c a str n) = n * turnWrites p c := by
  induction n with
  | zero => simp [turnsEvents, busWrites_nil]
  | succ n ih =>
    rw [turnsEvents_succ, busWrites_append, ih, busWrites_turnEvents p a hn (rotString_turned_length hlen _), Nat.succ_mul]

/-! ### DISPLAY's rotate path (44_render_policy R245) -/

/-- The block at the check of the loop after `k` turns. -/
def State.afterTurns (op : Instr) (c : Cfg) (a : Nat) (str : Str) (line budget k : Nat) (s : State) : State :=
  s.atCheck op (rotAfter str line budget c.rotInterval k) (turnsEvents s.par c a str k)
    (busWrites (turnsEvents s.par c a str k))

theorem answersOk_turns_of_succ {s : State} {c : Cfg} {a : Nat} {str : Str} {k : Nat}
    (hok : s.answersOk (busWrites (turnsEvents s.par c a str (k + 1)))) :
    s.answersOk (busWrites (turnsEvents s.par c a str k)) := by
  rw [turnsEvents_succ, busWrites_append] at hok
  exact (take_add_ok hok).1

section
variable {c : Cfg} {s : State} {op : Instr} {str : Str} {line budget a : Nat} (h : s.Ready c) (hn : 2 ≤ c.lineLength)
  (hlen : c.lineLength < str.length) (hline : c.reaches line 0 a)
include h hn hlen hline

/-- The `k + 1`st turn, its writes answered. -/
theorem afterTurns_turn {k : Nat} (hok : s.answersOk (busWrites (turnsEvents s.par c a str (k + 1)))) :
    Reaches ((s.afterTurns op c a str line budget k).push [.call .rotStep]) (s.afterTurns op c a str line budget (k + 1)) := by
  have hcall := h.atCheck (op := op) (rotAfter str line budget c.rotInterval k) (turnsEvents s.par c a str k)
    (busWrites (turnsEvents s.par c a str k))
  rw [turnsEvents_succ, busWrites_append] at hok
  have hturn := rotStep_runs (a := a) hcall rfl hline hn (by rw [rotAfter_turned]; exact rotString_turned_length hlen _)
    (by rw [rotAfter_turned]; exact (take_add_ok hok).2)
  rw [rotAfter_succ, rotAfter_turned, atCheck_turn] at hturn
  rw [State.afterTurns, State.afterTurns, turnsEvents_succ, busWrites_append]
  exact hturn.reaches_push hcall.seq hcall.undisturbed

/-- The turns before the budget is reached, every write answered: the loop goes round after each. -/
theorem afterTurns_reaches {k : Nat} (hk : k < budget) (hok : s.answersOk (busWrites (turnsEvents s.par c a str k))) :
    Reaches ((s.afterTurns op c a str line budget 0).push [.call .rotStep])
      ((s.afterTurns op c a str line budget k).push [.call .rotStep]) := by
  induction k with
  | zero => exact Reaches.refl _
  | succ k ih =>
    have hbefore := ih (by omega) (answersOk_turns_of_succ hok)
    have hcheck := (step_check (s := s.afterTurns op c a str line budget (k + 1)) rfl rfl rfl h.undisturbed).trans
      (rotCheck_loops (r := rotAfter str line budget c.rotInterval (k + 1)) rfl
        (not_or.mpr ⟨nofun, fun hend => hk.ne hend.2⟩))
    exact (hbefore.trans (afterTurns_turn h hn hlen hline hok)).trans (Reaches.head hcheck (Reaches.refl _))

/-- A rotate whose turns are all answered ends at its budget. -/
theorem afterTurns_ends (hop : isInitOp op = false) (hb : 1 ≤ budget)
    (hok : s.answersOk (busWrites (turnsEvents s.par c a str budget))) :
    Reaches ((s.afterTurns op c a str line budget 0).push [.call .rotStep])
      ((s.leftBy (rotAfter str line budget c.rotInterval budget)).afterOp (turnsEvents s.par c a str budget)
        (busWrites (turnsEvents s.par c a str budget)) (.ok .rotated (.count budget))) := by
  obtain ⟨k, rfl⟩ : ∃ k, budget = k + 1 := ⟨budget - 1, by omega⟩
  have hbefore := afterTurns_reaches (op := op) h hn hlen hline k.lt_succ_self (answersOk_turns_of_succ hok)
  have hcheck := (step_check (s := s.afterTurns op c a str line (k + 1) (k + 1)) rfl rfl rfl h.undisturbed).trans
    (rotCheck_ends (r := rotAfter str line (k + 1) c.rotInterval (k + 1)) rfl (.inr ⟨Nat.succ_pos k, rfl⟩))
  have hend := atCheck_finish h hop (rotAfter str line (k + 1) c.rotInterval (k + 1)) (turnsEvents s.par c a str (k + 1))
    (busWrites (turnsEvents s.par c a str (k + 1))) .rotated (.count (k + 1))
  exact (hbefore.trans (afterTurns_turn h hn hlen hline hok)).trans (Reaches.head hcheck (hend ▸ Reaches.refl _))

/-- A write that fails in the turn after the first `j` ends the rotate there. -/
theorem afterTurns_breaks (hop : isInitOp op = false) {j i : Nat} (hj : j < budget)
    (hi : i < busWrites (turnEvents s.par c a (rotl1^[j + 1] (rotString str))))
    (hb : s.failsAt (busWrites (turnsEvents s.par c a str j) + i)) :
    Reaches ((s.afterTurns op c a str line budget 0).push [.call .rotStep])
      ((s.leftBy (rotAfter str line budget c.rotInterval j).turned).afterOp
        (cutAt (busWrites (turnsEvents s.par c a str j) + i) (turnsEvents s.par c a str budget))
        (busWrites (turnsEvents s.par c a str j) + i + 1) (.err .transportError)) := by
  obtain ⟨hok, hfail⟩ := State.failsAt_split hb
  have hcall := h.atCheck (op := op) (rotAfter str line budget c.rotInterval j) (turnsEvents s.par c a str j)
    (busWrites (turnsEvents s.par c a str j))
  have hturned : (rotAfter str line budget c.rotInterval j).turned.s = rotl1^[j + 1] (rotString str) := by
    rw [rotAfter_turned]
  have hbreak := rotStep_breaks (a := a) hcall rfl hline hn (by rw [hturned]; exact rotString_turned_length hlen _)
    (by rw [hturned]; exact hi) hfail
  obtain ⟨rest, hrest⟩ := turnsEvents_split s.par c a str (show j + 1 ≤ budget from hj)
  have hcut : cutAt (busWrites (turnsEvents s.par c a str j) + i) (turnsEvents s.par c a str budget)
      = turnsEvents s.par c a str j ++ cutAt i (turnEvents s.par c a (rotl1^[j + 1] (rotString str))) := by
    rw [hrest, turnsEvents_succ, List.append_assoc, cutAt_append_right, cutAt_append_left _ hi]
  rw [hturned, atCheck_failed h hop] at hbreak
  rw [hcut, Nat.add_assoc]
  exact (afterTurns_reaches h hn hlen hline hj hok).trans (hbreak.reaches_push hcall.seq hcall.undisturbed)

end

/-- The rotate path starts at the loop's first turn (44_render_policy R245). -/
theorem exec_display_rotate {c : Cfg} {s : State} (h : s.Ready c) {str : Str} (hlen : c.lineLength < str.length)
    (hn : 2 ≤ c.lineLength) (line : Nat) (align : Align) (budget a : Nat) :
    exec (.display str line align .rotate budget) s
      = .next ((s.afterTurns (.display str line align .rotate budget) c a str line budget 0).push [.call .rotStep]) := by
  rw [exec_display_long h hlen, overflowPath, rotatePath, if_neg (by omega)]
  simp [State.afterTurns, State.atCheck, State.emitted, State.startOp, State.push, rotAfter, turnsEvents, busWrites_nil]

/-- Settles O39: the refusal, the loop's start, and its turns up to the budget or to the write that fails. -/
theorem displayRotateRendersBudgetFrames : Obligations.DisplayRotateRendersBudgetFrames := by
  intro c s str line align budget h hlen left
  have hstart := fun hn a => exec_display_rotate h hlen hn line align budget a
  refine ⟨fun hn => ?_, fun hn => ⟨_, hstart hn 0, rfl, ?_, rfl, rfl, ?_, rfl⟩, fun hn hb => ⟨_, hstart hn 0, ?_⟩,
    fun a hn hb hline => ⟨fun hok => ⟨_, hstart hn a, ?_⟩, fun k hk hfail => ⟨_, hstart hn a, ?_⟩⟩⟩
  · rw [exec_display_long h hlen, overflowPath, rotatePath, if_pos hn, refuse_afterOp h.seq]
  · simp [State.afterTurns, State.atCheck, rotAfter, rotString, space]
  · simp [State.afterTurns, State.atCheck, State.emitted, turnsEvents]
  · have hcall := h.atCheck (op := .display str line align .rotate budget) (rotAfter str line budget c.rotInterval 0) [] 0
    have hbad := rotStep_badLine hcall rfl hb
    rw [atCheck_failed h rfl] at hbad
    exact hbad.reaches_push hcall.seq hcall.undisturbed
  · exact afterTurns_ends h hn hlen hline rfl hb hok
  · have hturn : ∀ j, busWrites (turnEvents s.par c a (rotl1^[j + 1] (rotString str))) = turnWrites s.par c := fun j =>
      busWrites_turnEvents s.par a hn (rotString_turned_length hlen _)
    have hturns := busWrites_turnsEvents s.par a hn hlen
    have hk' : k < turnWrites s.par c * budget := Nat.mul_comm _ _ ▸ hturns budget ▸ hk
    have hsum : busWrites (turnsEvents s.par c a str (k / turnWrites s.par c)) + k % turnWrites s.par c = k := by
      rw [hturns, Nat.div_add_mod']
    have hbreak := afterTurns_breaks (op := .display str line align .rotate budget) h hn hlen hline rfl
      (Nat.div_lt_of_lt_mul hk') (by rw [hturn]; exact Nat.mod_lt k (turnWrites_pos s.par c)) (by rwa [hsum])
    rw [hsum, rotAfter_turned, ← hturn 0] at hbreak
    exact hbreak

end Sys2Proof.Machine
end

section
/-! SUPPORT. Which instructions may write WIN (44_render_policy R253, 10_state R38, R39), from any state. -/

namespace Sys2Proof.Machine

/-! ### The shared operations keep WIN -/

theorem enterFrame_win (b : Byte) (m : RegSel) (s : State) : (enterFrame b m s).win = s.win := by
  unfold enterFrame
  split <;> rfl

theorem enterBacklight_win (on : Bool) (s : State) : (enterBacklight on s).win = s.win := by
  unfold enterBacklight
  split <;> rfl

theorem busWriteOp_win {v : Byte} {s t : State} (h : busWriteOp v s = .next t) : t.win = s.win := by
  obtain ⟨c, -, ⟨-, rfl⟩ | ⟨-, rfl⟩⟩ := busWriteOp_next h <;> simp

theorem writeRawBody_win {str : Str} {line pos : Nat} {s t : State} (h : writeRawBody str line pos s = .next t) :
    t.win = s.win := by
  obtain ⟨c, -, ⟨e, -, rfl⟩ | ⟨r, -, rfl⟩ | ⟨a, -, rfl⟩⟩ := writeRawBody_next h <;> simp

theorem renderBody_win {str : Str} {line : Nat} {s t : State} (h : renderBody str line s = .next t) : t.win = s.win := by
  obtain ⟨c, -, h⟩ := withCfg_next h
  exact writeRawBody_win h

theorem renderMoved_win {op : Instr} {w : Window} {s t : State} (h : renderMoved op w s = .next t) : t.win = some w :=
  (renderBody_win h).trans rfl

/-! ### The guards keep WIN -/

section
variable {s t : State} {k : Outc} {P : Option Window → Prop} (hs : P s.win)
include hs

theorem inOp_win (hk : k = .next t → P t.win) (h : inOp s k = .next t) : P t.win := by
  rcases inOp_next h with ⟨-, rfl⟩ | ⟨-, h⟩
  · exact hs
  · exact hk h

theorem whenInit_win (hk : k = .next t → P t.win) (h : whenInit s k = .next t) : P t.win := by
  rcases whenInit_next h with ⟨-, rfl⟩ | ⟨-, h⟩
  · rwa [State.refuse_win]
  · exact hk h

theorem heldWhenBusy_win {i : Instr} (hk : k = .next t → P t.win) (h : heldWhenBusy i s k = .next t) : P t.win := by
  rcases heldWhenBusy_next h with ⟨-, h⟩ | ⟨-, l, rfl⟩
  · exact hk h
  · exact hs

/-- A host operation that no rule calls from inside another. -/
theorem hostOp_win {i : Instr} (hk : k = .next t → P t.win) (h : heldWhenBusy i s (whenInit s k) = .next t) : P t.win :=
  heldWhenBusy_win hs (whenInit_win hs hk) h

end

/-! ### The four moves -/

/-- WIN as a move leaves it: as it was, or moved (43_scroll_window R213, R214). -/
def keptOrMoved (before after : Option Window) : Prop :=
  after = before ∨ ∃ w k, before = some w ∧ after = some (w.movedTo k)

theorem keptOrMoved.refl (w : Option Window) : keptOrMoved w w := .inl rfl

theorem winFwd_moves {w w' : Window} {n : Nat} (h : w.fwd n = some w') : ∃ k, w' = w.movedTo k :=
  ⟨_, (Window.fwd_some_iff.mp h).2⟩

theorem winBwd_moves {w w' : Window} {n : Nat} (h : w.bwd n = some w') : ∃ k, w' = w.movedTo k :=
  ⟨_, (Window.bwd_some_iff.mp h).2⟩

/-- WIN_FWD and WIN_BWD, called or not. -/
theorem storeMoved_win {s t : State} {move : Window → Option Window}
    (hmove : ∀ w w', move w = some w' → ∃ k, w' = w.movedTo k)
    (h : inOp s (withWin s fun w => storeMoved s (move w)) = .next t) : keptOrMoved s.win t.win := by
  refine inOp_win (keptOrMoved.refl s.win) (fun h => ?_) h
  obtain ⟨w, hw, h⟩ := withWin_next h
  cases hm : move w with
  | none =>
    rw [hm] at h
    obtain rfl := Host.Outcome.next.inj h
    exact .inl (State.raise_win _ s)
  | some w' =>
    rw [hm] at h
    obtain rfl := Host.Outcome.next.inj h
    obtain ⟨k, rfl⟩ := hmove w w' hm
    exact .inr ⟨w, k, hw, rfl⟩

/-- SCROLL_FWD and SCROLL_BWD past the checks of every request. -/
theorem scrollBy_win {op : Instr} {s t : State} {move : Window → Option Window}
    (hmove : ∀ w w', move w = some w' → ∃ k, w' = w.movedTo k) (h : scrollBy op move s = .next t) :
    keptOrMoved s.win t.win := by
  cases hw : s.win with
  | none =>
    simp only [scrollBy, hw] at h
    obtain rfl := Host.Outcome.next.inj h
    exact .inl (by rw [State.refuse_win, hw])
  | some w =>
    cases hm : move w with
    | none =>
      simp only [scrollBy, hw, hm] at h
      obtain rfl := Host.Outcome.next.inj h
      exact .inl (by rw [State.raise_win, State.startOp_win, hw])
    | some w' =>
      rw [scrollBy_moves hw hm] at h
      obtain ⟨k, rfl⟩ := hmove w w' hm
      exact .inr ⟨w, k, rfl, renderMoved_win h⟩

theorem exec_move_win {i : Instr} {n : Nat} {s t : State}
    (hi : i = .scrollFwd n ∨ i = .scrollBwd n ∨ i = .winFwd n ∨ i = .winBwd n) (h : exec i s = .next t) :
    keptOrMoved s.win t.win := by
  have hfwd : ∀ w w' : Window, w.fwd n = some w' → ∃ k, w' = w.movedTo k := fun _ _ => winFwd_moves
  have hbwd : ∀ w w' : Window, w.bwd n = some w' → ∃ k, w' = w.movedTo k := fun _ _ => winBwd_moves
  rcases hi with rfl | rfl | rfl | rfl
  · exact hostOp_win (i := .scrollFwd n) (k := scrollBy (.scrollFwd n) (fun w => w.fwd n) s) (keptOrMoved.refl s.win)
      (scrollBy_win hfwd) h
  · exact hostOp_win (i := .scrollBwd n) (k := scrollBy (.scrollBwd n) (fun w => w.bwd n) s) (keptOrMoved.refl s.win)
      (scrollBy_win hbwd) h
  · exact storeMoved_win (move := fun w => w.fwd n) hfwd h
  · exact storeMoved_win (move := fun w => w.bwd n) hbwd h

/-! ### Every other instruction -/

/-- It is none of the instructions that may write WIN. -/
def keepsWindow : Instr → Bool
  | .init _ _ _ _ _ _ | .display _ _ _ _ _ | .scrollFwd _ | .scrollBwd _ | .winCreate _ _ _ _ _ | .winFwd _
  | .winBwd _ => false
  | _ => true

theorem exec_posCursor_win {line col : Nat} {s t : State} (h : exec (.posCursor line col) s = .next t) : t.win = s.win := by
  simp only [exec, execPosCursor] at h
  split at h
  · obtain ⟨c, -, h⟩ := withCfg_next h
    split at h <;> obtain rfl := Host.Outcome.next.inj h <;> simp
  · refine whenInit_win (P := (· = s.win)) rfl (fun h => ?_) h
    obtain ⟨c, -, h⟩ := withCfg_next h
    split at h <;> obtain rfl := Host.Outcome.next.inj h <;> simp

theorem exec_writeRaw_win {str : Str} {line pos : Nat} {s t : State} (h : exec (.writeRaw str line pos) s = .next t) :
    t.win = s.win := by
  simp only [exec, execWriteRaw] at h
  split at h
  · exact writeRawBody_win h
  · exact whenInit_win (P := (· = s.win)) rfl (fun h => (writeRawBody_win h).trans (State.startOp_win _ _ s)) h

theorem exec_keeps_win {i : Instr} {s t : State} (hi : keepsWindow i = true) (h : exec i s = .next t) : t.win = s.win := by
  have called : ∀ {k}, inOp s k = .next t → (k = .next t → t.win = s.win) → t.win = s.win := fun h hk =>
    inOp_win (P := (· = s.win)) rfl hk h
  have started : ∀ {k}, whenInit s k = .next t → (k = .next t → t.win = s.win) → t.win = s.win := fun h hk =>
    whenInit_win (P := (· = s.win)) rfl hk h
  have host : ∀ {i k}, heldWhenBusy i s (whenInit s k) = .next t → (k = .next t → t.win = s.win) → t.win = s.win :=
    fun h hk => hostOp_win (P := (· = s.win)) rfl hk h
  have next : ∀ {u : State}, (Host.Outcome.next u : Outc) = .next t → u.win = s.win → t.win = s.win := fun h hu =>
    Host.Outcome.next.inj h ▸ hu
  cases i with
  | init | display | scrollFwd | scrollBwd | winCreate | winFwd | winBwd => cases hi
  | writeCmd b m =>
    simp only [exec, execWriteCmd] at h
    split at h
    · exact next h (enterFrame_win b m s)
    · exact started h fun h => next h (enterFrame_win b m _)
  | backlight on =>
    simp only [exec, execBacklight] at h
    split at h
    · exact next h (enterBacklight_win on s)
    · exact started h fun h => next h (enterBacklight_win on _)
  | clear => exact host (i := .clear) h fun h => next h rfl
  | loadChars glyphs =>
    refine host (i := .loadChars glyphs) h fun h => ?_
    split_ifs at h
    · exact next h (State.refuse_win _ s)
    · exact next h (State.refuse_win _ s)
    · exact next h rfl
  | posCursor line col => exact exec_posCursor_win h
  | writeRaw str line pos => exact exec_writeRaw_win h
  | pad str n c a =>
    refine host (i := .pad str n c a) h fun h => ?_
    split at h <;> exact next h rfl
  | view =>
    refine host (i := .view) h fun h => ?_
    split at h
    · exact next h (State.refuse_win _ s)
    · exact next h rfl
  | cancel => exact next h rfl
  | winView =>
    refine called h fun h => ?_
    obtain ⟨w, -, h⟩ := withWin_next h
    exact next h rfl
  | renderLine str line => exact called h renderBody_win
  | rotStep =>
    refine called h fun h => ?_
    obtain ⟨r, -, h⟩ := withRot_next h
    obtain ⟨c, -, h⟩ := withCfg_next h
    exact next h rfl
  | wait | nibble | commandFrame => exact called h fun h => next h rfl
  | busWrite | busByte | nibbleEnSet | nibbleEnClear | nibblePrewrite | backlightOn | backlightOff =>
    exact called h busWriteOp_win
  | wake | set4bit | functionSet | displayOn | clearDisplay | entryModeLeft | returnHome | setCgram | setDdram | data =>
    exact called h fun h => next h (enterFrame_win _ _ s)

theorem keepsWindow_or_moves {i : Instr} (hd : ∀ str line al ov bu, i ≠ .display str line al ov bu)
    (hc : ∀ buf n line b e, i ≠ .winCreate buf n line b e) (hi : isInitOp i = false) :
    keepsWindow i = true ∨ ∃ n, i = .scrollFwd n ∨ i = .scrollBwd n ∨ i = .winFwd n ∨ i = .winBwd n := by
  cases i with
  | display str line al ov bu => exact absurd rfl (hd str line al ov bu)
  | winCreate buf n line b e => exact absurd rfl (hc buf n line b e)
  | init => cases hi
  | scrollFwd n => exact .inr ⟨n, .inl rfl⟩
  | scrollBwd n => exact .inr ⟨n, .inr (.inl rfl)⟩
  | winFwd n => exact .inr ⟨n, .inr (.inr (.inl rfl))⟩
  | winBwd n => exact .inr ⟨n, .inr (.inr (.inr rfl))⟩
  | _ => exact .inl rfl

/-- Settles O48: `exec_cfg` for CFG; for WIN the four moves change an offset and a width, and the rest change nothing. -/
theorem windowAndConfigLifecycle : Obligations.WindowAndConfigLifecycle := by
  intro i s t h
  refine ⟨fun hi => exec_cfg (.inl hi) h, fun hd hc hi => ?_⟩
  rcases keepsWindow_or_moves hd hc hi with hkeeps | ⟨n, hmoves⟩
  · have hwin := exec_keeps_win hkeeps h
    refine ⟨.inl hwin, fun w w' hw hw' => ?_⟩
    obtain rfl : w = w' := Option.some.inj (by rw [← hw, ← hw', hwin])
    exact ⟨rfl, rfl, rfl, rfl, rfl⟩
  · refine ⟨.inr ⟨n, hmoves⟩, fun w w' hw hw' => ?_⟩
    rcases exec_move_win hmoves h with hwin | ⟨v, k, hv, hk⟩
    · obtain rfl : w = w' := Option.some.inj (by rw [← hw, ← hw', hwin])
      exact ⟨rfl, rfl, rfl, rfl, rfl⟩
    · obtain rfl : w = v := Option.some.inj (hw.symm.trans hv)
      obtain rfl : w' = w.movedTo k := Option.some.inj (hw'.symm.trans hk)
      exact ⟨rfl, rfl, rfl, rfl, rfl⟩

end Sys2Proof.Machine
end

section
/-! SUPPORT. Which move a step makes (60_exceptions R285, R288): a CANCEL that has arrived, the request or the statement
fetched, a word of the opcode table placed to run next, another requester's turn. -/

namespace Sys2Proof.Machine

/-! ### A CANCEL at the port (60_exceptions R285; log 7) -/

/-- No CANCEL is due just when every CANCEL at the port has yet to arrive. -/
theorem dueCancel_eq_none_iff {n : Nat} {l : List Arrival} :
    dueCancel n l = none ↔ ∀ a ∈ l, a.req = Request.cancel → n < a.notBefore := by
  induction l with
  | nil => simp [dueCancel]
  | cons a rest ih =>
    by_cases hdue : a.req = Request.cancel ∧ a.notBefore ≤ n
    · simp [dueCancel, hdue]
    · have hhead : a.req = Request.cancel → n < a.notBefore := fun hreq => Nat.not_le.mp fun hle => hdue ⟨hreq, hle⟩
      simp only [dueCancel, if_neg hdue, Option.map_eq_none_iff, ih, List.forall_mem_cons]
      exact (and_iff_right hhead).symm

/-- The first CANCEL, once arrived, is taken out of the port, past the requests before it. -/
theorem dueCancel_first {n : Nat} {before after : List Arrival} {a : Arrival} (hb : ∀ b ∈ before, b.req ≠ Request.cancel)
    (ha : a.req = Request.cancel) (hn : a.notBefore ≤ n) :
    dueCancel n (before ++ a :: after) = some (before ++ after) := by
  induction before with
  | nil => simp [dueCancel, ha, hn]
  | cons b rest ih =>
    obtain ⟨hhead, hrest⟩ := List.forall_mem_cons.mp hb
    simp [dueCancel, hhead, ih hrest]

/-- Settles O51: in an operation the step looks for a due CANCEL first, and finds this one. -/
theorem cancelIsTakenAtOnce : Obligations.CancelIsTakenAtOnce := by
  intro s q before after a hq ht hp hb ha hn
  rw [step, State.takeTurn_nil ht, stepCur_some hq, hp, dueCancel_first hb ha hn]
  rfl

/-! ### The port while an operation executes (60_exceptions R285) -/

theorem OpMove.port {s t : State} (hm : OpMove s t) : t.port = s.port := by
  cases hm with
  | pushed l hl => rfl
  | waited n => rfl
  | wrote c v hc hv => simp
  | failed c v hc hv => simp
  | raised e => simp
  | took tx l hl hlock htx => rfl
  | turned r r' l hl hm hr hb => rfl

/-- A step of an operation takes nothing from the port but a CANCEL that has arrived. -/
theorem OpStep.port {s t : State} {q : Seq} (hm : OpStep s q t) (hnone : dueCancel s.trace.length s.port = none) :
    t.port = s.port := by
  cases hm with
  | ran st rest t ht hmv => exact hmv.port
  | released rest ht => simp
  | finished st v ht hr => simp
  | rotated r ht hret hr hc => simp
  | looped ht hret => rfl
  | cancelled rest hdue => exact absurd (hnone.symm.trans hdue) nofun

/-- Settles O52: only a CANCEL that is due leaves the port in an operation, and none is. -/
theorem otherRequestsAreHeld : Obligations.OtherRequestsAreHeld := by
  intro s t h hsome hfar hst
  obtain ⟨u, rfl, -, hcases⟩ := step_cases h
  rcases hcases with ⟨q, t', -, hst', hm⟩ | ⟨hq, -⟩ | ⟨a, rest, t', hq, -⟩ | ⟨a, rest, hq, -⟩
  · obtain rfl := Host.Outcome.next.inj (hst'.symm.trans hst)
    exact hm.port (dueCancel_eq_none_iff.mpr hfar)
  all_goals simp [hq] at hsome

/-! ### An unknown overflow policy (60_exceptions R277, 44_render_policy R243) -/

/-- Settles O37: such a DISPLAY takes the overflow path, whose last arm reports and does nothing else. -/
theorem unknownOverflowIsNoOp : Obligations.UnknownOverflowIsNoOp := by
  intro c s str line align v budget h hlen
  rw [exec_display_long h hlen, ← report_afterOp]
  rfl

/-! ### A word of the opcode table placed to run next (log 12) -/

/-- The next step runs the word placed, and placing it leaves the trace, the bus and the window. -/
theorem step_withFetchWord (s : State) {nbits w : Nat} {i : Instr} (h : decodeTableWord nbits w = some i) :
    ∃ u, step (s.withFetchWord nbits w) = exec i u ∧ u.trace = s.trace ∧ u.bus = s.bus ∧ u.win = s.win := by
  by_cases hreq : ∃ r, codeOfTableWord nbits w = some (.request r)
  · obtain ⟨r, hr⟩ := hreq
    have hd : decode (.request r) = .ok i := by
      simp only [decodeTableWord, hr] at h
      cases hdec : decode (.request r) with
      | ok j => simpa [hdec, Except.toOption] using h
      | error e => simp [hdec, Except.toOption] at h
    have hplace : s.withFetchWord nbits w = s.placeRequest r := by simp only [State.withFetchWord, State.placeWord, hr]
    rw [hplace]
    exact ⟨_, step_request rfl rfl rfl hd, rfl, rfl, rfl⟩
  · have hplace : s.withFetchWord nbits w = s.placeForm i := by
      unfold State.withFetchWord State.placeWord
      split
      · exact absurd ⟨_, ‹_›⟩ hreq
      · simp only [h]
    have hquiet : (s.placeForm i).undisturbed := ⟨rfl, fun a ha => by simpa using (List.mem_filter.mp ha).2⟩
    rw [hplace]
    exact ⟨_, step_call rfl rfl hquiet, rfl, rfl, rfl⟩

/-! ### Whose turn it is (60_exceptions R288; log 9) -/

/-- A parked requester whose turn it is comes into place, and the one in place is parked. -/
theorem State.takeTurn_parked {s : State} {k : Nat} {rest : List Nat} {r : Requester} (ht : s.turns = k :: rest)
    (hr : s.parked.find? (fun r => r.id == k) = some r) :
    s.takeTurn = { s with
      turns := rest, cur := r.id, mode := r.mode, seq := r.seq, status := r.status, port := r.port
      parked := s.park :: s.parked.filter (fun r => r.id != k) } := by
  simp only [State.takeTurn, ht, State.switchTo, hr, State.park]

/-- The turn of a requester that is not parked changes nobody's place. -/
theorem State.takeTurn_absent {s : State} {k : Nat} {rest : List Nat} (ht : s.turns = k :: rest)
    (habs : ∀ r ∈ s.parked, r.id ≠ k) : s.takeTurn = { s with turns := rest } := by
  have hnone : s.parked.find? (fun r => r.id == k) = none := by simpa using habs
  simp only [State.takeTurn, ht, State.switchTo, hnone]

/-- Settles O50: the fetch at the port, in an operation, and of a placed word; then the turns, and the empty port. -/
theorem stepRunsTheFetchedInstruction : Obligations.StepRunsTheFetchedInstruction := by
  refine ⟨fun s a rest i hq ht hp hd => step_request hq ht hp hd, fun s q i rest hq hu htodo => ?_,
    fun s nbits w i h => step_withFetchWord s h, fun s k rest ht => ⟨fun r hr => ?_, fun habs => ?_⟩,
    fun s hq ht hp => ?_⟩
  · rw [step_call hq htodo hu, State.setTodo, hq]
    rfl
  · exact congrArg stepCur (State.takeTurn_parked ht hr)
  · exact congrArg stepCur (State.takeTurn_absent ht habs)
  · rw [step, State.takeTurn_nil ht, stepCur_none hq, fetchRequest_nil hp]

end Sys2Proof.Machine
end

section
/-! SUPPORT. The sums of the waits of complete frames (70_reset R314, R324). -/

namespace Sys2Proof.Machine

/-! ### The sum of the waits -/

theorem minTime_append (e1 e2 : List Event) : minTime (e1 ++ e2) = minTime e1 + minTime e2 := by
  simp [minTime]

theorem minTime_wait (t : Nat) : minTime [.wait t] = t := rfl

/-! ### A write, a nibble frame, command frames -/

theorem minTime_writeEvents (a : BitVec 7) (v : Byte) : minTime (writeEvents a v) = Config.tSettle := rfl

/-- The pre-write adds one settle delay to the strobe's waits. -/
theorem minTime_nibbleEvents (p : Params) (a : BitVec 7) (m : RegSel) (d : Nibble) :
    minTime (nibbleEvents p a m d) = if p.prewrite then 900 else 800 := by
  simp only [nibbleEvents, minTime_append, minTime_wait]
  split <;> simp only [minTime_writeEvents] <;> rfl

theorem minTime_frameEvents (p : Params) (a : BitVec 7) (m : RegSel) (b : Byte) :
    minTime (frameEvents p a m b) = if p.prewrite then 1800 else 1600 := by
  rw [frameEvents, minTime_append, minTime_nibbleEvents, minTime_nibbleEvents]
  split <;> rfl

theorem minTime_streamEvents (p : Params) (a : BitVec 7) (l : List (RegSel × Byte)) :
    minTime (streamEvents p a l) = (if p.prewrite then 1800 else 1600) * l.length := by
  induction l with
  | nil => rfl
  | cons c l ih => rw [streamEvents, minTime_append, minTime_frameEvents, ih, List.length_cons, Nat.mul_succ, Nat.add_comm]

/-- Settles O17: the waits and the writes of a write, a nibble frame and a stream, the last by induction on its frames. -/
theorem framesKeepTheirMinimumTimes : Obligations.FramesKeepTheirMinimumTimes := fun p addr v d m l =>
  ⟨minTime_writeEvents addr v, busWrites_writeEvents addr v, minTime_nibbleEvents p addr m d,
    busWrites_nibbleEvents p addr m d, minTime_streamEvents p addr l, busWrites_streamEvents p addr l⟩

end Sys2Proof.Machine
end

section
/-! SUPPORT. The host's operations before INIT (70_reset R311). -/

namespace Sys2Proof.Machine

/-- The second check of every request refuses it before INIT, whatever the operation would do (60_exceptions R279). -/
theorem whenInit_notInit {s : State} (hm : s.mode = .uninit) (hq : s.seq = none) (k : Outc) :
    whenInit s k = .next (s.afterOp [] 0 (.refused .notInit)) := by
  rw [whenInit_uninit hm, refuse_afterOp hq]

/-- With no operation in progress the request is not held, so that check is reached (60_exceptions R285). -/
theorem heldWhenBusy_notInit {s : State} (hm : s.mode = .uninit) (hq : s.seq = none) (i : Instr) (k : Outc) :
    heldWhenBusy i s (whenInit s k) = .next (s.afterOp [] 0 (.refused .notInit)) :=
  (heldWhenBusy_idle i hq _).trans (whenInit_notInit hm hq k)

/-- Outside ROTATING a CANCEL leaves only its result (44_render_policy R247). -/
theorem exec_cancel_notRotating {s : State} (hm : s.mode ≠ .rotating) :
    exec .cancel s = .next (s.afterOp [] 0 (.ok .done .none)) := by
  rw [← report_afterOp, exec, execCancel, if_neg hm]

theorem exec_notInit {i : Instr} {s : State} (hm : s.mode = .uninit) (hq : s.seq = none) (hhost : i.hostOp = true)
    (hinit : isInitOp i = false) (hcancel : i ≠ .cancel) :
    exec i s = .next (s.afterOp [] 0 (.refused .notInit)) := by
  cases i with
  | init => cases hinit
  | cancel => exact absurd rfl hcancel
  | writeCmd | backlight | posCursor | writeRaw =>
    simp only [exec, execWriteCmd, execBacklight, execPosCursor, execWriteRaw, hq, whenInit_notInit hm hq]
  | clear | loadChars | pad | display | scrollFwd | scrollBwd | view =>
    simp only [exec, execClear, execLoadChars, execPad, execDisplay, execScrollFwd, execScrollBwd, execView,
      heldWhenBusy_notInit hm hq]
  | _ => cases hhost

/-- Settles O49: CANCEL makes no check; every other operation but INIT checks that INIT has been. -/
theorem nothingRunsBeforeInit : Obligations.NothingRunsBeforeInit := by
  intro i s hm hq hhost hinit
  by_cases hcancel : i = .cancel
  · rw [if_pos hcancel, hcancel]
    exact exec_cancel_notRotating (by simp [hm])
  · rw [if_neg hcancel]
    exact exec_notInit hm hq hhost hinit hcancel

end Sys2Proof.Machine
end
